-- ==== Sys2Proof/Word.lean ====
section
/-! DEFINITION. The two value types of the machine: the octet and the 16-bit word (spec 00_scope.md R5, R6). -/

namespace Sys2Proof

/-- The addressable unit, 8 bits (R5 CELL, R6). Every octet is an unsigned number (R150). -/
abbrev Octet := BitVec 8

/-- A 16-bit value: an address, the program counter, a 16-bit operand (R5 ADDR_BITS, R6). -/
abbrev Word := BitVec 16

end Sys2Proof
end

