-- ==== Sys2Proof/Machine/Bits.lean ====
section
/-! DEFINITION. Bit fields and byte order: the halves of a word, the word of two octets, and the fields of an
address in the device window (spec 00_scope.md R6, 20_memory.md R54, R59). -/

namespace Sys2Proof

/-- `v[15:8]` (R6). -/
def highOctet (v : Word) : Octet := v.extractLsb' 8 8

/-- `v[7:0]` (R6). -/
def lowOctet (v : Word) : Octet := v.extractLsb' 0 8

/-- `h:l`, the word `h * 256 + l` (R6). -/
def joinOctets (h l : Octet) : Word := h ++ l

/-- The address lies in the device window: its high octet is 0x03 (R52, R54). -/
def inWindow (a : Word) : Bool := highOctet a == 0x03#8

/-- The slot number of a window address, `a[7:4]` (R54). -/
def windowSlot (a : Word) : BitVec 4 := a.extractLsb' 4 4

/-- The register number of a window address, `a[3:0]` (R54). -/
def windowRegister (a : Word) : BitVec 4 := a.extractLsb' 0 4

end Sys2Proof
end

