-- ==== Sys2Proof/Syntax.lean ====
section
/-! DEFINITION. The instruction set as syntax: one constructor for each of the 52 rows of the opcode table
(spec 30_encoding.md R96). Only PUSH and PUSH16 carry an operand (R93). -/

namespace Sys2Proof

/-- The 52 instructions, in the order of the opcode table (R96). -/
inductive Instr where
  -- stack and system, 0x00 to 0x0B (R128 to R139)
  | halt
  | yield
  | drop
  | drop16
  | dup
  | dup16
  | swap
  | swap16
  | over8
  | over16
  | tor
  | fromr
  -- arithmetic and logic, 0x10 to 0x25 (R153 to R174)
  | add
  | add16
  | sub
  | sub16
  | mul
  | mul16
  | div
  | div16
  | mod
  | mod16
  | and
  | and16
  | or
  | or16
  | xor
  | xor16
  | not
  | not16
  | shl
  | shl16
  | shr
  | shr16
  -- comparison and control, 0x40 to 0x4B (R191 to R202)
  | eq
  | eq16
  | neq
  | neq16
  | gt
  | gt16
  | lt
  | lt16
  | jz
  | jnz
  | call
  | ret
  -- literal and memory, 0x50 to 0x55 (R210 to R215)
  | push (imm : Octet)
  | push16 (imm : Word)
  | load
  | load16
  | store
  | store16
  deriving DecidableEq, Repr

end Sys2Proof
end

