-- ==== Sys2Proof/Decode.lean ====
section
/-! DEFINITION. The decoder (total on any octets, rejecting by name) and the encoder (spec 30_encoding.md R90 to R97).
The decoder searches the opcode table; the encoder is written per instruction, each from its own rule. -/

namespace Sys2Proof

/-- Why a sequence of octets does not begin with an instruction. -/
inductive DecodeError where
  /-- There is no octet at all. -/
  | noOctets
  /-- The opcode octet is not in the table (R97). -/
  | illegalOpcode (op : Octet)
  /-- The opcode is PUSH or PUSH16 and octets of its immediate are missing (R92). -/
  | missingImmediate (op : Octet)
  deriving DecidableEq, Repr

/-- Opcodes 0x00 to 0x0B (R96). -/
def stackRows : List (Octet × Instr) :=
  [(0x00, .halt), (0x01, .yield), (0x02, .drop), (0x03, .drop16), (0x04, .dup), (0x05, .dup16),
   (0x06, .swap), (0x07, .swap16), (0x08, .over8), (0x09, .over16), (0x0A, .tor), (0x0B, .fromr)]

/-- Opcodes 0x10 to 0x25 (R96). -/
def arithmeticRows : List (Octet × Instr) :=
  [(0x10, .add), (0x11, .add16), (0x12, .sub), (0x13, .sub16), (0x14, .mul), (0x15, .mul16),
   (0x16, .div), (0x17, .div16), (0x18, .mod), (0x19, .mod16), (0x1A, .and), (0x1B, .and16),
   (0x1C, .or), (0x1D, .or16), (0x1E, .xor), (0x1F, .xor16), (0x20, .not), (0x21, .not16),
   (0x22, .shl), (0x23, .shl16), (0x24, .shr), (0x25, .shr16)]

/-- Opcodes 0x40 to 0x4B (R96). -/
def controlRows : List (Octet × Instr) :=
  [(0x40, .eq), (0x41, .eq16), (0x42, .neq), (0x43, .neq16), (0x44, .gt), (0x45, .gt16),
   (0x46, .lt), (0x47, .lt16), (0x48, .jz), (0x49, .jnz), (0x4A, .call), (0x4B, .ret)]

/-- Opcodes 0x52 to 0x55 (R96). -/
def memoryRows : List (Octet × Instr) :=
  [(0x52, .load), (0x53, .load16), (0x54, .store), (0x55, .store16)]

/-- The 50 bare instructions of the opcode table: format B, one octet (R90, R96). -/
def bareRows : List (Octet × Instr) := stackRows ++ arithmeticRows ++ controlRows ++ memoryRows

/-- The opcode of PUSH, format I8 (R96). -/
def pushOpcode : Octet := 0x50

/-- The opcode of PUSH16, format I16 (R96). -/
def push16Opcode : Octet := 0x51

/-- The first row with the opcode `op`. -/
def findRow (op : Octet) : List (Octet × Instr) → Option Instr
  | [] => none
  | (o, i) :: rows => if o = op then some i else findRow op rows

/-- How many immediate octets follow the opcode octet, none for an illegal opcode: the length follows from the
opcode octet alone (R92). -/
def immediateOctets (op : Octet) : Option Nat :=
  if op = pushOpcode then some 1
  else if op = push16Opcode then some 2
  else (findRow op bareRows).map fun _ => 0

/-- The instruction at the front of a list of octets, and the octets after it (R90 to R93). The immediate of PUSH16
is big-endian (R93). -/
def decode : List Octet → Except DecodeError (Instr × List Octet)
  | [] => .error .noOctets
  | op :: rest =>
    if op = pushOpcode then
      match rest with
      | v :: rest => .ok (.push v, rest)
      | [] => .error (.missingImmediate op)
    else if op = push16Opcode then
      match rest with
      | h :: l :: rest => .ok (.push16 (joinOctets h l), rest)
      | _ => .error (.missingImmediate op)
    else
      match findRow op bareRows with
      | some i => .ok (i, rest)
      | none => .error (.illegalOpcode op)

/-- The octets of an instruction, opcode first, an immediate big-endian after it (R90, R93, R96). -/
def encode : Instr → List Octet
  | .halt => [0x00]
  | .yield => [0x01]
  | .drop => [0x02]
  | .drop16 => [0x03]
  | .dup => [0x04]
  | .dup16 => [0x05]
  | .swap => [0x06]
  | .swap16 => [0x07]
  | .over8 => [0x08]
  | .over16 => [0x09]
  | .tor => [0x0A]
  | .fromr => [0x0B]
  | .add => [0x10]
  | .add16 => [0x11]
  | .sub => [0x12]
  | .sub16 => [0x13]
  | .mul => [0x14]
  | .mul16 => [0x15]
  | .div => [0x16]
  | .div16 => [0x17]
  | .mod => [0x18]
  | .mod16 => [0x19]
  | .and => [0x1A]
  | .and16 => [0x1B]
  | .or => [0x1C]
  | .or16 => [0x1D]
  | .xor => [0x1E]
  | .xor16 => [0x1F]
  | .not => [0x20]
  | .not16 => [0x21]
  | .shl => [0x22]
  | .shl16 => [0x23]
  | .shr => [0x24]
  | .shr16 => [0x25]
  | .eq => [0x40]
  | .eq16 => [0x41]
  | .neq => [0x42]
  | .neq16 => [0x43]
  | .gt => [0x44]
  | .gt16 => [0x45]
  | .lt => [0x46]
  | .lt16 => [0x47]
  | .jz => [0x48]
  | .jnz => [0x49]
  | .call => [0x4A]
  | .ret => [0x4B]
  | .push v => [0x50, v]
  | .push16 v => [0x51, highOctet v, lowOctet v]
  | .load => [0x52]
  | .load16 => [0x53]
  | .store => [0x54]
  | .store16 => [0x55]

/-- The first three octets of the number `w` cut to `nbits` bits, least significant octet first: an instruction is at
most three octets long (R90), and octet `k` lies at address `A + k`. -/
def tableOctets (nbits w : Nat) : List Octet :=
  let v := w % 2 ^ nbits
  [BitVec.ofNat 8 v, BitVec.ofNat 8 (v / 256), BitVec.ofNat 8 (v / 65536)]

/-- The instruction the decoder reads from a word numbered as the opcode table numbers its bits: bit 0 is the least
significant bit of the first octet. -/
def decodeTableWord (nbits w : Nat) : Option Instr :=
  match decode (tableOctets nbits w) with
  | .ok (i, _) => some i
  | .error _ => none

end Sys2Proof
end

