-- ==== Sys2Proof/Machine/Flags.lean ====
section
/-! DEFINITION. The FLAGS octet: its bits and every computation on it (spec 10_state.md R26 to R28). No instruction
computes a condition code (R28). -/

namespace Sys2Proof.Machine

/-- The faults of the core, each its bit of FLAGS (R27, R230). -/
inductive Cause where
  | dsOvf
  | dsUnf
  | rsOvf
  | rsUnf
  | div0
  | illegalOp
  deriving DecidableEq, Repr

/-- The mask of a fault's bit (R27, R230). -/
def causeMask : Cause → Octet
  | .dsOvf => 0x02
  | .dsUnf => 0x04
  | .rsOvf => 0x08
  | .rsUnf => 0x10
  | .div0 => 0x20
  | .illegalOp => 0x40

/-- The WAITING bit (R27). -/
def waitingMask : Octet := 0x01

/-- FAULT_MASK, bits 7 to 1 (R5, R27). -/
def faultMask : Octet := 0xFE

/-- FLAGS with a fault's bit ORed in (R231). -/
def withFault (f : Octet) (c : Cause) : Octet := f ||| causeMask c

/-- The boundary test: some bit of FAULT_MASK is set (R233). -/
def faultPresent (f : Octet) : Bool := f &&& faultMask != 0

/-- What HALT leaves: bits 7 to 1 cleared, WAITING kept (R128). -/
def haltFlags (f : Octet) : Octet := f &&& waitingMask

/-- What YIELD leaves: WAITING set (R129). -/
def yieldFlags (f : Octet) : Octet := f ||| waitingMask

/-- What a resume leaves: WAITING cleared (R246). -/
def resumeFlags (f : Octet) : Octet := f &&& faultMask

end Sys2Proof.Machine
end

