-- ==== Sys2Proof/Machine/Device.lean ====
section
/-! DEFINITION. The devices a slot can hold, as data (spec 20_memory.md R55, 60_exceptions.md R262 to R268). The two
devices the spec gives a register map keep their registers here; of any other device nothing is known but R55. -/

namespace Sys2Proof.Machine

/-- The registers of a Terminal (R267). -/
structure Terminal where
  /-- Register 1, payload address high. -/
  addrHigh : Octet
  /-- Register 2, payload address low. -/
  addrLow : Octet
  /-- Register 3, payload length. -/
  length : Octet
  deriving DecidableEq, Repr, Inhabited

/-- The registers of a Switch port (R262). -/
structure Port where
  /-- Register 1, own port id, read-only. -/
  ownId : Octet
  /-- Register 2, destination port. -/
  dest : Octet
  /-- Register 3, last sender port, read-only. -/
  lastSender : Octet
  /-- Register 4, outgoing signal id. -/
  signalOut : Octet
  /-- Register 5, last received signal id, read-only. -/
  signalIn : Octet
  /-- Register 6, outgoing payload length. -/
  lengthOut : Octet
  /-- Register 7, outgoing payload address high. -/
  addrHigh : Octet
  /-- Register 8, outgoing payload address low. -/
  addrLow : Octet
  /-- Register 9, receive-buffer address high. -/
  bufferHigh : Octet
  /-- Register 10, receive-buffer address low. -/
  bufferLow : Octet
  /-- Register 11, interrupt-vector-slot address high. -/
  vectorHigh : Octet
  /-- Register 12, interrupt-vector-slot address low. -/
  vectorLow : Octet
  /-- Register 14, last received payload length, read-only. -/
  lengthIn : Octet
  deriving DecidableEq, Repr, Inhabited

/-- A device attached to a slot (R35, R55). -/
inductive Device where
  /-- A device of which only the contract of R55 is known: what it answers comes from outside. -/
  | external
  /-- A Terminal (R267). -/
  | terminal (t : Terminal)
  /-- A Switch port (R262). -/
  | port (p : Port)
  deriving DecidableEq, Repr

/-- What the host attaches: a kind of device, a port with the id it was given at attach time (R262, R283). -/
inductive DeviceKind where
  | external
  | terminal
  | port (ownId : Octet)
  deriving DecidableEq, Repr

end Sys2Proof.Machine
end

