-- ==== Sys2Proof/Config.lean ====
section
/-! DEFINITION. What the spec leaves to an implementation or to the environment, as constants without a body: nothing
can be proved of their values, so a statement that mentions one holds for every value of it
(spec 93_implementation_defined.md U2, U3, U10, U11, U15; 92_eei_decisions.md D28). -/

namespace Sys2Proof.Config

/-- The `n`-th octet that a device answers where nothing says which: a read of an external device when the script of
answers is used up, of a write-only, reserved or unlisted device register (U2, U3, U11). -/
opaque freeOctet : Nat → Octet

/-- The `n`-th choice among several interrupt requests that wait for one core (R244, U15). -/
opaque irqChoice : Nat → Nat

/-- DEVTYPE_SWITCH: what register 0 of a Switch port reads as (D28, U10). -/
opaque deviceTypeSwitch : Octet

/-- DEVTYPE_TERMINAL: what register 0 of a Terminal reads as (D28, U10). -/
opaque deviceTypeTerminal : Octet

/-- PORT_RESET: what the registers of a Switch port hold when it is attached with the given id (D28, U10). -/
opaque portReset : Octet → Machine.Port

/-- What the registers of a Terminal hold when it is attached (U10). -/
opaque terminalReset : Machine.Terminal

/-- What a write of an octet to a read-only register does to the registers of a Switch port, but for its id, which is
stable (R262, U3). -/
opaque portStrayWrite : Machine.Port → BitVec 4 → Octet → Machine.Port

/-- What a write of an octet to a constant or unlisted register does to the registers of a Terminal (U3). -/
opaque terminalStrayWrite : Machine.Terminal → BitVec 4 → Octet → Machine.Terminal

end Sys2Proof.Config
end

