-- ==== Sys2Proof/Machine/State.lean ====
section
/-! DEFINITION. The machine's state as plain data, the reasons a step can stop, and the state after reset
(spec 10_state.md R20 to R39). -/

namespace Sys2Proof.Machine

/-- The five run states (R23). -/
inductive RunState where
  | idle
  | running
  | waiting
  | halted
  | faulted
  deriving DecidableEq, Repr

/-- The storage `Mem`: pairs of an address and an octet in one canonical form (addresses strictly rising, no octet
equal to what an unlisted address reads as). It is the flat array behind the dispatcher, the octets under the device
window included (R36, R50). -/
abbrev Memory := List Host.Cell

/-- What an agent other than the core does at one point of the total order of accesses (R67, R69): at most one access
to storage, since the octets of a transfer are moved one at a time (R57). -/
inductive Act where
  /-- One octet of a transfer is moved into plain storage by the bulk-copy port (R57). -/
  | octetWrite (a : Word) (v : Octet)
  /-- One octet of a transfer is moved out of plain storage by the bulk-copy port (R57). -/
  | octetRead (a : Word)
  /-- An interrupt request with its vector-slot address is presented to this core (R241, R243). -/
  | irqRequest (vectorSlot : Word)
  /-- The Switch port in a slot records sender, signal and length of a delivered message (R265). -/
  | portRecord (slot : BitVec 4) (sender signal length : Octet)
  deriving DecidableEq, Repr

/-- What a device does before an access of the core returns, and what any agent other than the core does at an
instruction boundary (R55, R67). Between the octets of a transfer other agents may act (R57, R70). -/
inductive Deed where
  /-- `BulkWrite(a, data)` into this machine's storage (R57). -/
  | bulkWrite (a : Word) (data : List Octet)
  /-- `BulkRead(a, n)` of this machine's storage (R57). -/
  | bulkRead (a : Word) (n : Nat)
  /-- An interrupt request with its vector-slot address is presented to this core (R241, R243). -/
  | irqRequest (vectorSlot : Word)
  /-- The Switch port in a slot records sender, signal and length of a delivered message (R265). -/
  | portRecord (slot : BitVec 4) (sender signal length : Octet)
  deriving DecidableEq, Repr

/-- How an external device answers one access: what it does before it returns, and the octet it returns with, or
`none` where it never returns (R55, U11). The octet matters for a read only. -/
structure Reply where
  deeds : List Deed
  answer : Option Octet
  deriving DecidableEq, Repr

/-- What reaches the machine at an instruction boundary (R281, R67, R243, R265). -/
inductive Input where
  /-- Nothing happens outside: the core moves. -/
  | core
  /-- Host Load (R282). -/
  | load (image : List Octet)
  /-- Host Attach (R283). -/
  | attach (slot : BitVec 4) (kind : DeviceKind)
  /-- Host Run (R284). -/
  | run
  /-- Host Stop (R285). -/
  | stop
  /-- Host SetTrace (R25, R281). -/
  | setTrace (b : Bool)
  /-- An agent other than the core does something (R67). -/
  | deed (d : Deed)
  /-- A message is delivered to the Switch port in a slot of this machine (R265). -/
  | deliver (slot : BitVec 4) (sender signal : Octet) (payload : List Octet)
  deriving DecidableEq, Repr

/-- What has gone out of the machine (R55, R263, R267). -/
inductive Emission where
  /-- An external device is asked for a register: `DevRead(slot, register)`. -/
  | registerRead (slot register : BitVec 4)
  /-- An external device is given an octet: `DevWrite(slot, register, value)`. -/
  | registerWrite (slot register : BitVec 4) (value : Octet)
  /-- Octets of this machine's storage that another agent or an external device has read: `BulkRead` (R57). -/
  | copied (a : Word) (data : List Octet)
  /-- A Terminal's text output. -/
  | text (payload : List Octet)
  /-- A message a Switch port gives to the routing function. -/
  | message (source dest signal : Octet) (payload : List Octet)
  deriving DecidableEq, Repr

/-- The machine's surroundings as plain data: the environment is an input of the machine (R37), and a claim over all
states is a claim over all of these scripts. The MODEL's own fields, not the spec's state. -/
structure Env where
  /-- What happens at the coming instruction boundaries, in order; with nothing left the core moves at every step. -/
  inputs : List Input
  /-- What other agents do just before each of the coming octet accesses of the core and of the host's Load, and before each
  octet that a transfer through the bulk-copy port moves, one entry an access (R57, R70). -/
  foreign : List (List Act)
  /-- How external devices answer the coming accesses, in order (R55). -/
  replies : List Reply
  /-- The requests presented and not yet accepted, each with a deliverer that waits (R244). -/
  irqs : List Word
  /-- What has gone out of the machine, oldest first. -/
  emitted : List Emission
  /-- How many free values have been drawn. -/
  drawn : Nat
  deriving DecidableEq, Repr

/-- The complete state of one machine (R20). The entry vector, DSP, RSP, FLAGS and both stacks are octets of `mem`
(R7, R39) and have no field of their own. -/
structure State where
  /-- `pc`, the program counter (R21). -/
  pc : Word
  /-- `run_state` (R23). -/
  runState : RunState
  /-- `stop_req`, the latch of host Stop (R24). -/
  stopReq : Bool
  /-- `trace`, the trace/debug latch (R25). -/
  trace : Bool
  /-- `Mem[0..65535]` (R50). -/
  mem : Memory
  /-- `slot[0..15]` (R35), a described device with its registers. -/
  slots : Vector (Option Device) 16
  /-- The surroundings. -/
  env : Env
  deriving DecidableEq, Repr

/-- The ways an instruction can hang. The faults of the spec (R230) are none of these: they are taken, and answer a
next state. -/
inductive Fault where
  /-- A device access never returns: raised by a core access to a slot whose external device, or whose port's routing,
  answers `none` (R55, R292). Safe: the hardware hangs too. -/
  | deviceNeverReturns
  /-- A port sends to its own id and waits for its own core to park: raised by a write to the send trigger (R292).
  Safe: the hardware hangs too. -/
  | selfSendDeadlock
  deriving DecidableEq, Repr

/-- The situations the spec places outside its rules (93_implementation_defined.md U7 to U9). -/
inductive Refusal where
  /-- An instruction with no meaning yet: raised by no arm. Safe. -/
  | notModelled (mnemonic : String)
  /-- A bulk transfer runs past address 0xFFFF (U7): raised by a transfer of another agent or of a described device.
  Safe. -/
  | bulkPastEnd
  /-- The image of a Load is longer than IMAGE_MAX (U8). Safe. -/
  | imageTooLong
  /-- Load, Attach or Run outside Idle, or Inspect of a core that is Running or Waiting (U9). Safe. -/
  | hostOutsideAllowedState
  /-- Attach to a slot that holds a device (U9). Safe. -/
  | slotOccupied
  /-- A delivery to a slot that holds no Switch port (R265 has no such case). Safe. -/
  | noPortInSlot
  /-- A delivered payload longer than its one-octet length register can say (R262). Safe. -/
  | payloadTooLong
  deriving DecidableEq, Repr

/-- Quiet surroundings: nothing happens outside the core. -/
def Env.quiet : Env :=
  { inputs := [], foreign := [], replies := [], irqs := [], emitted := [], drawn := 0 }

/-- The machine right after creation (R38, R280). -/
def State.reset : State :=
  { pc := 0x0000
    runState := .idle
    stopReq := false
    trace := false
    mem := []
    slots := Vector.replicate 16 none
    env := Env.quiet }

/-- `pc <- v` (R11). -/
def State.setPc (s : State) (v : Word) : State := { s with pc := v }

/-- `run_state <- r` (R23). -/
def State.setRunState (s : State) (r : RunState) : State := { s with runState := r }

/-- `stop_req <- b` (R24). -/
def State.setStopReq (s : State) (b : Bool) : State := { s with stopReq := b }

/-- `trace <- b` (R25). -/
def State.setTrace (s : State) (b : Bool) : State := { s with trace := b }

/-- The whole storage is replaced. -/
def State.setMem (s : State) (m : Memory) : State := { s with mem := m }

/-- The whole slot table is replaced. -/
def State.setSlots (s : State) (t : Vector (Option Device) 16) : State := { s with slots := t }

/-- The surroundings are replaced. -/
def State.setEnv (s : State) (e : Env) : State := { s with env := e }

end Sys2Proof.Machine
end

