-- ==== Sys2Proof/Machine/Map.lean ====
section
/-! DEFINITION. The address map and the fixed parameters (spec 00_scope.md R5, 20_memory.md R51). -/

namespace Sys2Proof.Machine

/-- MEM_SIZE, the number of octets of storage (R5, R50). -/
def memSize : Nat := 65536

/-- ENTRY_VEC, the high octet of the entry vector (R5, R31). -/
def entryHighAddr : Word := 0x0000

/-- The low octet of the entry vector (R31). -/
def entryLowAddr : Word := 0x0001

/-- DSP_ADDR, the data-stack pointer octet (R5, R29). -/
def dspAddr : Word := 0x0002

/-- RSP_ADDR, the return-stack pointer octet (R5, R30). -/
def rspAddr : Word := 0x0003

/-- FLAGS_ADDR, the status and fault flags octet (R5, R26). -/
def flagsAddr : Word := 0x0004

/-- DS_BASE, the first slot of the data stack (R5, R32). -/
def dsBase : Word := 0x0100

/-- RS_BASE, the first slot of the return stack (R5, R33). -/
def rsBase : Word := 0x0200

/-- IMAGE_BASE, where a program image is loaded (R5, R99). -/
def imageBase : Word := 0x0400

/-- IMAGE_MAX, the longest image in octets (R5, R282). -/
def imageMax : Nat := 64512

/-- ENTRY_VALUE, what the loader writes to the entry vector (R5, R282). -/
def entryValue : Word := 0x0400

/-- STACK_MAX, the greatest depth a push can reach (R5; 90_conflicts.md C1). -/
def stackMax : Nat := 254

/-- The longest payload of a Switch port in octets: its length register is one octet (R262). -/
def payloadMax : Nat := 255

end Sys2Proof.Machine
end

