-- ==== Sys2Proof/WellFormed.lean ====
section
/-! DEFINITION. Well-formedness of what comes from outside: an instruction (spec 30_encoding.md R90, R93), a program image
(R99, 70_reset_and_hazards.md R282), a bulk transfer (20_memory.md R57) and a message payload (60_exceptions.md R262). -/

namespace Sys2Proof

/-- The immediate of PUSH is one octet and that of PUSH16 two; nothing else has one (R93). The operands are typed by
their widths, so every instruction meets the check: no value of an immediate is reserved (R98). -/
def Instr.wf : Instr → Bool
  | .push v => v.toNat < 2 ^ 8
  | .push16 v => v.toNat < 2 ^ 16
  | _ => true

namespace Machine

/-- The image is at most IMAGE_MAX octets (R282; a longer one is outside the spec, U8). -/
def imageFits (image : List Octet) : Bool := image.length ≤ imageMax

/-- A transfer of `n` octets from `a` stays inside the address space (R57; else it is outside the spec, U7). -/
def transferFits (a : Word) (n : Nat) : Bool := a.toNat + n ≤ memSize

/-- The payload's length fits the one-octet length register (R262). -/
def payloadFits (payload : List Octet) : Bool := payload.length ≤ payloadMax

end Machine

end Sys2Proof
end

