-- ==== Sys2Proof/Machine/Ops.lean ====
section
/-! DEFINITION. The named operations: storage, the bulk-copy port, the other agents, the devices, the dispatcher's two
octet accesses, the program counter, taking a fault, and the resume from an interrupt request
(spec 00_scope.md R8 to R11, 20_memory.md R50 to R75, 60_exceptions.md R230 to R249 and R262 to R268). -/

namespace Sys2Proof.Machine

/-! ### Storage: the flat array `Mem` -/

/-- What an address that the list does not hold reads as: the reset contents of every octet (R38). -/
def unlisted : Octet := 0x00

/-- `Mem[a]` (R7). -/
def Memory.peek : Memory → Nat → Octet
  | [], _ => unlisted
  | (k, v) :: m, a => if k = a then v else Memory.peek m a

/-- The storage without an entry for `a`. -/
def Memory.dropCell : Memory → Nat → Memory
  | [], _ => []
  | (k, v) :: m, a => if k = a then Memory.dropCell m a else (k, v) :: Memory.dropCell m a

/-- An entry put before the first one with a greater address. -/
def Memory.addCell : Memory → Nat → Octet → Memory
  | [], a, v => [(a, v)]
  | (k, w) :: m, a, v => if a < k then (a, v) :: (k, w) :: m else (k, w) :: Memory.addCell m a v

/-- `Mem[a] <- v` (R7), keeping the canonical form. -/
def Memory.poke (m : Memory) (a : Nat) (v : Octet) : Memory :=
  if v = unlisted then m.dropCell a else (m.dropCell a).addCell a v

/-- `Mem[a + i] <- data[i]` in ascending address order (R57, R282). -/
def Memory.pokeList : Memory → Nat → List Octet → Memory
  | m, _, [] => m
  | m, a, v :: data => Memory.pokeList (m.poke a v) (a + 1) data

/-- `Mem[a .. a + n - 1]` in ascending address order (R57). -/
def Memory.peekList (m : Memory) : Nat → Nat → List Octet
  | _, 0 => []
  | a, n + 1 => m.peek a :: Memory.peekList m (a + 1) n

/-- The canonical form: addresses strictly rising and inside the address space, no octet equal to `unlisted`. -/
abbrev Memory.wf (m : Memory) : Prop :=
  m.Pairwise (fun c d => c.1 < d.1) ∧ ∀ c ∈ m, c.1 < memSize ∧ c.2 ≠ unlisted

/-! ### Micro-operations: statements run one after the other and a fault aborts the rest (R10, R11) -/

/-- Why the rest of an instruction is not performed. -/
inductive Stop where
  /-- A fault has been taken: the state as it stands is the next one (R231). -/
  | taken
  /-- The instruction hangs. -/
  | stuck (f : Fault)
  /-- The situation is outside the spec. -/
  | outside (r : Refusal)
  deriving DecidableEq, Repr

/-- A sequence of octet accesses and register updates. -/
abbrev Micro (α : Type) := EStateM Stop State α

/-- The outcome of a finished sequence, and of what follows it where it was not cut short. -/
def settle {α : Type} (r : EStateM.Result Stop State α) (next : α → State → Host.Outcome State Fault Refusal) :
    Host.Outcome State Fault Refusal :=
  match r with
  | .ok a s => next a s
  | .error .taken s => .next s
  | .error (.stuck f) _ => .fault f
  | .error (.outside r) _ => .refused r

/-- A sequence run as a whole. -/
def finish (m : Micro Unit) (s : State) : Host.Outcome State Fault Refusal := settle (m.run s) fun _ t => .next t

/-- An update of the state. -/
def update (f : State → State) : Micro Unit := fun s => .ok () (f s)

/-- A value of the state. -/
def fetchOf {α : Type} (f : State → α) : Micro α := fun s => .ok (f s) s

/-- The sequence ends here. -/
def abort {α : Type} (e : Stop) : Micro α := fun s => .error e s

/-- A new value that nothing constrains. -/
def drawOctet : Micro Octet := fun s =>
  .ok (Config.freeOctet s.env.drawn) (s.setEnv { s.env with drawn := s.env.drawn + 1 })

/-! ### Slots (R35) -/

/-- What `slot[n]` holds. -/
def State.deviceAt (s : State) (n : BitVec 4) : Option Device := s.slots[n.toNat]'n.isLt

/-- `slot[n] <- d`. -/
def State.setDevice (s : State) (n : BitVec 4) (d : Device) : State :=
  s.setSlots (s.slots.set n.toNat (some d) n.isLt)

/-! ### The other agents (R67 to R70) -/

/-- A request waits at the core until it is accepted (R241, R244). -/
def presentIrq (v : Word) : Micro Unit :=
  update fun s => s.setEnv { s.env with irqs := s.env.irqs ++ [v] }

/-- The registers of a port that has received a message (R262, R265). -/
def received (p : Port) (sender signal length : Octet) : Port :=
  { p with lastSender := sender, signalIn := signal, lengthIn := length }

/-- The port in slot `n` records a delivered message's sender, signal and length (R265). -/
def recordMessage (n : BitVec 4) (sender signal length : Octet) : Micro Unit := fun s =>
  match s.deviceAt n with
  | some (.port p) => .ok () (s.setDevice n (.port (received p sender signal length)))
  | _ => .error (.outside .noPortInSlot) s

/-- Something goes out of the machine. -/
def emit (e : Emission) : Micro Unit :=
  update fun s => s.setEnv { s.env with emitted := s.env.emitted ++ [e] }

/-- One act of another agent; an octet of a transfer is never routed (R57). -/
def applyAct : Act → Micro Unit
  | .octetWrite a v => update fun s => s.setMem (s.mem.poke a.toNat v)
  | .octetRead a => do
    let v ← fetchOf fun s => s.mem.peek a.toNat
    emit (.copied a [v])
  | .irqRequest v => presentIrq v
  | .portRecord n sender signal length => recordMessage n sender signal length

/-- Acts of other agents, one after the other. -/
def applyActs : List Act → Micro Unit
  | [] => pure ()
  | a :: acts => do
    applyAct a
    applyActs acts

/-- The point just before an octet access: the acts that the script puts there happen (R70). -/
def interleave : Micro Unit := fun s =>
  match s.env.foreign with
  | [] => .ok () s
  | acts :: rest => (applyActs acts).run (s.setEnv { s.env with foreign := rest })

/-- `BulkRead(a, n)`, one octet access at a time in ascending address order (R57). -/
def bulkReadFrom : Nat → Nat → Micro (List Octet)
  | _, 0 => pure []
  | a, n + 1 => do
    interleave
    let v ← fetchOf fun s => s.mem.peek a
    let rest ← bulkReadFrom (a + 1) n
    pure (v :: rest)

/-- `BulkRead(a, n)` where it is defined, `a + n <= 65536` (R57, U7). -/
def bulkRead (a : Word) (n : Nat) : Micro (List Octet) :=
  if transferFits a n then bulkReadFrom a.toNat n else abort (.outside .bulkPastEnd)

/-- `Mem[a + i] <- data[i]`, straight into storage, one octet access at a time in ascending order (R57, R69, R282). -/
def placeOctets : Nat → List Octet → Micro Unit
  | _, [] => pure ()
  | a, v :: data => do
    interleave
    update fun s => s.setMem (s.mem.poke a v)
    placeOctets (a + 1) data

/-- `BulkWrite(a, data)` where it is defined, `a + len(data) <= 65536` (R57, U7). -/
def bulkWrite (a : Word) (data : List Octet) : Micro Unit :=
  if transferFits a data.length then placeOctets a.toNat data else abort (.outside .bulkPastEnd)

/-- What a device or another agent does as a whole (R55, R57). What a read yields goes to the reader. -/
def performDeed : Deed → Micro Unit
  | .bulkWrite a data => bulkWrite a data
  | .bulkRead a n => do
    let data ← bulkRead a n
    emit (.copied a data)
  | .irqRequest v => presentIrq v
  | .portRecord n sender signal length => recordMessage n sender signal length

/-- Deeds of a device or of another agent, one after the other. -/
def performDeeds : List Deed → Micro Unit
  | [] => pure ()
  | d :: deeds => do
    performDeed d
    performDeeds deeds

/-- The deeds by which a port delivers a message to its own machine, in order: the payload, the records, the request
(R265). The vector-slot address is what registers 11 and 12 hold (R266; 90_conflicts.md C2). -/
def deliveryDeeds (n : BitVec 4) (p : Port) (sender signal : Octet) (payload : List Octet) : List Deed :=
  [.bulkWrite (joinOctets p.bufferHigh p.bufferLow) payload,
   .portRecord n sender signal (BitVec.ofNat 8 payload.length),
   .irqRequest (joinOctets p.vectorHigh p.vectorLow)]

/-! ### Devices (R55, R262 to R267) -/

/-- What an external device does before it returns, and how it returns, if ever (R55, U11). -/
def giveReply (r : Reply) : Micro Octet := do
  performDeeds r.deeds
  match r.answer with
  | some v => pure v
  | none => abort (.stuck .deviceNeverReturns)

/-- An access to an external device, which does what the script says and returns with an octet, or never returns
(R55). With the script used up it returns a free octet at once. -/
def awaitReply : Micro Octet := fun s =>
  match s.env.replies with
  | [] => drawOctet.run s
  | r :: rest => (giveReply r).run (s.setEnv { s.env with replies := rest })

/-- A read of a Terminal register: the device-type constant, any value elsewhere (R267, U3). -/
def terminalRead (r : BitVec 4) : Micro Octet :=
  match r.toNat with
  | 0 => pure Config.deviceTypeTerminal
  | _ => drawOctet

/-- A write of a Terminal register; register 4 emits the payload (R267). -/
def terminalWrite (n : BitVec 4) (t : Terminal) (r : BitVec 4) (v : Octet) : Micro Unit :=
  match r.toNat with
  | 1 => update fun s => s.setDevice n (.terminal { t with addrHigh := v })
  | 2 => update fun s => s.setDevice n (.terminal { t with addrLow := v })
  | 3 => update fun s => s.setDevice n (.terminal { t with length := v })
  | 4 => do
    let payload ← bulkRead (joinOctets t.addrHigh t.addrLow) t.length.toNat
    emit (.text payload)
  | _ => update fun s => s.setDevice n (.terminal (Config.terminalStrayWrite t r v))

/-- A read of a Switch port register: the registers marked read-only, any value elsewhere (R262, U2, U3). -/
def portRead (p : Port) (r : BitVec 4) : Micro Octet :=
  match r.toNat with
  | 0 => pure Config.deviceTypeSwitch
  | 1 => pure p.ownId
  | 3 => pure p.lastSender
  | 5 => pure p.signalIn
  | 14 => pure p.lengthIn
  | _ => drawOctet

/-- The send trigger: the payload is read from the sender's own storage and given to the routing function, which
returns when the environment lets it (R263, R264, R292). A port that sends to itself waits for its own core. -/
def portSend (p : Port) : Micro Unit := do
  let payload ← bulkRead (joinOctets p.addrHigh p.addrLow) p.lengthOut.toNat
  emit (.message p.ownId p.dest p.signalOut payload)
  if p.dest = p.ownId then abort (.stuck .selfSendDeadlock)
  else do
    let _ ← awaitReply

/-- A write of a Switch port register (R262); register 15 has no effect the block can see (U2), and what a write of a
read-only register does is open (U3), but for the port's id, which is stable. -/
def portWrite (n : BitVec 4) (p : Port) (r : BitVec 4) (v : Octet) : Micro Unit :=
  match r.toNat with
  | 2 => update fun s => s.setDevice n (.port { p with dest := v })
  | 4 => update fun s => s.setDevice n (.port { p with signalOut := v })
  | 6 => update fun s => s.setDevice n (.port { p with lengthOut := v })
  | 7 => update fun s => s.setDevice n (.port { p with addrHigh := v })
  | 8 => update fun s => s.setDevice n (.port { p with addrLow := v })
  | 9 => update fun s => s.setDevice n (.port { p with bufferHigh := v })
  | 10 => update fun s => s.setDevice n (.port { p with bufferLow := v })
  | 11 => update fun s => s.setDevice n (.port { p with vectorHigh := v })
  | 12 => update fun s => s.setDevice n (.port { p with vectorLow := v })
  | 13 => portSend p
  | 15 => pure ()
  | _ => update fun s => s.setDevice n (.port { Config.portStrayWrite p r v with ownId := p.ownId })

/-- `DevRead(s, r)` for the device in slot `n` (R55). -/
def deviceRead (n : BitVec 4) (d : Device) (r : BitVec 4) : Micro Octet :=
  match d with
  | .external => do
    emit (.registerRead n r)
    awaitReply
  | .terminal _ => terminalRead r
  | .port p => portRead p r

/-- `DevWrite(s, r, v)` for the device in slot `n` (R55). -/
def deviceWrite (n : BitVec 4) (d : Device) (r : BitVec 4) (v : Octet) : Micro Unit :=
  match d with
  | .external => do
    emit (.registerWrite n r v)
    let _ ← awaitReply
  | .terminal t => terminalWrite n t r v
  | .port p => portWrite n p r v

/-! ### The dispatcher (R52, R53) -/

/-- `Read(a)` once the other agents have had their turn: a device register, 0x00 from an empty slot, or storage
(R52, R56). -/
def route (a : Word) : Micro Octet := fun s =>
  if inWindow a then
    match s.deviceAt (windowSlot a) with
    | some d => (deviceRead (windowSlot a) d (windowRegister a)).run s
    | none => .ok 0x00 s
  else .ok (s.mem.peek a.toNat) s

/-- `Write(a, v)` once the other agents have had their turn (R53, R56). -/
def routeWrite (a : Word) (v : Octet) : Micro Unit := fun s =>
  if inWindow a then
    match s.deviceAt (windowSlot a) with
    | some d => (deviceWrite (windowSlot a) d (windowRegister a) v).run s
    | none => .ok () s
  else .ok () (s.setMem (s.mem.poke a.toNat v))

/-- The core's `Read(a)` (R52, R70). -/
def read (a : Word) : Micro Octet := do
  interleave
  route a

/-- The core's `Write(a, v)` (R53, R70). -/
def write (a : Word) (v : Octet) : Micro Unit := do
  interleave
  routeWrite a v

/-! ### The program counter (R21, R22) -/

/-- `pc <- t` (R11). -/
def jump (t : Word) : Micro Unit := update fun s => s.setPc t

/-- `pc <- (pc + n) mod 65536` (R22). -/
def advance (n : Word) : Micro Unit := update fun s => s.setPc (s.pc + n)

/-- `run_state <- r` (R23). -/
def enter (r : RunState) : Micro Unit := update fun s => s.setRunState r

/-! ### Taking a fault, and the resume from an interrupt request -/

/-- `Fault(bit)`: the bit is ORed into FLAGS, the core goes to Faulted, and the instruction is aborted; `pc` is left
as it is and nothing is saved (R231, R234). -/
def takeFault {α : Type} (c : Cause) : Micro α := do
  let f ← read flagsAddr
  write flagsAddr (withFault f c)
  enter .faulted
  abort .taken

/-- Resume: the program counter is loaded from the two octets at the vector-slot address, WAITING is cleared and the
core runs; nothing is saved (R246, R247). It is the only entry the spec gives an interrupt, and there is no return
(R248). -/
def resume (vectorSlot : Word) : Micro Unit := do
  let h ← read vectorSlot
  let l ← read (vectorSlot + 1)
  jump (joinOctets h l)
  let f ← read flagsAddr
  write flagsAddr (resumeFlags f)
  enter .running

end Sys2Proof.Machine
end

