-- ==== Sys2Proof/Machine/Operands.lean ====
section
/-! DEFINITION. Where operands come from and results go: the push and pop primitives of both stacks
(spec 40_stack_system.md R120 to R127) and 16-bit values in memory (00_scope.md R8). -/

namespace Sys2Proof.Machine

/-- One of the two stacks: its depth octet, its first slot, and its two faults (R29 to R33). -/
structure StackSpec where
  depthAddr : Word
  base : Word
  overflow : Cause
  underflow : Cause
  deriving DecidableEq, Repr

/-- The data stack (R29, R32). -/
def dataStack : StackSpec := ⟨dspAddr, dsBase, .dsOvf, .dsUnf⟩

/-- The return stack (R30, R33). -/
def returnStack : StackSpec := ⟨rspAddr, rsBase, .rsOvf, .rsUnf⟩

/-- The address of slot `d` of a stack (R29, R32). -/
def slotAddr (k : StackSpec) (d : Octet) : Word := k.base + d.setWidth 16

/-- `Push8` on a stack (R120, R124). -/
def pushOctet (k : StackSpec) (v : Octet) : Micro Unit := do
  let d ← read k.depthAddr
  if stackMax ≤ d.toNat then takeFault k.overflow
  else do
    write (slotAddr k d) v
    write k.depthAddr (d + 1)

/-- `Pop8` on a stack: the slot keeps its octet (R121, R125). -/
def popOctet (k : StackSpec) : Micro Octet := do
  let d ← read k.depthAddr
  if d = 0 then takeFault k.underflow
  else do
    write k.depthAddr (d - 1)
    read (slotAddr k (d - 1))

/-- `Push16` on a stack: two checked pushes, high octet first (R122, R126). -/
def pushWord (k : StackSpec) (v : Word) : Micro Unit := do
  pushOctet k (highOctet v)
  pushOctet k (lowOctet v)

/-- `Pop16` on a stack: two checked pops, low octet first (R123, R127). -/
def popWord (k : StackSpec) : Micro Word := do
  let l ← popOctet k
  let h ← popOctet k
  pure (joinOctets h l)

/-- `Push8(v)` (R120). -/
def push8 (v : Octet) : Micro Unit := pushOctet dataStack v

/-- `Pop8()` (R121). -/
def pop8 : Micro Octet := popOctet dataStack

/-- `Push16(v)` (R122). -/
def push16 (v : Word) : Micro Unit := pushWord dataStack v

/-- `Pop16()` (R123). -/
def pop16 : Micro Word := popWord dataStack

/-- `RPush8(v)` (R124). -/
def rpush8 (v : Octet) : Micro Unit := pushOctet returnStack v

/-- `RPop8()` (R125). -/
def rpop8 : Micro Octet := popOctet returnStack

/-- `RPush16(v)` (R126). -/
def rpush16 (v : Word) : Micro Unit := pushWord returnStack v

/-- `RPop16()` (R127). -/
def rpop16 : Micro Word := popWord returnStack

/-- `MemRead(a, 2)`: high octet first, the second address wraps (R8, R62). -/
def readWord (a : Word) : Micro Word := do
  let h ← read a
  let l ← read (a + 1)
  pure (joinOctets h l)

/-- `MemWrite(a, 2, v)`: high octet first, the second address wraps (R8, R62). -/
def writeWord (a : Word) (v : Word) : Micro Unit := do
  write a (highOctet v)
  write (a + 1) (lowOctet v)

end Sys2Proof.Machine
end

