-- ==== Sys2Proof/Machine/ArithLogic.lean ====
section
/-! DEFINITION. The arithmetic, logic and shift family, opcodes 0x10 to 0x25 (spec 41_arithmetic_logic.md R150 to R178).
Every value is unsigned and every result is cut to its width (R150); the result is `b op a` with `a` popped first (R151). -/

namespace Sys2Proof.Machine

/-! ### The shapes of the family -/

/-- `( b a -- r )` on octets (R151). -/
def binary8 (f : Octet → Octet → Octet) : Micro Unit := do
  let a ← pop8
  let b ← pop8
  push8 (f b a)
  advance 1

/-- `( b16 a16 -- r16 )` (R151). -/
def binary16 (f : Word → Word → Word) : Micro Unit := do
  let a ← pop16
  let b ← pop16
  push16 (f b a)
  advance 1

/-- Division and remainder of octets: a divisor 0 faults after both pops (R152). -/
def divide8 (f : Octet → Octet → Octet) : Micro Unit := do
  let a ← pop8
  let b ← pop8
  if a = 0 then takeFault .div0
  else do
    push8 (f b a)
    advance 1

/-- Division and remainder of words: a divisor 0 faults after both pops (R152). -/
def divide16 (f : Word → Word → Word) : Micro Unit := do
  let a ← pop16
  let b ← pop16
  if a = 0 then takeFault .div0
  else do
    push16 (f b a)
    advance 1

/-- `( b16 a -- r16 )`: the amount of a shift is one octet on top of the word (R175). -/
def shiftWord (f : Word → Octet → Word) : Micro Unit := do
  let a ← pop8
  let b ← pop16
  push16 (f b a)
  advance 1

/-! ### The computations -/

/-- `b` shifted left by the whole amount, 0 from the width on (R171, R175). -/
def shiftLeft8 (b a : Octet) : Octet := if 8 ≤ a.toNat then 0 else b <<< a.toNat

/-- `b` shifted right by the whole amount, zeros entering (R173, R175). -/
def shiftRight8 (b a : Octet) : Octet := if 8 ≤ a.toNat then 0 else b >>> a.toNat

/-- As `shiftLeft8` on a word (R172, R175). -/
def shiftLeft16 (b : Word) (a : Octet) : Word := if 16 ≤ a.toNat then 0 else b <<< a.toNat

/-- As `shiftRight8` on a word (R174, R175). -/
def shiftRight16 (b : Word) (a : Octet) : Word := if 16 ≤ a.toNat then 0 else b >>> a.toNat

/-! ### The instructions -/

/-- ADD (R153). -/
def execAdd (s : State) : Host.Outcome State Fault Refusal := finish (binary8 fun b a => b + a) s

/-- ADD16 (R154). -/
def execAdd16 (s : State) : Host.Outcome State Fault Refusal := finish (binary16 fun b a => b + a) s

/-- SUB (R155). -/
def execSub (s : State) : Host.Outcome State Fault Refusal := finish (binary8 fun b a => b - a) s

/-- SUB16 (R156). -/
def execSub16 (s : State) : Host.Outcome State Fault Refusal := finish (binary16 fun b a => b - a) s

/-- MUL (R157). -/
def execMul (s : State) : Host.Outcome State Fault Refusal := finish (binary8 fun b a => b * a) s

/-- MUL16 (R158). -/
def execMul16 (s : State) : Host.Outcome State Fault Refusal := finish (binary16 fun b a => b * a) s

/-- DIV (R159). -/
def execDiv (s : State) : Host.Outcome State Fault Refusal := finish (divide8 fun b a => b / a) s

/-- DIV16 (R160). -/
def execDiv16 (s : State) : Host.Outcome State Fault Refusal := finish (divide16 fun b a => b / a) s

/-- MOD (R161). -/
def execMod (s : State) : Host.Outcome State Fault Refusal := finish (divide8 fun b a => b % a) s

/-- MOD16 (R162). -/
def execMod16 (s : State) : Host.Outcome State Fault Refusal := finish (divide16 fun b a => b % a) s

/-- AND (R163). -/
def execAnd (s : State) : Host.Outcome State Fault Refusal := finish (binary8 fun b a => b &&& a) s

/-- AND16 (R164). -/
def execAnd16 (s : State) : Host.Outcome State Fault Refusal := finish (binary16 fun b a => b &&& a) s

/-- OR (R165). -/
def execOr (s : State) : Host.Outcome State Fault Refusal := finish (binary8 fun b a => b ||| a) s

/-- OR16 (R166). -/
def execOr16 (s : State) : Host.Outcome State Fault Refusal := finish (binary16 fun b a => b ||| a) s

/-- XOR (R167). -/
def execXor (s : State) : Host.Outcome State Fault Refusal := finish (binary8 fun b a => b ^^^ a) s

/-- XOR16 (R168). -/
def execXor16 (s : State) : Host.Outcome State Fault Refusal := finish (binary16 fun b a => b ^^^ a) s

/-- NOT (R169). -/
def execNot (s : State) : Host.Outcome State Fault Refusal := finish (do
  let a ← pop8
  push8 (a ^^^ 0xFF)
  advance 1) s

/-- NOT16 (R170). -/
def execNot16 (s : State) : Host.Outcome State Fault Refusal := finish (do
  let a ← pop16
  push16 (a ^^^ 0xFFFF)
  advance 1) s

/-- SHL (R171). -/
def execShl (s : State) : Host.Outcome State Fault Refusal := finish (binary8 shiftLeft8) s

/-- SHL16 (R172). -/
def execShl16 (s : State) : Host.Outcome State Fault Refusal := finish (shiftWord shiftLeft16) s

/-- SHR (R173). -/
def execShr (s : State) : Host.Outcome State Fault Refusal := finish (binary8 shiftRight8) s

/-- SHR16 (R174). -/
def execShr16 (s : State) : Host.Outcome State Fault Refusal := finish (shiftWord shiftRight16) s

end Sys2Proof.Machine
end

