-- ==== Sys2Proof/Machine/CompareControl.lean ====
section
/-! DEFINITION. The comparison and control-transfer family, opcodes 0x40 to 0x4B (spec 42_compare_control.md R190 to R204). -/

namespace Sys2Proof.Machine

/-- The result of a comparison: the octet 0x01 or 0x00 (R190). -/
def truthOctet (c : Bool) : Octet := if c then 0x01 else 0x00

/-- `( b a -- f )` on octets, testing `b REL a` (R190). -/
def compare8 (rel : Octet → Octet → Bool) : Micro Unit := do
  let a ← pop8
  let b ← pop8
  push8 (truthOctet (rel b a))
  advance 1

/-- `( b16 a16 -- f )`: the result is one octet (R190). -/
def compare16 (rel : Word → Word → Bool) : Micro Unit := do
  let a ← pop16
  let b ← pop16
  push8 (truthOctet (rel b a))
  advance 1

/-- `( t16 c -- )`: both operands are popped whether or not the jump is taken (R199, R200). -/
def jumpIf (taken : Octet → Bool) : Micro Unit := do
  let c ← pop8
  let t ← pop16
  if taken c then jump t else advance 1

/-- EQ (R191). -/
def execEq (s : State) : Host.Outcome State Fault Refusal := finish (compare8 fun b a => b == a) s

/-- EQ16 (R192). -/
def execEq16 (s : State) : Host.Outcome State Fault Refusal := finish (compare16 fun b a => b == a) s

/-- NEQ (R193). -/
def execNeq (s : State) : Host.Outcome State Fault Refusal := finish (compare8 fun b a => b != a) s

/-- NEQ16 (R194). -/
def execNeq16 (s : State) : Host.Outcome State Fault Refusal := finish (compare16 fun b a => b != a) s

/-- GT, unsigned (R195). -/
def execGt (s : State) : Host.Outcome State Fault Refusal := finish (compare8 fun b a => decide (a.toNat < b.toNat)) s

/-- GT16, unsigned (R196). -/
def execGt16 (s : State) : Host.Outcome State Fault Refusal := finish (compare16 fun b a => decide (a.toNat < b.toNat)) s

/-- LT, unsigned (R197). -/
def execLt (s : State) : Host.Outcome State Fault Refusal := finish (compare8 fun b a => decide (b.toNat < a.toNat)) s

/-- LT16, unsigned (R198). -/
def execLt16 (s : State) : Host.Outcome State Fault Refusal := finish (compare16 fun b a => decide (b.toNat < a.toNat)) s

/-- JZ (R199). -/
def execJz (s : State) : Host.Outcome State Fault Refusal := finish (jumpIf fun c => c == 0) s

/-- JNZ (R200). -/
def execJnz (s : State) : Host.Outcome State Fault Refusal := finish (jumpIf fun c => c != 0) s

/-- CALL: the target is popped before the return address is pushed (R201). -/
def execCall (s : State) : Host.Outcome State Fault Refusal := finish (do
  let t ← pop16
  let pc ← fetchOf State.pc
  rpush16 (pc + 1)
  jump t) s

/-- RET (R202). -/
def execRet (s : State) : Host.Outcome State Fault Refusal := finish (do
  let t ← rpop16
  jump t) s

end Sys2Proof.Machine
end

