-- ==== Sys2Proof/Machine/LiteralMemory.lean ====
section
/-! DEFINITION. The literal and memory family, opcodes 0x50 to 0x55 (spec 43_literal_memory.md R210 to R216). The immediates
of PUSH and PUSH16 are fetched with the opcode (Machine/Cycle.lean): nothing stands before them in the pseudocode. -/

namespace Sys2Proof.Machine

/-- PUSH (R210). -/
def execPush (imm : Octet) (s : State) : Host.Outcome State Fault Refusal := finish (do
  push8 imm
  advance 2) s

/-- PUSH16 (R211). -/
def execPush16 (imm : Word) (s : State) : Host.Outcome State Fault Refusal := finish (do
  push16 imm
  advance 3) s

/-- LOAD (R212). -/
def execLoad (s : State) : Host.Outcome State Fault Refusal := finish (do
  let a ← pop16
  let v ← read a
  push8 v
  advance 1) s

/-- LOAD16: two pushes of one octet, with the second read between them (R213). -/
def execLoad16 (s : State) : Host.Outcome State Fault Refusal := finish (do
  let a ← pop16
  let v0 ← read a
  push8 v0
  let v1 ← read (a + 1)
  push8 v1
  advance 1) s

/-- STORE: the address is on top (R214). -/
def execStore (s : State) : Host.Outcome State Fault Refusal := finish (do
  let a ← pop16
  let v ← pop8
  write a v
  advance 1) s

/-- STORE16: big-endian, high octet first (R215). -/
def execStore16 (s : State) : Host.Outcome State Fault Refusal := finish (do
  let a ← pop16
  let v ← pop16
  writeWord a v
  advance 1) s

end Sys2Proof.Machine
end

