-- ==== Sys2Proof/Machine/StackSystem.lean ====
section
/-! DEFINITION. The stack and system family, opcodes 0x00 to 0x0B (spec 40_stack_system.md R128 to R139). -/

namespace Sys2Proof.Machine

/-- HALT (R128). -/
def execHalt (s : State) : Host.Outcome State Fault Refusal := finish (do
  let f ← read flagsAddr
  write flagsAddr (haltFlags f)
  advance 1
  enter .halted) s

/-- YIELD (R129). -/
def execYield (s : State) : Host.Outcome State Fault Refusal := finish (do
  let f ← read flagsAddr
  write flagsAddr (yieldFlags f)
  advance 1
  enter .waiting) s

/-- DROP (R130). -/
def execDrop (s : State) : Host.Outcome State Fault Refusal := finish (do
  let _ ← pop8
  advance 1) s

/-- DROP16 (R131). -/
def execDrop16 (s : State) : Host.Outcome State Fault Refusal := finish (do
  let _ ← pop16
  advance 1) s

/-- DUP (R132). -/
def execDup (s : State) : Host.Outcome State Fault Refusal := finish (do
  let a ← pop8
  push8 a
  push8 a
  advance 1) s

/-- DUP16 (R133). -/
def execDup16 (s : State) : Host.Outcome State Fault Refusal := finish (do
  let v ← pop16
  push16 v
  push16 v
  advance 1) s

/-- SWAP (R134). -/
def execSwap (s : State) : Host.Outcome State Fault Refusal := finish (do
  let a ← pop8
  let b ← pop8
  push8 a
  push8 b
  advance 1) s

/-- SWAP16 (R135). -/
def execSwap16 (s : State) : Host.Outcome State Fault Refusal := finish (do
  let a ← pop16
  let b ← pop16
  push16 a
  push16 b
  advance 1) s

/-- OVER (R136). -/
def execOver8 (s : State) : Host.Outcome State Fault Refusal := finish (do
  let a ← pop8
  let b ← pop8
  push8 b
  push8 a
  push8 b
  advance 1) s

/-- OVER16 (R137). -/
def execOver16 (s : State) : Host.Outcome State Fault Refusal := finish (do
  let a ← pop16
  let b ← pop16
  push16 b
  push16 a
  push16 b
  advance 1) s

/-- TOR (R138). -/
def execTor (s : State) : Host.Outcome State Fault Refusal := finish (do
  let v ← pop16
  rpush16 v
  advance 1) s

/-- FROMR (R139). -/
def execFromr (s : State) : Host.Outcome State Fault Refusal := finish (do
  let v ← rpop16
  push16 v
  advance 1) s

end Sys2Proof.Machine
end

