-- ==== Sys2Proof/Machine/Dispatch.lean ====
section
/-! DEFINITION. One arm per instruction (spec 30_encoding.md R96). -/

namespace Sys2Proof.Machine

def exec (i : Instr) (s : State) : Host.Outcome State Fault Refusal :=
  match i with
  | .halt => Sys2Proof.Machine.execHalt s
  | .yield => Sys2Proof.Machine.execYield s
  | .drop => Sys2Proof.Machine.execDrop s
  | .drop16 => Sys2Proof.Machine.execDrop16 s
  | .dup => Sys2Proof.Machine.execDup s
  | .dup16 => Sys2Proof.Machine.execDup16 s
  | .swap => Sys2Proof.Machine.execSwap s
  | .swap16 => Sys2Proof.Machine.execSwap16 s
  | .over8 => Sys2Proof.Machine.execOver8 s
  | .over16 => Sys2Proof.Machine.execOver16 s
  | .tor => Sys2Proof.Machine.execTor s
  | .fromr => Sys2Proof.Machine.execFromr s
  | .add => Sys2Proof.Machine.execAdd s
  | .add16 => Sys2Proof.Machine.execAdd16 s
  | .sub => Sys2Proof.Machine.execSub s
  | .sub16 => Sys2Proof.Machine.execSub16 s
  | .mul => Sys2Proof.Machine.execMul s
  | .mul16 => Sys2Proof.Machine.execMul16 s
  | .div => Sys2Proof.Machine.execDiv s
  | .div16 => Sys2Proof.Machine.execDiv16 s
  | .mod => Sys2Proof.Machine.execMod s
  | .mod16 => Sys2Proof.Machine.execMod16 s
  | .and => Sys2Proof.Machine.execAnd s
  | .and16 => Sys2Proof.Machine.execAnd16 s
  | .or => Sys2Proof.Machine.execOr s
  | .or16 => Sys2Proof.Machine.execOr16 s
  | .xor => Sys2Proof.Machine.execXor s
  | .xor16 => Sys2Proof.Machine.execXor16 s
  | .not => Sys2Proof.Machine.execNot s
  | .not16 => Sys2Proof.Machine.execNot16 s
  | .shl => Sys2Proof.Machine.execShl s
  | .shl16 => Sys2Proof.Machine.execShl16 s
  | .shr => Sys2Proof.Machine.execShr s
  | .shr16 => Sys2Proof.Machine.execShr16 s
  | .eq => Sys2Proof.Machine.execEq s
  | .eq16 => Sys2Proof.Machine.execEq16 s
  | .neq => Sys2Proof.Machine.execNeq s
  | .neq16 => Sys2Proof.Machine.execNeq16 s
  | .gt => Sys2Proof.Machine.execGt s
  | .gt16 => Sys2Proof.Machine.execGt16 s
  | .lt => Sys2Proof.Machine.execLt s
  | .lt16 => Sys2Proof.Machine.execLt16 s
  | .jz => Sys2Proof.Machine.execJz s
  | .jnz => Sys2Proof.Machine.execJnz s
  | .call => Sys2Proof.Machine.execCall s
  | .ret => Sys2Proof.Machine.execRet s
  | .push imm => Sys2Proof.Machine.execPush imm s
  | .push16 imm => Sys2Proof.Machine.execPush16 imm s
  | .load => Sys2Proof.Machine.execLoad s
  | .load16 => Sys2Proof.Machine.execLoad16 s
  | .store => Sys2Proof.Machine.execStore s
  | .store16 => Sys2Proof.Machine.execStore16 s

end Sys2Proof.Machine
end

