-- ==== Sys2Proof/Machine/HostPort.lean ====
section
/-! DEFINITION. The host interface: Load, Attach, Run, Stop, SetTrace, Inspect and Kill, the deliveries of messages, and
the placing of one instruction where the next fetch finds it (spec 70_reset_and_hazards.md R280 to R286). -/

namespace Sys2Proof.Machine

/-- Load(image): straight into storage, then the entry vector (R282). -/
def hostLoad (image : List Octet) (s : State) : Host.Outcome State Fault Refusal :=
  if s.runState ≠ .idle then .refused .hostOutsideAllowedState
  else if !imageFits image then .refused .imageTooLong
  else finish (do
    placeOctets imageBase.toNat image
    placeOctets entryHighAddr.toNat [highOctet entryValue, lowOctet entryValue]) s

/-- The device that an attachment puts into a slot, its registers at the values they have before the program writes
them (R262, R283, U10). -/
def attached : DeviceKind → Device
  | .external => .external
  | .terminal => .terminal Config.terminalReset
  | .port ownId => .port { Config.portReset ownId with ownId := ownId }

/-- Attach(slot, device) (R283). -/
def hostAttach (n : BitVec 4) (kind : DeviceKind) (s : State) : Host.Outcome State Fault Refusal :=
  if s.runState ≠ .idle then .refused .hostOutsideAllowedState
  else if s.deviceAt n ≠ none then .refused .slotOccupied
  else .next (s.setDevice n (attached kind))

/-- Run: the entry vector is read through the dispatcher and seeds the program counter (R284). -/
def hostRun (s : State) : Host.Outcome State Fault Refusal :=
  if s.runState ≠ .idle then .refused .hostOutsideAllowedState
  else finish (do
    let v ← readWord entryHighAddr
    jump v
    enter .running) s

/-- Stop: sets the latch and returns at once (R285). -/
def hostStop (s : State) : State := s.setStopReq true

/-- SetTrace(b) (R25, R281). -/
def hostSetTrace (b : Bool) (s : State) : State := s.setTrace b

/-- Kill, toward the block: Stop, after which the host forgets the block (R286). -/
def hostKill (s : State) : State := hostStop s

/-- What the host may read of a core (R75, R281). -/
structure Inspection where
  mem : Memory
  pc : Word
  runState : RunState
  deriving DecidableEq, Repr

/-- Inspect: defined in Idle, Halted and Faulted only (R75, R281, U9). -/
def hostInspect (s : State) : Except Refusal Inspection :=
  match s.runState with
  | .idle | .halted | .faulted => .ok ⟨s.mem, s.pc, s.runState⟩
  | .running | .waiting => .error .hostOutsideAllowedState

/-- A message arrives at the port in slot `n` of this machine, whatever the core is doing (R265). -/
def deliverMessage (n : BitVec 4) (sender signal : Octet) (payload : List Octet) (s : State) :
    Host.Outcome State Fault Refusal :=
  if !payloadFits payload then .refused .payloadTooLong
  else
    match s.deviceAt n with
    | some (.port p) => finish (performDeeds (deliveryDeeds n p sender signal payload)) s
    | _ => .refused .noPortInSlot

/-- One octet sequence placed at IMAGE_BASE with the entry vector pointing to it, and a core that is about to fetch
there: what Load and Run leave, in quiet surroundings, with no stop request and no fault bit that the boundary
check would honour (R233, R282, R284). -/
def stageOctets (octets : List Octet) (s : State) : State :=
  let loaded := ((s.mem.pokeList imageBase.toNat octets).poke entryHighAddr.toNat (highOctet entryValue)).poke
    entryLowAddr.toNat (lowOctet entryValue)
  { s with
    pc := entryValue
    runState := .running
    stopReq := false
    mem := loaded.poke flagsAddr.toNat (haltFlags (loaded.peek flagsAddr.toNat))
    env := { s.env with inputs := [], foreign := [] } }

end Sys2Proof.Machine
end

