-- ==== Sys2Proof/Machine/Cycle.lean ====
section
/-! DEFINITION. The core's cycle: the boundary checks, the fetch, the execution, the acceptance of an interrupt request
while parked, and the inputs that arrive at a boundary
(spec 30_encoding.md R91, 60_exceptions.md R233, R244 to R246). -/

namespace Sys2Proof.Machine

/-- Octets from consecutive addresses, in ascending order, wrapping at the top (R58, R62, R93). -/
def readOctets : Word → Nat → Micro (List Octet)
  | _, 0 => pure []
  | a, n + 1 => do
    let v ← read a
    let rest ← readOctets (a + 1) n
    pure (v :: rest)

/-- Fetch and decode: the opcode octet, then its immediate; an octet that selects no instruction takes ILLEGAL_OP
(R91 to R93, R97). -/
def fetchInstr : Micro Instr := do
  let pc ← fetchOf State.pc
  let op ← read pc
  match immediateOctets op with
  | none => takeFault .illegalOp
  | some n => do
    let imm ← readOctets (pc + 1) n
    match decode (op :: imm) with
    | .ok (i, _) => pure i
    | .error _ => takeFault .illegalOp

/-- One turn of the loop from an instruction boundary in Running: the stop request first, then the fault bits, then
one instruction (R233). -/
def runBoundary (s : State) : Host.Outcome State Fault Refusal :=
  if s.stopReq then .next (s.setRunState .halted)
  else settle ((read flagsAddr).run s) fun f t =>
    if faultPresent f then .next (t.setRunState .faulted)
    else settle (fetchInstr.run t) fun i u => exec i u

/-- One of the waiting requests and the others, by a number that may choose any (R244). -/
def chooseIrq (irqs : List Word) (choice : Nat) : Option (Word × List Word) :=
  match irqs with
  | [] => none
  | [v] => some (v, [])
  | v :: rest =>
    let n := choice % (v :: rest).length
    some ((v :: rest).getD n v, (v :: rest).eraseIdx n)

/-- Parked: nothing happens until a request is there, then one of them is accepted and the core resumes
(R244 to R246). -/
def parked (s : State) : Host.Outcome State Fault Refusal :=
  match chooseIrq s.env.irqs (Config.irqChoice s.env.drawn) with
  | none => .next s
  | some (v, rest) => finish (resume v) (s.setEnv { s.env with irqs := rest, drawn := s.env.drawn + 1 })

/-- The core moves: it executes in Running only, resumes in Waiting only, and does nothing in Idle, Halted and Faulted
(R23, R232, R245, R289). -/
def coreMove (s : State) : Host.Outcome State Fault Refusal :=
  match s.runState with
  | .idle => .next s
  | .running => runBoundary s
  | .waiting => parked s
  | .halted => .next s
  | .faulted => .next s

/-- What an input does (R281, R67, R243, R265). -/
def acceptInput (i : Input) (s : State) : Host.Outcome State Fault Refusal :=
  match i with
  | .core => coreMove s
  | .load image => hostLoad image s
  | .attach n kind => hostAttach n kind s
  | .run => hostRun s
  | .stop => .next (hostStop s)
  | .setTrace b => .next (hostSetTrace b s)
  | .deed d => finish (performDeed d) s
  | .deliver n sender signal payload => deliverMessage n sender signal payload s

/-- One step: the next input of the script, or a move of the core where the script is used up. -/
def machineStep (s : State) : Host.Outcome State Fault Refusal :=
  match s.env.inputs with
  | [] => coreMove s
  | i :: rest => acceptInput i (s.setEnv { s.env with inputs := rest })

end Sys2Proof.Machine
end

