-- ==== Sys2Proof/Machine/Step.lean ====
section
/-! DEFINITION. The step function, and the placing of one instruction where it fetches next. -/

namespace Sys2Proof.Machine

/-- One step of the machine (R233, R281; Machine/Cycle.lean). -/
def step (s : State) : Host.Outcome State Fault Refusal := machineStep s

/-- The state with one instruction, numbered as the opcode table numbers its bits, loaded and started so that the
next step fetches and runs it (notes/assumptions/5.md). -/
def State.withFetchWord (s : State) (nbits w : Nat) : State := stageOctets (tableOctets nbits w) s

end Sys2Proof.Machine
end

