-- ==== Sys2Proof/Safety.lean ====
section
/-! DEFINITION. What counts as a safe run, and the terms in which claims speak of a machine: its stacks as lists, its
FLAGS, what an instruction leaves, and what it leaves alone (spec 70_reset_and_hazards.md R289, 40_stack_system.md). -/

namespace Sys2Proof.Machine

/-! ### Views of the state -/

/-- FLAGS (R7, R26). -/
def State.flags (s : State) : Octet := s.mem.peek flagsAddr.toNat

/-- The depth of a stack: the value of its depth octet (R29, R30). -/
def State.depth (s : State) (k : StackSpec) : Nat := (s.mem.peek k.depthAddr.toNat).toNat

/-- The octets on a stack, slot 0 first: what the examples of the spec write `DS=[..]` and `RS=[..]`. -/
def State.stack (s : State) (k : StackSpec) : List Octet := s.mem.peekList k.base.toNat (s.depth k)

/-- The octets on the data stack. -/
def State.ds (s : State) : List Octet := s.stack dataStack

/-- The octets on the return stack. -/
def State.rs (s : State) : List Octet := s.stack returnStack

/-- The two octets of a word as they lie on a stack and in memory: high octet first (R59). -/
def wordOctets (v : Word) : List Octet := [highOctet v, lowOctet v]

/-- No other agent's act is scripted to fall between the core's coming octet accesses (R70). The laws of single
instructions are stated for such states: what another agent writes into the stacks meanwhile is its own. -/
def State.undisturbed (s : State) : Prop := s.env.foreign = []

/-- The machine with other agents' acts scripted for the coming octet accesses (R70). -/
def State.disturbed (s : State) (foreign : List (List Act)) : State := s.setEnv { s.env with foreign := foreign }

/-- The core is at a boundary that lets it fetch: Running, nothing scripted for the boundary, no stop request, no fault
bit (R233). -/
def State.ready (s : State) : Prop :=
  s.runState = .running ∧ s.env.inputs = [] ∧ s.stopReq = false ∧ faultPresent s.flags = false

/-- A slot and what is in it, by kind. -/
def Device.kind : Device → DeviceKind
  | .external => .external
  | .terminal _ => .terminal
  | .port p => .port p.ownId

/-! ### The end of a run (R289) -/

/-- The run has ended: Halted or Faulted. -/
def State.ended (s : State) : Prop := s.runState = .halted ∨ s.runState = .faulted

/-- The clean end: Halted with no fault bit. -/
def State.cleanEnd (s : State) : Prop := s.runState = .halted ∧ faultPresent s.flags = false

/-- The faulted stop: Faulted, or any state with a fault bit. -/
def State.faultedStop (s : State) : Prop := s.runState = .faulted ∨ faultPresent s.flags = true

/-- A safe state: no fault has stopped the core and none is about to. -/
def State.safe (s : State) : Prop := ¬ s.faultedStop

/-! ### What an instruction leaves, and what it leaves alone -/

/-- Everything but `pc`, `run_state` and the storage octets that `touched` names is as before. -/
structure Kept (s t : State) (touched : Nat → Prop) : Prop where
  stopReq : t.stopReq = s.stopReq
  trace : t.trace = s.trace
  slots : t.slots = s.slots
  env : t.env = s.env
  mem : ∀ a, ¬ touched a → t.mem.peek a = s.mem.peek a

/-- The storage octets that a stack's pops and pushes write: its depth octet, and the slots from depth `low` up to
depth `high`. -/
def stackTouched (k : StackSpec) (low high : Nat) (a : Nat) : Prop :=
  a = k.depthAddr.toNat ∨ k.base.toNat + low ≤ a ∧ a < k.base.toNat + high

/-- The instruction completes in Running with the data stack `below ++ outs` and the given `pc`; besides the data stack's
depth octet and the slots it pushed `outs` into, nothing changes. -/
def Leaves (i : Instr) (s : State) (below outs : List Octet) (pc : Word) : Prop :=
  ∃ t, exec i s = .next t ∧ t.ds = below ++ outs ∧ t.pc = pc ∧ t.runState = s.runState ∧
    Kept s t (stackTouched dataStack below.length (below.length + outs.length))

/-- The instruction takes the fault `c`: Faulted, `pc` still at the instruction, the fault's bit ORed into FLAGS, the
stacks as given, and nothing else changed but the octets that `touched` names (R231, R234). -/
def Traps (i : Instr) (s : State) (c : Cause) (ds rs : List Octet) (touched : Nat → Prop) : Prop :=
  ∃ t, exec i s = .next t ∧ t.runState = .faulted ∧ t.pc = s.pc ∧ t.flags = withFault s.flags c ∧
    t.ds = ds ∧ t.rs = rs ∧ Kept s t fun a => a = flagsAddr.toNat ∨ touched a

/-- An instruction whose pops need `n` octets of the data stack and come first: with fewer it takes DS_UNF, and the pops
that succeeded stay done (R121, R123, R234). -/
def NeedsOctets (i : Instr) (n : Nat) : Prop :=
  ∀ s : State, s.undisturbed → s.depth dataStack < n → Traps i s .dsUnf [] s.rs (stackTouched dataStack 0 0)

/-- An instruction that turns `ins` on top of the data stack into `outs`, its last statement being
`pc <- (pc + length) mod 65536`. Where a push finds the depth at STACK_MAX or more it takes DS_OVF, and the pops and
pushes before it stay done (R120, R122, R234). -/
def Turns (i : Instr) (length : Word) (ins outs : List Octet) : Prop :=
  ∀ (s : State) (below : List Octet), s.undisturbed → s.ds = below ++ ins →
    (below.length + outs.length ≤ stackMax → Leaves i s below outs (s.pc + length)) ∧
    (stackMax < below.length + outs.length →
      Traps i s .dsOvf (below ++ outs.take (stackMax - below.length)) s.rs
        (stackTouched dataStack below.length stackMax))

/-- The address of register `r` of slot `n` (R54). -/
def registerAddr (n r : BitVec 4) : Word := BitVec.ofNat 16 (0x0300 + 16 * n.toNat + r.toNat)

/-- No device answers at `a`: it lies outside the window, or its slot is empty (R52, R56). -/
def NoDevice (s : State) (a : Word) : Prop := inWindow a = true → s.deviceAt (windowSlot a) = none

/-- What `Read(a)` returns of the storage `m` where no device answers (R52, R56). -/
def plainRead (m : Memory) (a : Word) : Octet := if inWindow a then 0x00 else m.peek a.toNat

/-- What `Write(a, v)` makes of the storage `m` where no device answers (R53, R56). -/
def plainWrite (m : Memory) (a : Word) (v : Octet) : Memory := if inWindow a then m else m.poke a.toNat v

/-- The storage once the data stack's depth octet is `d` (R29). -/
def withDepth (m : Memory) (d : Nat) : Memory := m.poke dspAddr.toNat (BitVec.ofNat 8 d)

/-- Everything but `pc`, `run_state` and the storage is as before, and the storage reads as `m` at every address. -/
def Became (s t : State) (m : Memory) : Prop :=
  t.stopReq = s.stopReq ∧ t.trace = s.trace ∧ t.slots = s.slots ∧ t.env = s.env ∧
    ∀ a, t.mem.peek a = m.peek a

/-- The storage `m` once the data stack is `d` octets deep and `outs` is pushed on it (R32). -/
def pushed (m : Memory) (d : Nat) (outs : List Octet) : Memory :=
  withDepth (m.pokeList (dsBase.toNat + d) outs) (d + outs.length)

/-- An external device is attached where `a` points (R52, R55). -/
def External (s : State) (a : Word) : Prop := inWindow a = true ∧ s.deviceAt (windowSlot a) = some .external

/-- `DevRead` of the register that `a` names goes out (R55). -/
def asked (a : Word) : Emission := .registerRead (windowSlot a) (windowRegister a)

/-- `DevWrite` of the register that `a` names goes out (R55). -/
def given (a : Word) (v : Octet) : Emission := .registerWrite (windowSlot a) (windowRegister a) v

/-- The instruction completes in Running, one octet further, with the data stack `ds`, the surroundings `e`, and the
storage reading as `m` at every address; latches and slots are as before. -/
def Exchanges (i : Instr) (s : State) (ds : List Octet) (e : Env) (m : Memory) : Prop :=
  ∃ t, exec i s = .next t ∧ t.ds = ds ∧ t.pc = s.pc + 1 ∧ t.runState = s.runState ∧ t.stopReq = s.stopReq ∧
    t.trace = s.trace ∧ t.slots = s.slots ∧ t.env = e ∧ ∀ a, t.mem.peek a = m.peek a

/-- A parked core has accepted a request and resumed through its vector slot, which lies where no device answers, and
`others` are the requests that keep waiting: nothing is saved, and nothing else has changed (R246, R247). -/
def Resumed (s t : State) (v : Word) (others : List Word) : Prop :=
  t.runState = .running ∧ t.pc = joinOctets (plainRead s.mem v) (plainRead s.mem (v + 1)) ∧
    t.flags = s.flags &&& 0xFE ∧ t.env.irqs = others ∧ t.stopReq = s.stopReq ∧ t.trace = s.trace ∧
    t.slots = s.slots ∧ ∀ a, a ≠ flagsAddr.toNat → t.mem.peek a = s.mem.peek a

/-! ### Whole runs -/

/-- The moves of `run_state` (R23): Idle is left by Run, Running by the core's own doing, Waiting by a resume only, and
Halted and Faulted by nothing. -/
def RunState.next : RunState → RunState → Bool
  | .idle, t => t == .idle || t == .running
  | .running, t => t != .idle
  | .waiting, t => t == .waiting || t == .running
  | .halted, t => t == .halted
  | .faulted, t => t == .faulted

/-- An outcome with the trace latch forgotten. -/
def forgetTrace : Host.Outcome State Fault Refusal → Host.Outcome State Fault Refusal
  | .next s => .next (s.setTrace false)
  | .fault f => .fault f
  | .refused r => .refused r

/-- No script lets another agent or a device write into the storage at the next step: the surroundings only wait. -/
def State.alone (s : State) : Prop := s.env.inputs = [] ∧ s.env.foreign = [] ∧ s.env.replies = []

end Sys2Proof.Machine
end

