-- ==== Sys2Proof/Certificates/Slice0/Obligations.lean ====
section
/-! DEFINITION. The statements for the provers. OBLIGATIONS.json says of each what it states and which rules it rests on. -/

open Sys2Proof Sys2Proof.Machine

/-! ### Encoding -/

/-- Decoding the encoding of a well-formed instruction gives the instruction back and leaves the octets after it. -/
def Obligations.DecodeOfEncode : Prop :=
  ∀ (i : Instr) (rest : List Octet), i.wf = true → decode (encode i ++ rest) = .ok (i, rest)

/-- What decodes to an instruction begins with that instruction's encoding: no octet has a second meaning. -/
def Obligations.EncodeOfDecode : Prop :=
  ∀ (octets rest : List Octet) (i : Instr), decode octets = .ok (i, rest) → octets = encode i ++ rest

/-- A few encodings, written out from the opcode table. -/
def Obligations.SampleEncodings : Prop :=
  decode [0x00] = .ok (.halt, []) ∧ decode [0x0B] = .ok (.fromr, []) ∧ decode [0x25] = .ok (.shr16, []) ∧
  decode [0x4A] = .ok (.call, []) ∧ decode [0x50, 0x41] = .ok (.push 0x41, []) ∧
  decode [0x51, 0x12, 0x34] = .ok (.push16 0x1234, []) ∧ decode [0x55] = .ok (.store16, []) ∧
  decode [0x51, 0x12] = .error (.missingImmediate 0x51) ∧ decode [0x0C] = .error (.illegalOpcode 0x0C)

/-- The illegal opcode octets are those of the four ranges of R97, 204 in all, whatever follows them. Fetching one, from
wherever it is read, takes ILLEGAL_OP; at a boundary that lets the core fetch, that sets FLAGS bit 6 and stops the core
in Faulted, with `pc` at the illegal octet, and changes nothing else. -/
def Obligations.IllegalOpcodesFault : Prop :=
  (∀ (op : Octet) (rest : List Octet), decode (op :: rest) = .error (.illegalOpcode op) ↔
    (0x0C ≤ op.toNat ∧ op.toNat ≤ 0x0F) ∨ (0x26 ≤ op.toNat ∧ op.toNat ≤ 0x3F) ∨
    (0x4C ≤ op.toNat ∧ op.toNat ≤ 0x4F) ∨ 0x56 ≤ op.toNat) ∧
  ((List.range 256).filter fun n => (immediateOctets (BitVec.ofNat 8 n)).isNone).length = 204 ∧
  (∀ (s t : State) (op : Octet), (read s.pc).run s = .ok op t → decode [op] = .error (.illegalOpcode op) →
    fetchInstr.run s = (takeFault .illegalOp).run t) ∧
  ∀ (s : State), s.ready → s.undisturbed → NoDevice s s.pc →
    decode [plainRead s.mem s.pc] = .error (.illegalOpcode (plainRead s.mem s.pc)) →
    ∃ t, step s = .next t ∧ t.runState = .faulted ∧ t.pc = s.pc ∧ t.flags = s.flags ||| 0x40 ∧
      Kept s t fun a => a = flagsAddr.toNat

/-- At a boundary that lets the core fetch, where the octets at `pc` and after it are an instruction's encoding, a step is
the execution of that instruction. In any surroundings it is the execution of the instruction that the fetch reads, from
the state that the fetch leaves, with `pc` still at the opcode. -/
def Obligations.StepRunsTheFetchedInstruction : Prop :=
  (∀ (s : State) (i : Instr), s.ready → s.undisturbed → i.wf = true →
    (∀ k < (encode i).length, NoDevice s (s.pc + BitVec.ofNat 16 k) ∧
      (encode i)[k]? = some (plainRead s.mem (s.pc + BitVec.ofNat 16 k))) →
    fetchInstr.run s = .ok i s ∧ step s = exec i s) ∧
  ∀ (s t u : State) (f : Octet) (i : Instr), s.runState = .running → s.env.inputs = [] → s.stopReq = false →
    (read flagsAddr).run s = .ok f t → faultPresent f = false → fetchInstr.run t = .ok i u →
    step s = exec i u ∧ u.pc = s.pc ∧ u.runState = .running

/-! ### Memory and the dispatcher -/

/-- The address 0x0300 + 16 * S + R is in the window and selects slot S and register R; no other address is in the
window. -/
def Obligations.WindowAddressFields : Prop :=
  (∀ S R : BitVec 4, ∀ a : Word, a.toNat = 0x0300 + 16 * S.toNat + R.toNat →
    inWindow a = true ∧ windowSlot a = S ∧ windowRegister a = R) ∧
  ∀ a : Word, inWindow a = true → ∃ S R : BitVec 4, a.toNat = 0x0300 + 16 * S.toNat + R.toNat

/-- The dispatcher's octet read: a device register where the slot is attached, 0x00 where it is empty, storage
elsewhere. -/
def Obligations.DispatcherRead : Prop :=
  ∀ (s : State) (a : Word), s.undisturbed →
    (a.toNat / 256 ≠ 3 → (read a).run s = .ok (s.mem.peek a.toNat) s) ∧
    (a.toNat / 256 = 3 → s.deviceAt (windowSlot a) = none → (read a).run s = .ok 0x00 s) ∧
    ∀ d, a.toNat / 256 = 3 → s.deviceAt (windowSlot a) = some d →
      (read a).run s = (deviceRead (windowSlot a) d (windowRegister a)).run s

/-- The dispatcher's octet write: a device register where the slot is attached, nothing where it is empty, storage
elsewhere, where it is the one octet that changes. -/
def Obligations.DispatcherWrite : Prop :=
  ∀ (s : State) (a : Word) (v : Octet), s.undisturbed →
    (a.toNat / 256 ≠ 3 → ∃ t, (write a v).run s = .ok () t ∧ t.pc = s.pc ∧ t.runState = s.runState ∧
      t.mem.peek a.toNat = v ∧ Kept s t fun b => b = a.toNat) ∧
    (a.toNat / 256 = 3 → s.deviceAt (windowSlot a) = none → (write a v).run s = .ok () s) ∧
    ∀ d, a.toNat / 256 = 3 → s.deviceAt (windowSlot a) = some d →
      (write a v).run s = (deviceWrite (windowSlot a) d (windowRegister a) v).run s

/-- The bulk-copy port reads and writes storage at every address, the window included, for whoever drives it, and a
transfer past the end of the address space is refused (U7, log entry 10). That what another agent or a device reads goes
out as `copied` is the model's choice (log entry 24). -/
def Obligations.BulkCopyTransfers : Prop :=
  ∀ (s : State) (a : Word) (data : List Octet) (n : Nat), s.undisturbed →
    (a.toNat + data.length ≤ 65536 → ∃ t, (bulkWrite a data).run s = .ok () t ∧ t.pc = s.pc ∧
      t.runState = s.runState ∧ (∀ k < data.length, data[k]? = some (t.mem.peek (a.toNat + k))) ∧
      Kept s t fun b => a.toNat ≤ b ∧ b < a.toNat + data.length) ∧
    (65536 < a.toNat + data.length → (bulkWrite a data).run s = .error (.outside .bulkPastEnd) s) ∧
    (a.toNat + n ≤ 65536 → ∃ out, (bulkRead a n).run s = .ok out s ∧ out.length = n ∧
      (∀ k < n, out[k]? = some (s.mem.peek (a.toNat + k))) ∧
      (performDeed (.bulkRead a n)).run s =
        .ok () (s.setEnv { s.env with emitted := s.env.emitted ++ [.copied a out] })) ∧
    (65536 < a.toNat + n → (bulkRead a n).run s = .error (.outside .bulkPastEnd) s)

/-- A 16-bit value is two ordinary octets, on the data stack and in memory, whichever width wrote it. -/
def Obligations.MixedWidths : Prop :=
  ∀ (s : State) (v : Word) (h l : Octet) (a : Word), s.undisturbed →
    (s.depth dataStack + 2 ≤ stackMax →
      (∃ t u w, (push16 v).run s = .ok () t ∧ pop8.run t = .ok (lowOctet v) u ∧ pop8.run u = .ok (highOctet v) w) ∧
      ∃ t u w, (push8 h).run s = .ok () t ∧ (push8 l).run t = .ok () u ∧ pop16.run u = .ok (joinOctets h l) w) ∧
    (inWindow a = false → inWindow (a + 1) = false →
      ∃ t, (writeWord a v).run s = .ok () t ∧ (read a).run t = .ok (highOctet v) t ∧
        (read (a + 1)).run t = .ok (lowOctet v) t ∧ (readWord a).run t = .ok v t)

/-- The acts that the script puts before an octet access come before it, and what they write is what it sees: before a
read, before a write (overwritten at the same address, beside it at another), inside a push, between the halves of a
16-bit access, between the octets of a bulk transfer, and around the two accesses to FLAGS when a fault is taken. That an octet which
another agent reads goes out as `copied` is the model's choice (log entry 24). -/
def Obligations.ForeignWritesInterleave : Prop :=
  ∀ (s : State) (w : Octet) (rest : List (List Act)),
    (∀ (a : Word) (acts : List Act),
      (read a).run (s.disturbed (acts :: rest)) = (applyActs acts >>= fun _ => route a).run (s.disturbed rest)) ∧
    (∀ (a : Word) (v : Octet) (acts : List Act),
      (write a v).run (s.disturbed (acts :: rest)) = (applyActs acts >>= fun _ => routeWrite a v).run (s.disturbed rest)) ∧
    (∀ a : Word, inWindow a = false →
      ∃ t, (read a).run (s.disturbed ([.octetWrite a w] :: rest)) = .ok w t ∧ t.env.foreign = rest) ∧
    (∀ (a b : Word) (v : Octet), inWindow a = false →
      ∃ t, (write a v).run (s.disturbed ([.octetWrite b w] :: rest)) = .ok () t ∧ t.mem.peek a.toNat = v ∧
        (b ≠ a → t.mem.peek b.toNat = w) ∧
        (∀ k, k ≠ a.toNat → k ≠ b.toNat → t.mem.peek k = s.mem.peek k) ∧ t.env.foreign = rest) ∧
    (∀ v : Octet, s.depth dataStack < 254 →
      ∃ t, (push8 v).run (s.disturbed [[], [], [.octetWrite dspAddr w]]) = .ok () t ∧ t.ds = s.ds ++ [v]) ∧
    (∀ a v : Word, inWindow a = false → inWindow (a + 1) = false →
      (∃ t, (writeWord a v).run (s.disturbed [[], [.octetWrite a w]]) = .ok () t ∧ t.mem.peek a.toNat = w ∧
        t.mem.peek (a + 1).toNat = lowOctet v) ∧
      ∃ t, (readWord a).run (s.disturbed [[], [.octetWrite (a + 1) w]]) = .ok (joinOctets (s.mem.peek a.toNat) w) t) ∧
    (∀ (a : Word) (x y : Octet), a.toNat + 2 ≤ 65536 →
      ∃ t, (bulkWrite a [x, y]).run (s.disturbed [[], [.octetWrite a w, .octetRead a]]) = .ok () t ∧
        t.mem.peek a.toNat = w ∧ t.mem.peek (a.toNat + 1) = y ∧
        t.env.emitted = s.env.emitted ++ [.copied a [w]]) ∧
    ∀ c : Cause,
      (∃ t, (takeFault c : Micro Unit).run (s.disturbed [[.octetWrite flagsAddr w]]) = .error .taken t ∧
        t.flags = withFault w c) ∧
      ∃ t, (takeFault c : Micro Unit).run (s.disturbed [[], [.octetWrite flagsAddr w]]) = .error .taken t ∧
        t.flags = withFault s.flags c

/-- The canonical form of storage, the model's own representation of the flat array (log entry 3), is kept by every step,
whatever the surroundings do. -/
def Obligations.CanonicalStorageKept : Prop :=
  ∀ s t : State, s.mem.wf → step s = .next t → t.mem.wf

/-- Storage is in canonical form, the model's own representation (log entry 3), after reset. -/
def Obligations.CanonicalStorageAtReset : Prop := State.reset.mem.wf

/-- No access of the core reaches the storage octets under the device window, whatever is in the slots. -/
def Obligations.WindowStorageUnreached : Prop :=
  ∀ (s t : State) (a : Nat), s.alone → step s = .next t → 0x0300 ≤ a → a ≤ 0x03FF → t.mem.peek a = s.mem.peek a

/-! ### The stack primitives -/

/-- The octet pushes of both stacks: at depth 0 to 253 the octet goes to the next free slot, at 254 and 255 the overflow
fault is taken and nothing is written but its bit. -/
def Obligations.OctetPushes : Prop :=
  ∀ (k : StackSpec) (s : State) (v : Octet), k = dataStack ∨ k = returnStack → s.undisturbed →
    (s.depth k < 254 → ∃ t, (pushOctet k v).run s = .ok () t ∧ t.stack k = s.stack k ++ [v] ∧ t.pc = s.pc ∧
      t.runState = s.runState ∧ Kept s t fun a => a = k.depthAddr.toNat ∨ a = k.base.toNat + s.depth k) ∧
    (254 ≤ s.depth k → ∃ t, (pushOctet k v).run s = .error .taken t ∧ t.stack k = s.stack k ∧ t.pc = s.pc ∧
      t.runState = .faulted ∧ t.flags = withFault s.flags k.overflow ∧ Kept s t fun a => a = flagsAddr.toNat)

/-- The octet pops of both stacks: at depth 1 to 255 the top octet is returned and only the depth changes, at 0 the
underflow fault is taken and nothing is written but its bit. -/
def Obligations.OctetPops : Prop :=
  ∀ (k : StackSpec) (s : State), k = dataStack ∨ k = returnStack → s.undisturbed →
    (∀ (below : List Octet) (v : Octet), s.stack k = below ++ [v] →
      ∃ t, (popOctet k).run s = .ok v t ∧ t.stack k = below ∧ t.pc = s.pc ∧ t.runState = s.runState ∧
        Kept s t fun a => a = k.depthAddr.toNat) ∧
    (s.stack k = [] → ∃ t, (popOctet k).run s = .error .taken t ∧ t.stack k = [] ∧ t.pc = s.pc ∧
      t.runState = .faulted ∧ t.flags = withFault s.flags k.underflow ∧ Kept s t fun a => a = flagsAddr.toNat)

/-- The 16-bit pushes of both stacks: two octet pushes, high octet in the lower slot; at depth 253 the high octet stays
pushed when the second push faults. -/
def Obligations.WordPushes : Prop :=
  ∀ (k : StackSpec) (s : State) (v : Word), k = dataStack ∨ k = returnStack → s.undisturbed →
    (s.depth k + 2 ≤ 254 → ∃ t, (pushWord k v).run s = .ok () t ∧
      t.stack k = s.stack k ++ [highOctet v, lowOctet v] ∧ t.pc = s.pc ∧ t.runState = s.runState ∧
      Kept s t (stackTouched k (s.depth k) (s.depth k + 2))) ∧
    (s.depth k = 253 → ∃ t, (pushWord k v).run s = .error .taken t ∧ t.stack k = s.stack k ++ [highOctet v] ∧
      t.runState = .faulted ∧ t.pc = s.pc ∧ t.flags = withFault s.flags k.overflow ∧
      Kept s t fun a => a = flagsAddr.toNat ∨ stackTouched k 253 254 a) ∧
    (254 ≤ s.depth k → ∃ t, (pushWord k v).run s = .error .taken t ∧ t.stack k = s.stack k ∧
      t.runState = .faulted ∧ t.pc = s.pc ∧ t.flags = withFault s.flags k.overflow ∧
      Kept s t fun a => a = flagsAddr.toNat)

/-- The 16-bit pops of both stacks: two octet pops, low octet first; at depth 1 the one octet stays popped when the
second pop faults. -/
def Obligations.WordPops : Prop :=
  ∀ (k : StackSpec) (s : State), k = dataStack ∨ k = returnStack → s.undisturbed →
    (∀ (below : List Octet) (h l : Octet), s.stack k = below ++ [h, l] →
      ∃ t, (popWord k).run s = .ok (joinOctets h l) t ∧ t.stack k = below ∧ t.pc = s.pc ∧ t.runState = s.runState ∧
        Kept s t fun a => a = k.depthAddr.toNat) ∧
    (s.depth k < 2 → ∃ t, (popWord k).run s = .error .taken t ∧ t.stack k = [] ∧ t.pc = s.pc ∧
      t.runState = .faulted ∧ t.flags = withFault s.flags k.underflow ∧
      Kept s t fun a => a = flagsAddr.toNat ∨ a = k.depthAddr.toNat)

/-! ### The stack and system family -/

/-- HALT clears bits 7 to 1 of FLAGS, keeps WAITING, advances `pc` and stops the core in Halted. -/
def Obligations.HaltStopsCleanly : Prop :=
  encode .halt = [0x00] ∧
  ∀ s : State, s.undisturbed → ∃ t, exec .halt s = .next t ∧ t.runState = .halted ∧ t.pc = s.pc + 1 ∧
    t.flags = s.flags &&& 0x01 ∧ Kept s t fun a => a = flagsAddr.toNat

/-- YIELD sets WAITING, advances `pc` and parks the core. -/
def Obligations.YieldParks : Prop :=
  encode .yield = [0x01] ∧
  ∀ s : State, s.undisturbed → ∃ t, exec .yield s = .next t ∧ t.runState = .waiting ∧ t.pc = s.pc + 1 ∧
    t.flags = s.flags ||| 0x01 ∧ Kept s t fun a => a = flagsAddr.toNat

/-- DROP, DUP, SWAP and OVER. -/
def Obligations.OctetStackInstructions : Prop :=
  encode .drop = [0x02] ∧ encode .dup = [0x04] ∧ encode .swap = [0x06] ∧ encode .over8 = [0x08] ∧
  NeedsOctets .drop 1 ∧ NeedsOctets .dup 1 ∧ NeedsOctets .swap 2 ∧ NeedsOctets .over8 2 ∧
  ∀ x y : Octet, Turns .drop 1 [x] [] ∧ Turns .dup 1 [x] [x, x] ∧ Turns .swap 1 [x, y] [y, x] ∧
    Turns .over8 1 [x, y] [x, y, x]

/-- DROP16, DUP16, SWAP16 and OVER16. -/
def Obligations.WordStackInstructions : Prop :=
  encode .drop16 = [0x03] ∧ encode .dup16 = [0x05] ∧ encode .swap16 = [0x07] ∧ encode .over16 = [0x09] ∧
  NeedsOctets .drop16 2 ∧ NeedsOctets .dup16 2 ∧ NeedsOctets .swap16 4 ∧ NeedsOctets .over16 4 ∧
  ∀ v w : Word,
    Turns .drop16 1 (wordOctets w) [] ∧
    Turns .dup16 1 (wordOctets w) (wordOctets w ++ wordOctets w) ∧
    Turns .swap16 1 (wordOctets v ++ wordOctets w) (wordOctets w ++ wordOctets v) ∧
    Turns .over16 1 (wordOctets v ++ wordOctets w) (wordOctets v ++ wordOctets w ++ wordOctets v)

/-- TOR moves a 16-bit value from the data stack to the return stack. -/
def Obligations.TorMovesToReturnStack : Prop :=
  encode .tor = [0x0A] ∧ NeedsOctets .tor 2 ∧
  ∀ (s : State) (below : List Octet) (w : Word), s.undisturbed → s.ds = below ++ wordOctets w →
    (s.depth returnStack + 2 ≤ stackMax → ∃ t, exec .tor s = .next t ∧ t.ds = below ∧ t.rs = s.rs ++ wordOctets w ∧
      t.pc = s.pc + 1 ∧ t.runState = s.runState ∧
      Kept s t fun a => a = dspAddr.toNat ∨
        stackTouched returnStack (s.depth returnStack) (s.depth returnStack + 2) a) ∧
    (stackMax < s.depth returnStack + 2 →
      Traps .tor s .rsOvf below (s.rs ++ (wordOctets w).take (stackMax - s.depth returnStack)) fun a =>
        a = dspAddr.toNat ∨ stackTouched returnStack (s.depth returnStack) stackMax a)

/-- FROMR moves a 16-bit value from the return stack to the data stack. -/
def Obligations.FromrMovesToDataStack : Prop :=
  encode .fromr = [0x0B] ∧
  (∀ s : State, s.undisturbed → s.depth returnStack < 2 →
    Traps .fromr s .rsUnf s.ds [] (stackTouched returnStack 0 0)) ∧
  ∀ (s : State) (below : List Octet) (w : Word), s.undisturbed → s.rs = below ++ wordOctets w →
    (s.depth dataStack + 2 ≤ stackMax → ∃ t, exec .fromr s = .next t ∧ t.ds = s.ds ++ wordOctets w ∧ t.rs = below ∧
      t.pc = s.pc + 1 ∧ t.runState = s.runState ∧
      Kept s t fun a => a = rspAddr.toNat ∨ stackTouched dataStack (s.depth dataStack) (s.depth dataStack + 2) a) ∧
    (stackMax < s.depth dataStack + 2 →
      Traps .fromr s .dsOvf (s.ds ++ (wordOctets w).take (stackMax - s.depth dataStack)) below fun a =>
        a = rspAddr.toNat ∨ stackTouched dataStack (s.depth dataStack) stackMax a)

/-! ### The arithmetic, logic and shift family -/

/-- ADD, SUB and MUL: the exact unsigned result cut to 8 bits. -/
def Obligations.OctetArithmetic : Prop :=
  encode .add = [0x10] ∧ encode .sub = [0x12] ∧ encode .mul = [0x14] ∧
  NeedsOctets .add 2 ∧ NeedsOctets .sub 2 ∧ NeedsOctets .mul 2 ∧
  ∀ b a : Octet,
    Turns .add 1 [b, a] [BitVec.ofNat 8 (b.toNat + a.toNat)] ∧
    Turns .sub 1 [b, a] [BitVec.ofInt 8 ((b.toNat : Int) - (a.toNat : Int))] ∧
    Turns .mul 1 [b, a] [BitVec.ofNat 8 (b.toNat * a.toNat)]

/-- ADD16, SUB16 and MUL16: the exact unsigned result cut to 16 bits. -/
def Obligations.WordArithmetic : Prop :=
  encode .add16 = [0x11] ∧ encode .sub16 = [0x13] ∧ encode .mul16 = [0x15] ∧
  NeedsOctets .add16 4 ∧ NeedsOctets .sub16 4 ∧ NeedsOctets .mul16 4 ∧
  ∀ b a : Word,
    Turns .add16 1 (wordOctets b ++ wordOctets a) (wordOctets (BitVec.ofNat 16 (b.toNat + a.toNat))) ∧
    Turns .sub16 1 (wordOctets b ++ wordOctets a)
      (wordOctets (BitVec.ofInt 16 ((b.toNat : Int) - (a.toNat : Int)))) ∧
    Turns .mul16 1 (wordOctets b ++ wordOctets a) (wordOctets (BitVec.ofNat 16 (b.toNat * a.toNat)))

/-- DIV and MOD: the quotient and the remainder of the unsigned division; a divisor 0 takes DIV0 with both operands
popped and nothing pushed, and is looked at only after both pops. -/
def Obligations.OctetDivision : Prop :=
  encode .div = [0x16] ∧ encode .mod = [0x18] ∧ NeedsOctets .div 2 ∧ NeedsOctets .mod 2 ∧
  (∀ (b a : Octet) (q r : Nat), b.toNat = q * a.toNat + r → r < a.toNat →
    Turns .div 1 [b, a] [BitVec.ofNat 8 q] ∧ Turns .mod 1 [b, a] [BitVec.ofNat 8 r]) ∧
  ∀ (s : State) (below : List Octet) (b : Octet), s.undisturbed → s.ds = below ++ [b, 0x00] →
    Traps .div s .div0 below s.rs (stackTouched dataStack 0 0) ∧
    Traps .mod s .div0 below s.rs (stackTouched dataStack 0 0)

/-- DIV16 and MOD16. -/
def Obligations.WordDivision : Prop :=
  encode .div16 = [0x17] ∧ encode .mod16 = [0x19] ∧ NeedsOctets .div16 4 ∧ NeedsOctets .mod16 4 ∧
  (∀ (b a : Word) (q r : Nat), b.toNat = q * a.toNat + r → r < a.toNat →
    Turns .div16 1 (wordOctets b ++ wordOctets a) (wordOctets (BitVec.ofNat 16 q)) ∧
    Turns .mod16 1 (wordOctets b ++ wordOctets a) (wordOctets (BitVec.ofNat 16 r))) ∧
  ∀ (s : State) (below : List Octet) (b : Word), s.undisturbed → s.ds = below ++ wordOctets b ++ [0x00, 0x00] →
    Traps .div16 s .div0 below s.rs (stackTouched dataStack 0 0) ∧
    Traps .mod16 s .div0 below s.rs (stackTouched dataStack 0 0)

/-- AND, OR, XOR and NOT on octets. -/
def Obligations.OctetLogic : Prop :=
  encode .and = [0x1A] ∧ encode .or = [0x1C] ∧ encode .xor = [0x1E] ∧ encode .not = [0x20] ∧
  NeedsOctets .and 2 ∧ NeedsOctets .or 2 ∧ NeedsOctets .xor 2 ∧ NeedsOctets .not 1 ∧
  ∀ b a : Octet,
    Turns .and 1 [b, a] [b &&& a] ∧ Turns .or 1 [b, a] [b ||| a] ∧ Turns .xor 1 [b, a] [b ^^^ a] ∧
    Turns .not 1 [a] [~~~a]

/-- AND16, OR16, XOR16 and NOT16. -/
def Obligations.WordLogic : Prop :=
  encode .and16 = [0x1B] ∧ encode .or16 = [0x1D] ∧ encode .xor16 = [0x1F] ∧ encode .not16 = [0x21] ∧
  NeedsOctets .and16 4 ∧ NeedsOctets .or16 4 ∧ NeedsOctets .xor16 4 ∧ NeedsOctets .not16 2 ∧
  ∀ b a : Word,
    Turns .and16 1 (wordOctets b ++ wordOctets a) (wordOctets (b &&& a)) ∧
    Turns .or16 1 (wordOctets b ++ wordOctets a) (wordOctets (b ||| a)) ∧
    Turns .xor16 1 (wordOctets b ++ wordOctets a) (wordOctets (b ^^^ a)) ∧
    Turns .not16 1 (wordOctets a) (wordOctets (~~~a))

/-- SHL, SHR, SHL16 and SHR16: the amount is one octet, taken whole; the exact result is cut to the width. -/
def Obligations.Shifts : Prop :=
  encode .shl = [0x22] ∧ encode .shl16 = [0x23] ∧ encode .shr = [0x24] ∧ encode .shr16 = [0x25] ∧
  NeedsOctets .shl 2 ∧ NeedsOctets .shl16 3 ∧ NeedsOctets .shr 2 ∧ NeedsOctets .shr16 3 ∧
  ∀ (b a : Octet) (w : Word),
    Turns .shl 1 [b, a] [BitVec.ofNat 8 (b.toNat * 2 ^ a.toNat)] ∧
    Turns .shl16 1 (wordOctets w ++ [a]) (wordOctets (BitVec.ofNat 16 (w.toNat * 2 ^ a.toNat))) ∧
    Turns .shr 1 [b, a] [BitVec.ofNat 8 (b.toNat / 2 ^ a.toNat)] ∧
    Turns .shr16 1 (wordOctets w ++ [a]) (wordOctets (BitVec.ofNat 16 (w.toNat / 2 ^ a.toNat)))

/-! ### The comparison and control family -/

/-- EQ, NEQ, GT and LT on octets: the result is 0x01 or 0x00. -/
def Obligations.OctetComparisons : Prop :=
  encode .eq = [0x40] ∧ encode .neq = [0x42] ∧ encode .gt = [0x44] ∧ encode .lt = [0x46] ∧
  NeedsOctets .eq 2 ∧ NeedsOctets .neq 2 ∧ NeedsOctets .gt 2 ∧ NeedsOctets .lt 2 ∧
  ∀ b a : Octet,
    Turns .eq 1 [b, a] [if b.toNat = a.toNat then 0x01 else 0x00] ∧
    Turns .neq 1 [b, a] [if b.toNat = a.toNat then 0x00 else 0x01] ∧
    Turns .gt 1 [b, a] [if a.toNat < b.toNat then 0x01 else 0x00] ∧
    Turns .lt 1 [b, a] [if b.toNat < a.toNat then 0x01 else 0x00]

/-- EQ16, NEQ16, GT16 and LT16: the result is one octet. -/
def Obligations.WordComparisons : Prop :=
  encode .eq16 = [0x41] ∧ encode .neq16 = [0x43] ∧ encode .gt16 = [0x45] ∧ encode .lt16 = [0x47] ∧
  NeedsOctets .eq16 4 ∧ NeedsOctets .neq16 4 ∧ NeedsOctets .gt16 4 ∧ NeedsOctets .lt16 4 ∧
  ∀ b a : Word,
    Turns .eq16 1 (wordOctets b ++ wordOctets a) [if b.toNat = a.toNat then 0x01 else 0x00] ∧
    Turns .neq16 1 (wordOctets b ++ wordOctets a) [if b.toNat = a.toNat then 0x00 else 0x01] ∧
    Turns .gt16 1 (wordOctets b ++ wordOctets a) [if a.toNat < b.toNat then 0x01 else 0x00] ∧
    Turns .lt16 1 (wordOctets b ++ wordOctets a) [if b.toNat < a.toNat then 0x01 else 0x00]

/-- JZ and JNZ pop the condition and the target, and jump or fall through; any nonzero octet is not zero. -/
def Obligations.ConditionalJumps : Prop :=
  encode .jz = [0x48] ∧ encode .jnz = [0x49] ∧ NeedsOctets .jz 3 ∧ NeedsOctets .jnz 3 ∧
  ∀ (s : State) (below : List Octet) (t : Word) (c : Octet), s.undisturbed → s.ds = below ++ wordOctets t ++ [c] →
    Leaves .jz s below [] (if c.toNat = 0 then t else s.pc + 1) ∧
    Leaves .jnz s below [] (if c.toNat = 0 then s.pc + 1 else t)

/-- CALL pops the target, pushes the address after itself on the return stack, and jumps. -/
def Obligations.CallTransfers : Prop :=
  encode .call = [0x4A] ∧ NeedsOctets .call 2 ∧
  ∀ (s : State) (below : List Octet) (target : Word), s.undisturbed → s.ds = below ++ wordOctets target →
    (s.depth returnStack + 2 ≤ stackMax → ∃ t, exec .call s = .next t ∧ t.ds = below ∧
      t.rs = s.rs ++ wordOctets (s.pc + 1) ∧ t.pc = target ∧ t.runState = s.runState ∧
      Kept s t fun a => a = dspAddr.toNat ∨
        stackTouched returnStack (s.depth returnStack) (s.depth returnStack + 2) a) ∧
    (stackMax < s.depth returnStack + 2 →
      Traps .call s .rsOvf below (s.rs ++ (wordOctets (s.pc + 1)).take (stackMax - s.depth returnStack)) fun a =>
        a = dspAddr.toNat ∨ stackTouched returnStack (s.depth returnStack) stackMax a)

/-- RET pops the return stack into `pc`. -/
def Obligations.RetTransfers : Prop :=
  encode .ret = [0x4B] ∧
  (∀ s : State, s.undisturbed → s.depth returnStack < 2 →
    Traps .ret s .rsUnf s.ds [] (stackTouched returnStack 0 0)) ∧
  ∀ (s : State) (below : List Octet) (target : Word), s.undisturbed → s.rs = below ++ wordOctets target →
    ∃ t, exec .ret s = .next t ∧ t.ds = s.ds ∧ t.rs = below ∧ t.pc = target ∧ t.runState = s.runState ∧
      Kept s t fun a => a = rspAddr.toNat

/-! ### The literal and memory family -/

/-- PUSH and PUSH16 push their immediate and advance `pc` by their whole length. -/
def Obligations.Literals : Prop :=
  (∀ v : Octet, encode (.push v) = [0x50, v] ∧ Turns (.push v) 2 [] [v]) ∧
  ∀ w : Word, encode (.push16 w) = [0x51, highOctet w, lowOctet w] ∧ Turns (.push16 w) 3 [] (wordOctets w)

/-- LOAD pushes the octet at the popped address, as storage stands after the pops; 0x00 from an empty slot. -/
def Obligations.LoadReadsOneOctet : Prop :=
  encode .load = [0x52] ∧ NeedsOctets .load 2 ∧
  ∀ (s : State) (below : List Octet) (a : Word), s.undisturbed → s.ds = below ++ wordOctets a → NoDevice s a →
    Leaves .load s below [plainRead (withDepth s.mem below.length) a] (s.pc + 1)

/-- LOAD16 pushes the octet at the popped address, and then the octet after it, as storage stands after the first
push; with a stored depth of 255 the second push faults. -/
def Obligations.Load16ReadsTwoOctets : Prop :=
  encode .load16 = [0x53] ∧ NeedsOctets .load16 2 ∧
  ∀ (s : State) (below : List Octet) (a : Word) (x0 x1 : Octet), s.undisturbed → s.ds = below ++ wordOctets a →
    NoDevice s a → NoDevice s (a + 1) →
    x0 = plainRead (withDepth s.mem below.length) a →
    x1 = plainRead (withDepth (s.mem.poke (dsBase.toNat + below.length) x0) (below.length + 1)) (a + 1) →
    (below.length + 2 ≤ stackMax → Leaves .load16 s below [x0, x1] (s.pc + 1)) ∧
    (stackMax < below.length + 2 →
      Traps .load16 s .dsOvf (below ++ [x0]) s.rs (stackTouched dataStack below.length stackMax))

/-- STORE writes the octet under the address to the popped address, after the pops; an empty slot drops it. -/
def Obligations.StoreWritesOneOctet : Prop :=
  encode .store = [0x54] ∧ NeedsOctets .store 3 ∧
  ∀ (s : State) (below : List Octet) (v : Octet) (a : Word), s.undisturbed → s.ds = below ++ [v] ++ wordOctets a →
    NoDevice s a →
    ∃ t, exec .store s = .next t ∧ t.pc = s.pc + 1 ∧ t.runState = s.runState ∧
      Became s t (plainWrite (withDepth s.mem below.length) a v)

/-- STORE16 writes the word under the address big-endian, high octet first; at 0xFFFF the low octet goes to 0x0000. -/
def Obligations.Store16WritesTwoOctets : Prop :=
  encode .store16 = [0x55] ∧ NeedsOctets .store16 4 ∧
  ∀ (s : State) (below : List Octet) (v a : Word), s.undisturbed → s.ds = below ++ wordOctets v ++ wordOctets a →
    NoDevice s a → NoDevice s (a + 1) →
    ∃ t, exec .store16 s = .next t ∧ t.pc = s.pc + 1 ∧ t.runState = s.runState ∧
      Became s t (plainWrite (plainWrite (withDepth s.mem below.length) a (highOctet v)) (a + 1) (lowOctet v))

/-! ### Devices -/

/-- LOAD and STORE at an external device ask it for the register, or give it the octet, and complete when it returns,
with the octet it returns; what it does before it returns, through the bulk-copy port and by a request, is done then.
The two octets of a LOAD16 and of a STORE16 are routed apart: either may go to a device and the other to storage or to
an empty slot. Three things in it are the model's choices: that a device which never returns makes `exec` answer the fault
`deviceNeverReturns`, where the spec says that the core hangs (log entry 8); that a device may make a request of this
machine and still let the access return, the request waiting for the core (log entry 22; by R241 and U1 a requester
waits); and that the octets a device reads go out as `copied` (log entry 24). -/
def Obligations.ExternalDeviceAccess : Prop :=
  ∀ (s : State) (below : List Octet) (v x y : Octet) (a w : Word) (rest : List Reply), s.undisturbed →
    (External s a → s.ds = below ++ wordOctets a →
      (s.env.replies = ⟨[], some x⟩ :: rest → Exchanges .load s (below ++ [x])
        { s.env with replies := rest, emitted := s.env.emitted ++ [asked a] } (pushed s.mem below.length [x])) ∧
      (s.env.replies = ⟨[], none⟩ :: rest → exec .load s = .fault .deviceNeverReturns)) ∧
    (External s a → s.ds = below ++ [v] ++ wordOctets a →
      (s.env.replies = ⟨[], some x⟩ :: rest → Exchanges .store s below
        { s.env with replies := rest, emitted := s.env.emitted ++ [given a v] } (pushed s.mem below.length [])) ∧
      (s.env.replies = ⟨[], none⟩ :: rest → exec .store s = .fault .deviceNeverReturns)) ∧
    (∀ (b c q : Word) (data : List Octet) (n : Nat), External s a → 0x0200 ≤ b.toNat →
      b.toNat + data.length ≤ 65536 → c.toNat + n ≤ 65536 →
      s.env.replies = ⟨[.bulkWrite b data, .bulkRead c n, .irqRequest q], some x⟩ :: rest →
      (s.ds = below ++ wordOctets a → Exchanges .load s (below ++ [x])
        { s.env with
          replies := rest
          irqs := s.env.irqs ++ [q]
          emitted := s.env.emitted ++
            [asked a, .copied c (((pushed s.mem below.length []).pokeList b.toNat data).peekList c.toNat n)] }
        (pushed (s.mem.pokeList b.toNat data) below.length [x])) ∧
      (s.ds = below ++ [v] ++ wordOctets a → Exchanges .store s below
        { s.env with
          replies := rest
          irqs := s.env.irqs ++ [q]
          emitted := s.env.emitted ++
            [given a v, .copied c (((pushed s.mem below.length []).pokeList b.toNat data).peekList c.toNat n)] }
        ((pushed s.mem below.length []).pokeList b.toNat data))) ∧
    (s.ds = below ++ wordOctets a → below.length + 2 ≤ stackMax →
      (External s a → External s (a + 1) → s.env.replies = ⟨[], some x⟩ :: ⟨[], some y⟩ :: rest →
        Exchanges .load16 s (below ++ [x, y])
          { s.env with replies := rest, emitted := s.env.emitted ++ [asked a, asked (a + 1)] }
          (pushed s.mem below.length [x, y])) ∧
      (External s a → NoDevice s (a + 1) → s.env.replies = ⟨[], some x⟩ :: rest →
        Exchanges .load16 s (below ++ [x, plainRead s.mem (a + 1)])
          { s.env with replies := rest, emitted := s.env.emitted ++ [asked a] }
          (pushed s.mem below.length [x, plainRead s.mem (a + 1)])) ∧
      (NoDevice s a → External s (a + 1) → s.env.replies = ⟨[], some x⟩ :: rest →
        Exchanges .load16 s (below ++ [plainRead s.mem a, x])
          { s.env with replies := rest, emitted := s.env.emitted ++ [asked (a + 1)] }
          (pushed s.mem below.length [plainRead s.mem a, x]))) ∧
    (s.ds = below ++ wordOctets w ++ wordOctets a →
      (External s a → External s (a + 1) → s.env.replies = ⟨[], some x⟩ :: ⟨[], some y⟩ :: rest →
        Exchanges .store16 s below
          { s.env with
            replies := rest
            emitted := s.env.emitted ++ [given a (highOctet w), given (a + 1) (lowOctet w)] }
          (pushed s.mem below.length [])) ∧
      (External s a → NoDevice s (a + 1) → s.env.replies = ⟨[], some x⟩ :: rest →
        Exchanges .store16 s below
          { s.env with replies := rest, emitted := s.env.emitted ++ [given a (highOctet w)] }
          (plainWrite (pushed s.mem below.length []) (a + 1) (lowOctet w))) ∧
      (NoDevice s a → External s (a + 1) → s.env.replies = ⟨[], some x⟩ :: rest →
        Exchanges .store16 s below
          { s.env with replies := rest, emitted := s.env.emitted ++ [given (a + 1) (lowOctet w)] }
          (plainWrite (pushed s.mem below.length []) a (highOctet w))))

/-- A Terminal: register 0 reads as its constant, and that such a read changes nothing is the model's choice (log entry
15); writes of registers 1 to 3 set the payload's address and length; a write of register 4 emits the memory range they
name, read through the bulk-copy port, and changes nothing else. -/
def Obligations.TerminalRegisters : Prop :=
  ∀ (s : State) (n : BitVec 4) (t : Terminal) (v : Octet), s.undisturbed → s.deviceAt n = some (.terminal t) →
    (read (registerAddr n 0)).run s = .ok Config.deviceTypeTerminal s ∧
    (write (registerAddr n 1) v).run s = .ok () (s.setDevice n (.terminal { t with addrHigh := v })) ∧
    (write (registerAddr n 2) v).run s = .ok () (s.setDevice n (.terminal { t with addrLow := v })) ∧
    (write (registerAddr n 3) v).run s = .ok () (s.setDevice n (.terminal { t with length := v })) ∧
    ((joinOctets t.addrHigh t.addrLow).toNat + t.length.toNat ≤ 65536 →
      (write (registerAddr n 4) v).run s = .ok () (s.setEnv { s.env with
        emitted := s.env.emitted ++
          [.text (s.mem.peekList (joinOctets t.addrHigh t.addrLow).toNat t.length.toNat)] }))

/-- A Switch port: which register reads as what, and which write sets what; register 15 has no effect. That a read changes
nothing is the model's choice (log entry 15). What a write of a read-only register does to the port is open (U3), but it
does nothing else, and the port's id stays. -/
def Obligations.PortRegisters : Prop :=
  ∀ (s : State) (n : BitVec 4) (p : Port) (v : Octet), s.undisturbed → s.deviceAt n = some (.port p) →
    (read (registerAddr n 0)).run s = .ok Config.deviceTypeSwitch s ∧
    (read (registerAddr n 1)).run s = .ok p.ownId s ∧
    (read (registerAddr n 3)).run s = .ok p.lastSender s ∧
    (read (registerAddr n 5)).run s = .ok p.signalIn s ∧
    (read (registerAddr n 14)).run s = .ok p.lengthIn s ∧
    (write (registerAddr n 2) v).run s = .ok () (s.setDevice n (.port { p with dest := v })) ∧
    (write (registerAddr n 4) v).run s = .ok () (s.setDevice n (.port { p with signalOut := v })) ∧
    (write (registerAddr n 6) v).run s = .ok () (s.setDevice n (.port { p with lengthOut := v })) ∧
    (write (registerAddr n 7) v).run s = .ok () (s.setDevice n (.port { p with addrHigh := v })) ∧
    (write (registerAddr n 8) v).run s = .ok () (s.setDevice n (.port { p with addrLow := v })) ∧
    (write (registerAddr n 9) v).run s = .ok () (s.setDevice n (.port { p with bufferHigh := v })) ∧
    (write (registerAddr n 10) v).run s = .ok () (s.setDevice n (.port { p with bufferLow := v })) ∧
    (write (registerAddr n 11) v).run s = .ok () (s.setDevice n (.port { p with vectorHigh := v })) ∧
    (write (registerAddr n 12) v).run s = .ok () (s.setDevice n (.port { p with vectorLow := v })) ∧
    (write (registerAddr n 15) v).run s = .ok () s ∧
    ∀ r : BitVec 4, r ∈ [0, 1, 3, 5, 14] →
      ∃ q : Port, q.ownId = p.ownId ∧ (write (registerAddr n r) v).run s = .ok () (s.setDevice n (.port q))

/-- A write of a port's send trigger gives the payload that registers 6 to 8 name, read from storage, to the routing; it
completes when the routing returns, never completes when the routing never returns, and deadlocks on a send to the
port's own id. These outcomes are the model's: the script of replies says whether the routing returns, and nothing else
changes (log entry 16); a routing that never returns is the fault `deviceNeverReturns` (log entry 8), and a send to the
own id the fault `selfSendDeadlock` (log entry 9). -/
def Obligations.PortSends : Prop :=
  ∀ (s : State) (n : BitVec 4) (p : Port) (v x : Octet) (rest : List Reply), s.undisturbed →
    s.deviceAt n = some (.port p) → (joinOctets p.addrHigh p.addrLow).toNat + p.lengthOut.toNat ≤ 65536 →
    (p.dest ≠ p.ownId → s.env.replies = ⟨[], some x⟩ :: rest →
      (write (registerAddr n 13) v).run s = .ok () (s.setEnv { s.env with
        replies := rest
        emitted := s.env.emitted ++ [.message p.ownId p.dest p.signalOut
          (s.mem.peekList (joinOctets p.addrHigh p.addrLow).toNat p.lengthOut.toNat)] })) ∧
    (p.dest ≠ p.ownId → s.env.replies = ⟨[], none⟩ :: rest →
      ∃ t, (write (registerAddr n 13) v).run s = .error (.stuck .deviceNeverReturns) t) ∧
    (p.dest = p.ownId → ∃ t, (write (registerAddr n 13) v).run s = .error (.stuck .selfSendDeadlock) t)

/-- A delivered message is copied to the receive buffer, the port records sender, signal and length, and a request waits
at the core with the vector-slot address that registers 11 and 12 hold, the model's choice for the parameter of D28 (log
entry 14); the core itself is not touched. -/
def Obligations.MessageDelivery : Prop :=
  ∀ (s : State) (n : BitVec 4) (p : Port) (sender signal : Octet) (payload : List Octet) (later : List Input),
    s.env.inputs = .deliver n sender signal payload :: later → s.undisturbed → s.deviceAt n = some (.port p) →
    payload.length ≤ 255 → (joinOctets p.bufferHigh p.bufferLow).toNat + payload.length ≤ 65536 →
    ∃ t, step s = .next t ∧ t.pc = s.pc ∧ t.runState = s.runState ∧ t.stopReq = s.stopReq ∧ t.trace = s.trace ∧
      (∀ k < payload.length,
        payload[k]? = some (t.mem.peek ((joinOctets p.bufferHigh p.bufferLow).toNat + k))) ∧
      (∀ b, ¬((joinOctets p.bufferHigh p.bufferLow).toNat ≤ b ∧
        b < (joinOctets p.bufferHigh p.bufferLow).toNat + payload.length) → t.mem.peek b = s.mem.peek b) ∧
      (∃ q, t.deviceAt n = some (.port q) ∧ q.lastSender = sender ∧ q.signalIn = signal ∧
        q.lengthIn.toNat = payload.length ∧ received p q.lastSender q.signalIn q.lengthIn = q) ∧
      (∀ k, k ≠ n → t.deviceAt k = s.deviceAt k) ∧
      t.env = { s.env with inputs := later, irqs := s.env.irqs ++ [joinOctets p.vectorHigh p.vectorLow] }

/-! ### Faults and the boundary -/

/-- The six faults have the FLAGS bits of the table. Taking one ORs its bit into FLAGS, stops the core in Faulted, aborts
what stands after it, and changes nothing else. -/
def Obligations.FaultEntry : Prop :=
  causeMask .dsOvf = 0x02 ∧ causeMask .dsUnf = 0x04 ∧ causeMask .rsOvf = 0x08 ∧ causeMask .rsUnf = 0x10 ∧
  causeMask .div0 = 0x20 ∧ causeMask .illegalOp = 0x40 ∧
  ∀ (c : Cause) (s : State), s.undisturbed →
    ∃ t, (∀ after : Micro Unit, (takeFault c >>= fun _ : Unit => after).run s = .error .taken t) ∧
      t.runState = .faulted ∧ t.pc = s.pc ∧ t.flags = s.flags ||| causeMask c ∧ Kept s t fun a => a = flagsAddr.toNat

/-- Whatever the surroundings do, an instruction that ends in Faulted has left `pc` where it was and a fault bit in
FLAGS. -/
def Obligations.FaultsKeepPcAndBit : Prop :=
  ∀ (i : Instr) (s t : State), s.runState = .running → exec i s = .next t → t.runState = .faulted →
    t.pc = s.pc ∧ faultPresent t.flags = true

/-- Whatever the surroundings do, an instruction ends in Running or Faulted, but for HALT in Halted and YIELD in
Waiting; and it leaves the host's two latches alone. -/
def Obligations.InstructionRunStates : Prop :=
  ∀ (i : Instr) (s t : State), s.runState = .running → exec i s = .next t →
    t.stopReq = s.stopReq ∧ t.trace = s.trace ∧
    (i = .halt → t.runState = .halted) ∧ (i = .yield → t.runState = .waiting) ∧
    (i ≠ .halt → i ≠ .yield → t.runState = .running ∨ t.runState = .faulted)

/-- The instruction boundary: the stop request before the fault bits, the fault bits before the fetch. -/
def Obligations.BoundaryChecks : Prop :=
  ∀ s : State, s.runState = .running → s.env.inputs = [] →
    (s.stopReq = true → step s = .next (s.setRunState .halted)) ∧
    ∀ (f : Octet) (t : State), s.stopReq = false → (read flagsAddr).run s = .ok f t →
      (f &&& 0xFE ≠ 0 → step s = .next (t.setRunState .faulted)) ∧
      (f &&& 0xFE = 0 → ∀ (i : Instr) (u : State), fetchInstr.run t = .ok i u → step s = exec i u)

/-- Every step moves `run_state` along the arrows of the state machine, whatever input arrives, and a core leaves Waiting
only where a request was waiting for it. -/
def Obligations.RunStateGraph : Prop :=
  ∀ s t : State, step s = .next t →
    RunState.next s.runState t.runState = true ∧
    (s.runState = .waiting → t.runState ≠ .waiting → s.env.irqs ≠ [])

/-! ### Interrupts -/

/-- A parked core with one request resumes at the address stored at the vector slot, clears WAITING, runs, saves nothing
and changes nothing else; the request is gone. -/
def Obligations.ResumeThroughVectorSlot : Prop :=
  ∀ (s : State) (v : Word), s.runState = .waiting → s.env.inputs = [] → s.undisturbed → s.env.irqs = [v] →
    NoDevice s v → NoDevice s (v + 1) → ∃ t, step s = .next t ∧ Resumed s t v []

/-- A step of a parked core for which requests wait accepts exactly one of them, resumes through its vector slot, and the
others keep waiting. It is the one that the free choice `Config.irqChoice` names (log entry 7), and any of them can be
named. With no request the step answers the same state, which is the model's choice of what such a step is (log entry
12). -/
def Obligations.AnyRequestMayBeAccepted : Prop :=
  (∀ s : State, s.runState = .waiting → s.env.inputs = [] → s.undisturbed → s.env.irqs ≠ [] →
    (∀ v ∈ s.env.irqs, NoDevice s v ∧ NoDevice s (v + 1)) →
    ∃ t v, step s = .next t ∧ (v :: t.env.irqs).Perm s.env.irqs ∧ Resumed s t v t.env.irqs) ∧
  (∀ (s : State) (k : Nat) (h : k < s.env.irqs.length), s.runState = .waiting → s.env.inputs = [] → s.undisturbed →
    Config.irqChoice s.env.drawn % s.env.irqs.length = k →
    NoDevice s s.env.irqs[k] → NoDevice s (s.env.irqs[k] + 1) →
    ∃ t, step s = .next t ∧ Resumed s t s.env.irqs[k] (s.env.irqs.eraseIdx k)) ∧
  (∀ (irqs : List Word) (k : Nat) (h : k < irqs.length), chooseIrq irqs k = some (irqs[k], irqs.eraseIdx k)) ∧
  ∀ s : State, s.runState = .waiting → s.env.inputs = [] → s.env.irqs = [] → step s = .next s

/-- A core accepts a request in Waiting only: in every other run state no step takes one away, whether it executes an
instruction, is cut short in a fetch, stops at a boundary or takes an input; no instruction takes one away; and in Idle,
Halted and Faulted the core does not move, whatever requests wait: a run that has ended stays ended. That a step then
answers the same state is the model's choice (log entry 12). -/
def Obligations.RequestsWaitForYield : Prop :=
  (∀ s t : State, s.runState ≠ .waiting → step s = .next t → ∃ more, t.env.irqs = s.env.irqs ++ more) ∧
  (∀ (i : Instr) (s t : State), exec i s = .next t → ∃ more, t.env.irqs = s.env.irqs ++ more) ∧
  ∀ s : State, s.runState = .idle ∨ s.runState = .halted ∨ s.runState = .faulted → s.env.inputs = [] →
    step s = .next s

/-! ### Reset and the host -/

/-- The state after reset. -/
def Obligations.ResetValues : Prop :=
  State.reset.pc = 0x0000 ∧ State.reset.runState = .idle ∧ State.reset.stopReq = false ∧
  State.reset.trace = false ∧ (∀ a, State.reset.mem.peek a = 0x00) ∧ (∀ n, State.reset.deviceAt n = none) ∧
  State.reset.ds = [] ∧ State.reset.rs = [] ∧ State.reset.flags = 0x00

/-- Load copies the image to 0x0400, writes 0x0400 to the entry vector, and changes nothing else. That a longer image, and
a Load in any run state but Idle, both outside the spec, are refused is the model's treatment (U8, U9, log entry 10). -/
def Obligations.HostLoads : Prop :=
  ∀ (s : State) (image : List Octet) (later : List Input), s.env.inputs = .load image :: later →
    (s.runState = .idle → s.undisturbed → image.length ≤ 64512 → ∃ t, step s = .next t ∧
      (∀ k < image.length, image[k]? = some (t.mem.peek (0x0400 + k))) ∧
      t.mem.peek 0x0000 = 0x04 ∧ t.mem.peek 0x0001 = 0x00 ∧
      (∀ a, a ≠ 0x0000 → a ≠ 0x0001 → ¬(0x0400 ≤ a ∧ a < 0x0400 + image.length) → t.mem.peek a = s.mem.peek a) ∧
      t.pc = s.pc ∧ t.runState = .idle ∧ t.stopReq = s.stopReq ∧ t.trace = s.trace ∧ t.slots = s.slots ∧
      t.env = { s.env with inputs := later }) ∧
    (s.runState ≠ .idle → step s = .refused .hostOutsideAllowedState) ∧
    (s.runState = .idle → 64512 < image.length → step s = .refused .imageTooLong)

/-- Run loads `pc` from the entry vector, big-endian, and enters Running. It is allowed in Idle only (R281); that a Run in
any other run state, which is outside the spec, is refused is the model's treatment (U9, log entry 10). -/
def Obligations.HostRuns : Prop :=
  ∀ (s : State) (later : List Input), s.env.inputs = .run :: later →
    (s.runState = .idle → s.undisturbed → step s = .next
      (((s.setEnv { s.env with inputs := later }).setPc (joinOctets (s.mem.peek 0x0000) (s.mem.peek 0x0001))).setRunState
        .running)) ∧
    (s.runState ≠ .idle → step s = .refused .hostOutsideAllowedState)

/-- Attach fills one empty slot in Idle, so that accesses to its sixteen addresses reach the device; a filled slot and any
other run state are outside the spec, and refused (U9, log entry 10). No step takes a device out of its slot, changes its
kind or changes a port's id. What the registers of a described device hold when it is attached is a parameter (log
entry 15). -/
def Obligations.HostAttaches : Prop :=
  (∀ (s t : State) (n : BitVec 4) (d : Device), step s = .next t → s.deviceAt n = some d →
    ∃ e, t.deviceAt n = some e ∧ e.kind = d.kind) ∧
  ∀ (s : State) (n : BitVec 4) (kind : DeviceKind) (later : List Input), s.env.inputs = .attach n kind :: later →
    (s.runState = .idle → s.deviceAt n = none → ∃ t d, step s = .next t ∧ t.deviceAt n = some d ∧ d.kind = kind ∧
      (∀ k, k ≠ n → t.deviceAt k = s.deviceAt k) ∧ t.pc = s.pc ∧ t.runState = .idle ∧ t.stopReq = s.stopReq ∧
      t.trace = s.trace ∧ t.mem = s.mem ∧ t.env = { s.env with inputs := later }) ∧
    (s.runState ≠ .idle → step s = .refused .hostOutsideAllowedState) ∧
    (s.runState = .idle → s.deviceAt n ≠ none → step s = .refused .slotOccupied)

/-- Stop sets the latch in any run state and touches nothing else; a running core then stops in Halted at its next
boundary with everything as it was; a parked core stays parked until it is resumed, and then stops before the handler's
first instruction. That the latch is set in Idle, Halted and Faulted too is the model's reading, against R285's 'not
changed by Stop' (log entry 11); that a step of a parked core with no request answers the same state is the model's
choice for the wait of R129 (log entry 12). -/
def Obligations.HostStops : Prop :=
  (∀ (s : State) (later : List Input), s.env.inputs = .stop :: later →
    step s = .next ((s.setEnv { s.env with inputs := later }).setStopReq true)) ∧
  (∀ s : State, s.runState = .running → s.env.inputs = [] → s.stopReq = true →
    step s = .next (s.setRunState .halted)) ∧
  (∀ s : State, s.runState = .waiting → s.env.inputs = [] → s.env.irqs = [] → step s = .next s) ∧
  ∀ (s : State) (v : Word), s.runState = .waiting → s.stopReq = true → s.env.inputs = [] → s.undisturbed →
    s.env.irqs = [v] → NoDevice s v → NoDevice s (v + 1) →
    ∃ t, step s = .next t ∧ t.runState = .running ∧ step t = .next (t.setRunState .halted) ∧
      t.pc = joinOctets (plainRead s.mem v) (plainRead s.mem (v + 1)) ∧ t.ds = s.ds ∧ t.rs = s.rs

/-- The trace latch is clear after reset, the host may set it, and it has no effect: two machines that differ in it alone
step alike, and differ in it alone after. -/
def Obligations.TraceHasNoEffect : Prop :=
  State.reset.trace = false ∧
  (∀ (s : State) (b : Bool) (later : List Input), s.env.inputs = .setTrace b :: later →
    step s = .next ((s.setEnv { s.env with inputs := later }).setTrace b)) ∧
  ∀ (s : State) (b : Bool), forgetTrace (step (s.setTrace b)) = forgetTrace (step s)
end

