-- ==== Sys2Proof/Laws/State.lean ====
section
/-! SUPPORT. One lemma per field per update of the state, and the slot table's read after write. -/

namespace Sys2Proof.Machine

/-! ### `setPc` -/

@[simp] theorem State.setPc_pc (s : State) (v : Word) : (s.setPc v).pc = v := rfl
@[simp] theorem State.setPc_runState (s : State) (v : Word) : (s.setPc v).runState = s.runState := rfl
@[simp] theorem State.setPc_stopReq (s : State) (v : Word) : (s.setPc v).stopReq = s.stopReq := rfl
@[simp] theorem State.setPc_trace (s : State) (v : Word) : (s.setPc v).trace = s.trace := rfl
@[simp] theorem State.setPc_mem (s : State) (v : Word) : (s.setPc v).mem = s.mem := rfl
@[simp] theorem State.setPc_slots (s : State) (v : Word) : (s.setPc v).slots = s.slots := rfl
@[simp] theorem State.setPc_env (s : State) (v : Word) : (s.setPc v).env = s.env := rfl

/-! ### `setRunState` -/

@[simp] theorem State.setRunState_pc (s : State) (r : RunState) : (s.setRunState r).pc = s.pc := rfl
@[simp] theorem State.setRunState_runState (s : State) (r : RunState) : (s.setRunState r).runState = r := rfl
@[simp] theorem State.setRunState_stopReq (s : State) (r : RunState) : (s.setRunState r).stopReq = s.stopReq := rfl
@[simp] theorem State.setRunState_trace (s : State) (r : RunState) : (s.setRunState r).trace = s.trace := rfl
@[simp] theorem State.setRunState_mem (s : State) (r : RunState) : (s.setRunState r).mem = s.mem := rfl
@[simp] theorem State.setRunState_slots (s : State) (r : RunState) : (s.setRunState r).slots = s.slots := rfl
@[simp] theorem State.setRunState_env (s : State) (r : RunState) : (s.setRunState r).env = s.env := rfl

/-! ### `setStopReq` -/

@[simp] theorem State.setStopReq_pc (s : State) (b : Bool) : (s.setStopReq b).pc = s.pc := rfl
@[simp] theorem State.setStopReq_runState (s : State) (b : Bool) : (s.setStopReq b).runState = s.runState := rfl
@[simp] theorem State.setStopReq_stopReq (s : State) (b : Bool) : (s.setStopReq b).stopReq = b := rfl
@[simp] theorem State.setStopReq_trace (s : State) (b : Bool) : (s.setStopReq b).trace = s.trace := rfl
@[simp] theorem State.setStopReq_mem (s : State) (b : Bool) : (s.setStopReq b).mem = s.mem := rfl
@[simp] theorem State.setStopReq_slots (s : State) (b : Bool) : (s.setStopReq b).slots = s.slots := rfl
@[simp] theorem State.setStopReq_env (s : State) (b : Bool) : (s.setStopReq b).env = s.env := rfl

/-! ### `setTrace` -/

@[simp] theorem State.setTrace_pc (s : State) (b : Bool) : (s.setTrace b).pc = s.pc := rfl
@[simp] theorem State.setTrace_runState (s : State) (b : Bool) : (s.setTrace b).runState = s.runState := rfl
@[simp] theorem State.setTrace_stopReq (s : State) (b : Bool) : (s.setTrace b).stopReq = s.stopReq := rfl
@[simp] theorem State.setTrace_trace (s : State) (b : Bool) : (s.setTrace b).trace = b := rfl
@[simp] theorem State.setTrace_mem (s : State) (b : Bool) : (s.setTrace b).mem = s.mem := rfl
@[simp] theorem State.setTrace_slots (s : State) (b : Bool) : (s.setTrace b).slots = s.slots := rfl
@[simp] theorem State.setTrace_env (s : State) (b : Bool) : (s.setTrace b).env = s.env := rfl

/-! ### `setMem` -/

@[simp] theorem State.setMem_pc (s : State) (m : Memory) : (s.setMem m).pc = s.pc := rfl
@[simp] theorem State.setMem_runState (s : State) (m : Memory) : (s.setMem m).runState = s.runState := rfl
@[simp] theorem State.setMem_stopReq (s : State) (m : Memory) : (s.setMem m).stopReq = s.stopReq := rfl
@[simp] theorem State.setMem_trace (s : State) (m : Memory) : (s.setMem m).trace = s.trace := rfl
@[simp] theorem State.setMem_mem (s : State) (m : Memory) : (s.setMem m).mem = m := rfl
@[simp] theorem State.setMem_slots (s : State) (m : Memory) : (s.setMem m).slots = s.slots := rfl
@[simp] theorem State.setMem_env (s : State) (m : Memory) : (s.setMem m).env = s.env := rfl

/-! ### `setSlots` -/

@[simp] theorem State.setSlots_pc (s : State) (t : Vector (Option Device) 16) : (s.setSlots t).pc = s.pc := rfl
@[simp] theorem State.setSlots_runState (s : State) (t : Vector (Option Device) 16) : (s.setSlots t).runState = s.runState := rfl
@[simp] theorem State.setSlots_stopReq (s : State) (t : Vector (Option Device) 16) : (s.setSlots t).stopReq = s.stopReq := rfl
@[simp] theorem State.setSlots_trace (s : State) (t : Vector (Option Device) 16) : (s.setSlots t).trace = s.trace := rfl
@[simp] theorem State.setSlots_mem (s : State) (t : Vector (Option Device) 16) : (s.setSlots t).mem = s.mem := rfl
@[simp] theorem State.setSlots_slots (s : State) (t : Vector (Option Device) 16) : (s.setSlots t).slots = t := rfl
@[simp] theorem State.setSlots_env (s : State) (t : Vector (Option Device) 16) : (s.setSlots t).env = s.env := rfl

/-! ### `setEnv` -/

@[simp] theorem State.setEnv_pc (s : State) (e : Env) : (s.setEnv e).pc = s.pc := rfl
@[simp] theorem State.setEnv_runState (s : State) (e : Env) : (s.setEnv e).runState = s.runState := rfl
@[simp] theorem State.setEnv_stopReq (s : State) (e : Env) : (s.setEnv e).stopReq = s.stopReq := rfl
@[simp] theorem State.setEnv_trace (s : State) (e : Env) : (s.setEnv e).trace = s.trace := rfl
@[simp] theorem State.setEnv_mem (s : State) (e : Env) : (s.setEnv e).mem = s.mem := rfl
@[simp] theorem State.setEnv_slots (s : State) (e : Env) : (s.setEnv e).slots = s.slots := rfl
@[simp] theorem State.setEnv_env (s : State) (e : Env) : (s.setEnv e).env = e := rfl

/-! ### `setDevice` and `deviceAt` -/

@[simp] theorem State.setDevice_pc (s : State) (n : BitVec 4) (d : Device) : (s.setDevice n d).pc = s.pc := rfl
@[simp] theorem State.setDevice_runState (s : State) (n : BitVec 4) (d : Device) : (s.setDevice n d).runState = s.runState := rfl
@[simp] theorem State.setDevice_stopReq (s : State) (n : BitVec 4) (d : Device) : (s.setDevice n d).stopReq = s.stopReq := rfl
@[simp] theorem State.setDevice_trace (s : State) (n : BitVec 4) (d : Device) : (s.setDevice n d).trace = s.trace := rfl
@[simp] theorem State.setDevice_mem (s : State) (n : BitVec 4) (d : Device) : (s.setDevice n d).mem = s.mem := rfl
@[simp] theorem State.setDevice_env (s : State) (n : BitVec 4) (d : Device) : (s.setDevice n d).env = s.env := rfl
@[simp] theorem State.deviceAt_setPc (s : State) (n : BitVec 4) (v : Word) : (s.setPc v).deviceAt n = s.deviceAt n := rfl
@[simp] theorem State.deviceAt_setRunState (s : State) (n : BitVec 4) (r : RunState) : (s.setRunState r).deviceAt n = s.deviceAt n := rfl
@[simp] theorem State.deviceAt_setStopReq (s : State) (n : BitVec 4) (b : Bool) : (s.setStopReq b).deviceAt n = s.deviceAt n := rfl
@[simp] theorem State.deviceAt_setTrace (s : State) (n : BitVec 4) (b : Bool) : (s.setTrace b).deviceAt n = s.deviceAt n := rfl
@[simp] theorem State.deviceAt_setMem (s : State) (n : BitVec 4) (m : Memory) : (s.setMem m).deviceAt n = s.deviceAt n := rfl
@[simp] theorem State.deviceAt_setEnv (s : State) (n : BitVec 4) (e : Env) : (s.setEnv e).deviceAt n = s.deviceAt n := rfl

/-- A slot reads as what was put into it, and the other slots as before (R35). -/
theorem State.deviceAt_setDevice (s : State) (n k : BitVec 4) (d : Device) :
    (s.setDevice n d).deviceAt k = if k = n then some d else s.deviceAt k := by
  simp only [State.deviceAt, State.setDevice, State.setSlots_slots, Vector.getElem_set]
  by_cases h : k = n
  · subst h; simp
  · have : n.toNat ≠ k.toNat := fun e => h (BitVec.eq_of_toNat_eq e.symm)
    simp [h, this]

end Sys2Proof.Machine
end

