-- ==== Sys2Proof/Laws/Memory.lean ====
section
/-! SUPPORT. The laws of storage: read after write, and the canonical form that every memory operation keeps. -/

namespace Sys2Proof.Machine

@[simp] theorem Memory.peek_nil (a : Nat) : Memory.peek [] a = unlisted := rfl

theorem Memory.peek_cons (k : Nat) (v : Octet) (m : Memory) (a : Nat) :
    Memory.peek ((k, v) :: m) a = if k = a then v else Memory.peek m a := rfl

theorem Memory.peek_dropCell (m : Memory) (a b : Nat) :
    (m.dropCell a).peek b = if b = a then unlisted else m.peek b := by
  induction m with
  | nil => simp [Memory.dropCell]
  | cons c m ih =>
    obtain ⟨k, v⟩ := c
    by_cases hka : k = a
    · subst hka
      by_cases hb : b = k
      · rw [if_pos hb] at ih ⊢; simpa [Memory.dropCell] using ih
      · simp [Memory.dropCell, ih, Memory.peek_cons, hb, Ne.symm hb]
    · by_cases hkb : k = b
      · subst hkb; simp [Memory.dropCell, Memory.peek_cons, hka]
      · simp [Memory.dropCell, Memory.peek_cons, hka, hkb, ih]

theorem Memory.mem_dropCell (m : Memory) (a : Nat) (c : Host.Cell) :
    c ∈ m.dropCell a ↔ c ∈ m ∧ c.1 ≠ a := by
  induction m with
  | nil => simp [Memory.dropCell]
  | cons d m ih =>
    obtain ⟨k, v⟩ := d
    by_cases hka : k = a
    · simp only [Memory.dropCell, if_pos hka, ih, List.mem_cons]
      constructor
      · rintro ⟨h, hc⟩; exact ⟨.inr h, hc⟩
      · rintro ⟨rfl | h, hc⟩
        · exact absurd hka hc
        · exact ⟨h, hc⟩
    · simp only [Memory.dropCell, if_neg hka, List.mem_cons, ih]
      constructor
      · rintro (rfl | ⟨h, hc⟩)
        · exact ⟨.inl rfl, hka⟩
        · exact ⟨.inr h, hc⟩
      · rintro ⟨rfl | h, hc⟩
        · exact .inl rfl
        · exact .inr ⟨h, hc⟩

theorem Memory.mem_addCell (m : Memory) (a : Nat) (v : Octet) (c : Host.Cell) :
    c ∈ m.addCell a v ↔ c = (a, v) ∨ c ∈ m := by
  induction m with
  | nil => simp [Memory.addCell]
  | cons d m ih =>
    obtain ⟨k, w⟩ := d
    by_cases h : a < k
    · simp [Memory.addCell, h]
    · simp only [Memory.addCell, if_neg h, List.mem_cons, ih]; tauto

theorem Memory.peek_addCell (m : Memory) (a b : Nat) (v : Octet) (ha : ∀ c ∈ m, c.1 ≠ a) :
    (m.addCell a v).peek b = if b = a then v else m.peek b := by
  induction m with
  | nil => simp [Memory.addCell, Memory.peek_cons, eq_comm]
  | cons c m ih =>
    obtain ⟨k, w⟩ := c
    have hka : k ≠ a := ha (k, w) (by simp)
    have ih := ih fun c hc => ha c (by simp [hc])
    by_cases hlt : a < k
    · by_cases hb : b = a
      · simp [Memory.addCell, hlt, Memory.peek_cons, hb]
      · simp [Memory.addCell, hlt, Memory.peek_cons, hb, Ne.symm hb]
    · by_cases hkb : k = b
      · subst hkb; simp [Memory.addCell, hlt, Memory.peek_cons, hka]
      · simp [Memory.addCell, hlt, Memory.peek_cons, hkb, ih]

/-- Read after write: the written octet at its address, every other address as before. -/
theorem Memory.peek_poke (m : Memory) (a b : Nat) (v : Octet) :
    (m.poke a v).peek b = if b = a then v else m.peek b := by
  unfold Memory.poke
  split
  · next h => rw [Memory.peek_dropCell, h]
  · rw [Memory.peek_addCell _ _ _ _ fun c hc => ((m.mem_dropCell a c).1 hc).2, Memory.peek_dropCell]
    split <;> rfl

@[simp] theorem Memory.peek_poke_same (m : Memory) (a : Nat) (v : Octet) : (m.poke a v).peek a = v := by
  simp [Memory.peek_poke]

theorem Memory.peek_poke_other (m : Memory) {a b : Nat} (v : Octet) (h : b ≠ a) :
    (m.poke a v).peek b = m.peek b := by
  simp [Memory.peek_poke, h]

/-- A transfer writes its octets at consecutive addresses and nothing else (R57). -/
theorem Memory.peek_pokeList (m : Memory) (a b : Nat) (data : List Octet) :
    (m.pokeList a data).peek b = if a ≤ b ∧ b < a + data.length then data.getD (b - a) unlisted else m.peek b := by
  induction data generalizing m a with
  | nil => rw [if_neg (by simp)]; rfl
  | cons v data ih =>
    simp only [Memory.pokeList, ih, Memory.peek_poke, List.length_cons]
    by_cases hb : b = a
    · subst hb; simp
    · by_cases h : a + 1 ≤ b ∧ b < a + 1 + data.length
      · rw [if_pos h, if_pos (by omega), show b - a = b - (a + 1) + 1 by omega, List.getD_cons_succ]
      · rw [if_neg h, if_neg hb, if_neg (by omega)]

@[simp] theorem Memory.peekList_length (m : Memory) (a n : Nat) : (m.peekList a n).length = n := by
  induction n generalizing a with
  | zero => rfl
  | succ n ih => simp [Memory.peekList, ih]

theorem Memory.peekList_getElem? (m : Memory) (a n i : Nat) (h : i < n) :
    (m.peekList a n)[i]? = some (m.peek (a + i)) := by
  induction n generalizing a i with
  | zero => omega
  | succ n ih =>
    cases i with
    | zero => simp [Memory.peekList]
    | succ i => simp [Memory.peekList, ih (a + 1) i (by omega), show a + 1 + i = a + (i + 1) by omega]

/-- The read of a range depends on the octets in the range only. -/
theorem Memory.peekList_congr (m m' : Memory) (a n : Nat) (h : ∀ i < n, m.peek (a + i) = m'.peek (a + i)) :
    m.peekList a n = m'.peekList a n := by
  induction n generalizing a with
  | zero => rfl
  | succ n ih =>
    simp only [Memory.peekList]
    rw [show m.peek a = m'.peek a from h 0 (by omega),
      ih (a + 1) fun i hi => by have := h (i + 1) (by omega); rwa [show a + 1 + i = a + (i + 1) by omega]]

theorem Memory.peekList_append (m : Memory) (a n k : Nat) :
    m.peekList a (n + k) = m.peekList a n ++ m.peekList (a + n) k := by
  induction n generalizing a with
  | zero => simp [Memory.peekList]
  | succ n ih =>
    rw [show n + 1 + k = (n + k) + 1 by omega]
    simp only [Memory.peekList, ih, List.cons_append, show a + 1 + n = a + (n + 1) by omega]

/-! ### The canonical form -/

theorem Memory.dropCell_wf {m : Memory} (a : Nat) (h : m.wf) : (m.dropCell a).wf := by
  refine ⟨?_, fun c hc => h.2 c ((m.mem_dropCell a c).1 hc).1⟩
  obtain ⟨hp, -⟩ := h
  induction m with
  | nil => simp [Memory.dropCell]
  | cons d m ih =>
    obtain ⟨k, v⟩ := d
    obtain ⟨hd, hp⟩ := List.pairwise_cons.1 hp
    by_cases hka : k = a
    · simpa [Memory.dropCell, hka] using ih hp
    · simp only [Memory.dropCell, if_neg hka]
      exact List.pairwise_cons.2 ⟨fun c hc => hd c ((Memory.mem_dropCell m a c).1 hc).1, ih hp⟩

theorem Memory.addCell_wf {m : Memory} {a : Nat} {v : Octet} (h : m.wf) (ha : a < memSize) (hv : v ≠ unlisted)
    (hn : ∀ c ∈ m, c.1 ≠ a) : (m.addCell a v).wf := by
  refine ⟨?_, fun c hc => ?_⟩
  · obtain ⟨hp, -⟩ := h
    induction m with
    | nil => simp [Memory.addCell]
    | cons d m ih =>
      obtain ⟨k, w⟩ := d
      obtain ⟨hd, hp'⟩ := List.pairwise_cons.1 hp
      have hk : k ≠ a := hn (k, w) (by simp)
      by_cases hlt : a < k
      · simp only [Memory.addCell, if_pos hlt]
        refine List.pairwise_cons.2 ⟨fun c hc => ?_, hp⟩
        rcases List.mem_cons.1 hc with rfl | hc
        · exact hlt
        · exact Nat.lt_trans hlt (hd c hc)
      · simp only [Memory.addCell, if_neg hlt]
        refine List.pairwise_cons.2 ⟨fun c hc => ?_, ih (fun c hc => hn c (by simp [hc])) hp'⟩
        rcases (Memory.mem_addCell _ _ _ _).1 hc with rfl | hc
        · show k < a; omega
        · exact hd c hc
  · rcases (Memory.mem_addCell _ _ _ _).1 hc with rfl | hc
    · exact ⟨ha, hv⟩
    · exact h.2 c hc

/-- A write inside the address space keeps the canonical form. -/
theorem Memory.poke_wf {m : Memory} {a : Nat} (v : Octet) (h : m.wf) (ha : a < memSize) : (m.poke a v).wf := by
  unfold Memory.poke
  split
  · exact Memory.dropCell_wf a h
  · next hv =>
    exact Memory.addCell_wf (Memory.dropCell_wf a h) ha hv fun c hc => ((m.mem_dropCell a c).1 hc).2

/-- A transfer inside the address space keeps the canonical form. -/
theorem Memory.pokeList_wf {m : Memory} {a : Nat} {data : List Octet} (h : m.wf) (ha : a + data.length ≤ memSize) :
    (m.pokeList a data).wf := by
  induction data generalizing m a with
  | nil => exact h
  | cons v data ih =>
    simp only [List.length_cons] at ha
    exact ih (Memory.poke_wf v h (by omega)) (by omega)

/-- Two storages in canonical form that read alike everywhere are the same list. -/
theorem Memory.eq_of_peek_eq {m m' : Memory} (h : m.wf) (h' : m'.wf) (e : ∀ a, m.peek a = m'.peek a) : m = m' := by
  have low : ∀ (m : Memory) (a : Nat), (∀ c ∈ m, a < c.1) → m.peek a = unlisted := by
    intro m a hm
    induction m with
    | nil => rfl
    | cons d m ih =>
      obtain ⟨k, v⟩ := d
      have : a < k := hm (k, v) (by simp)
      rw [Memory.peek_cons, if_neg (by omega)]
      exact ih fun c hc => hm c (by simp [hc])
  induction m generalizing m' with
  | nil =>
    cases m' with
    | nil => rfl
    | cons d m' =>
      have := e d.1
      rw [Memory.peek_nil, show d = (d.1, d.2) from rfl, Memory.peek_cons, if_pos rfl] at this
      exact absurd this.symm (h'.2 d (by simp)).2
  | cons c m ih =>
    obtain ⟨k, v⟩ := c
    obtain ⟨hp, hv⟩ := h
    obtain ⟨hk, hp⟩ := List.pairwise_cons.1 hp
    have ek := e k
    rw [Memory.peek_cons, if_pos rfl] at ek
    cases m' with
    | nil => exact absurd ek (hv (k, v) (by simp)).2
    | cons d m' =>
      obtain ⟨k', v'⟩ := d
      obtain ⟨hp', hv'⟩ := h'
      obtain ⟨hk', hq'⟩ := List.pairwise_cons.1 hp'
      have ek' := e k'
      rw [Memory.peek_cons (k := k'), if_pos rfl] at ek'
      have hkk : k = k' := by
        rcases Nat.lt_trichotomy k k' with hlt | heq | hgt
        · rw [low ((k', v') :: m') k (fun c hc => by
            rcases List.mem_cons.1 hc with rfl | hc
            · exact hlt
            · exact Nat.lt_trans hlt (hk' c hc))] at ek
          exact absurd ek (hv (k, v) (by simp)).2
        · exact heq
        · rw [low ((k, v) :: m) k' (fun c hc => by
            rcases List.mem_cons.1 hc with rfl | hc
            · exact hgt
            · exact Nat.lt_trans hgt (hk c hc))] at ek'
          exact absurd ek'.symm (hv' (k', v') (by simp)).2
      subst hkk
      rw [Memory.peek_cons, if_pos rfl] at ek
      subst ek
      congr 1
      refine ih ⟨hp, fun c hc => hv c (by simp [hc])⟩ ⟨hq', fun c hc => hv' c (by simp [hc])⟩ fun a => ?_
      by_cases ha : k = a
      · subst ha; rw [low m k hk, low m' k hk']
      · simpa [Memory.peek_cons, ha] using e a

theorem State.reset_mem_wf : State.reset.mem.wf := by simp [State.reset, Memory.wf]

end Sys2Proof.Machine
end

