-- ==== Sys2Proof/Laws/Micro.lean ====
section
/-! SUPPORT. How sequences of micro-operations run, once for each way of building one. -/

namespace Sys2Proof.Machine

theorem bind_ok {α β : Type} {m : Micro α} {f : α → Micro β} {s t : State} {a : α} (h : m.run s = .ok a t) :
    (m >>= f).run s = (f a).run t := by rw [EStateM.run_bind, h]

theorem bind_error {α β : Type} {m : Micro α} {f : α → Micro β} {s t : State} {e : Stop}
    (h : m.run s = .error e t) : (m >>= f).run s = .error e t := by rw [EStateM.run_bind, h]

/-- A sequence that completes is its first part completed and then its second. -/
theorem bind_eq_ok {α β : Type} {m : Micro α} {f : α → Micro β} {s t : State} {b : β} :
    (m >>= f).run s = .ok b t ↔ ∃ a u, m.run s = .ok a u ∧ (f a).run u = .ok b t := by
  rw [EStateM.run_bind]
  cases h : m.run s with
  | ok a u => simp
  | error e u => simp

/-- A sequence that is cut short is cut short in its first part, or in its second. -/
theorem bind_eq_error {α β : Type} {m : Micro α} {f : α → Micro β} {s t : State} {e : Stop} :
    (m >>= f).run s = .error e t ↔ m.run s = .error e t ∨ ∃ a u, m.run s = .ok a u ∧ (f a).run u = .error e t := by
  rw [EStateM.run_bind]
  cases h : m.run s with
  | ok a u => simp
  | error e u => simp

@[simp] theorem update_run (f : State → State) (s : State) : (update f).run s = .ok () (f s) := rfl

@[simp] theorem fetchOf_run {α : Type} (f : State → α) (s : State) : (fetchOf f).run s = .ok (f s) s := rfl

@[simp] theorem abort_run {α : Type} (e : Stop) (s : State) : (abort e : Micro α).run s = .error e s := rfl

@[simp] theorem jump_run (t : Word) (s : State) : (jump t).run s = .ok () (s.setPc t) := rfl

@[simp] theorem advance_run (n : Word) (s : State) : (advance n).run s = .ok () (s.setPc (s.pc + n)) := rfl

@[simp] theorem enter_run (r : RunState) (s : State) : (enter r).run s = .ok () (s.setRunState r) := rfl

theorem finish_ok {m : Micro Unit} {s t : State} (h : m.run s = .ok () t) : finish m s = .next t := by
  simp [finish, settle, h]

theorem finish_taken {m : Micro Unit} {s t : State} (h : m.run s = .error .taken t) : finish m s = .next t := by
  simp [finish, settle, h]

theorem finish_stuck {m : Micro Unit} {s t : State} {f : Fault} (h : m.run s = .error (.stuck f) t) :
    finish m s = .fault f := by
  simp [finish, settle, h]

theorem settle_ok {α : Type} {m : Micro α} {s t : State} {a : α}
    {next : α → State → Host.Outcome State Fault Refusal} (h : m.run s = .ok a t) :
    settle (m.run s) next = next a t := by
  simp [settle, h]

/-- A finished sequence answers a next state in two ways only: it completed, or it took a fault. -/
theorem finish_eq_next {m : Micro Unit} {s t : State} :
    finish m s = .next t ↔ m.run s = .ok () t ∨ m.run s = .error .taken t := by
  unfold finish settle
  split <;> rename_i h <;> simp [h]

/-- What follows a sequence is reached with the value and the state that it leaves. -/
theorem settle_eq_next {α : Type} {m : Micro α} {s t : State}
    {next : α → State → Host.Outcome State Fault Refusal} :
    settle (m.run s) next = .next t ↔
      (∃ a u, m.run s = .ok a u ∧ next a u = .next t) ∨ m.run s = .error .taken t := by
  unfold settle
  split <;> rename_i h <;> simp [h]

/-- `P` holds of the state that a run ends in, completed or cut short. -/
def Post {α : Type} (P : State → Prop) : EStateM.Result Stop State α → Prop
  | .ok _ t => P t
  | .error _ t => P t

/-- `P` holds after the sequence, completed or cut short, wherever it holds before. -/
def Micro.Keeps {α : Type} (P : State → Prop) (m : Micro α) : Prop := ∀ s, P s → Post P (m.run s)

theorem Micro.Keeps.bind {α β : Type} {P : State → Prop} {m : Micro α} {f : α → Micro β} (hm : Micro.Keeps P m)
    (hf : ∀ a, Micro.Keeps P (f a)) : Micro.Keeps P (m >>= f) := by
  intro s hs
  have h := hm s hs
  rw [EStateM.run_bind]
  cases e : m.run s with
  | ok a t => rw [e] at h; exact hf a t h
  | error x t => rw [e] at h; exact h

theorem Micro.Keeps.pure {α : Type} {P : State → Prop} (a : α) : Micro.Keeps P (Pure.pure a : Micro α) :=
  fun _ hs => hs

theorem Micro.Keeps.update {P : State → Prop} {f : State → State} (h : ∀ s, P s → P (f s)) :
    Micro.Keeps P (update f) := h

theorem Micro.Keeps.fetchOf {α : Type} {P : State → Prop} (f : State → α) : Micro.Keeps P (fetchOf f) :=
  fun _ hs => hs

theorem Micro.Keeps.abort {α : Type} {P : State → Prop} (e : Stop) : Micro.Keeps P (abort e : Micro α) :=
  fun _ hs => hs

/-- A finished sequence keeps what its parts keep. -/
theorem Micro.Keeps.finish {P : State → Prop} {m : Micro Unit} (h : Micro.Keeps P m) {s t : State} (hs : P s)
    (e : finish m s = .next t) : P t := by
  have hk := h s hs
  rcases finish_eq_next.1 e with e | e <;> rw [e] at hk <;> exact hk

end Sys2Proof.Machine
end

