-- ==== Sys2Proof/Laws/Access.lean ====
section
/-! SUPPORT. One lemma for each shared operation that says what it does: the dispatcher's two accesses, taking a fault,
the stack primitives, the 16-bit accesses and the resume. First for any surroundings, then for undisturbed states. -/

namespace Sys2Proof.Machine

/-! ### Addresses -/

/-- One of the two stacks of the machine. -/
def StackSpec.isStack (k : StackSpec) : Prop := k = dataStack ∨ k = returnStack

theorem dataStack_isStack : dataStack.isStack := .inl rfl

theorem returnStack_isStack : returnStack.isStack := .inr rfl

theorem flagsAddr_outside : inWindow flagsAddr = false := by decide

theorem slotAddr_toNat {k : StackSpec} (hk : k.isStack) (d : Octet) :
    (slotAddr k d).toNat = k.base.toNat + d.toNat := by
  have := d.isLt
  rcases hk with rfl | rfl <;> simp [slotAddr, dataStack, returnStack, dsBase, rsBase, BitVec.toNat_add] <;> omega

theorem slotAddr_outside {k : StackSpec} (hk : k.isStack) (d : Octet) : inWindow (slotAddr k d) = false := by
  rcases hk with rfl | rfl <;> revert d <;> decide

theorem depthAddr_outside {k : StackSpec} (hk : k.isStack) : inWindow k.depthAddr = false := by
  rcases hk with rfl | rfl <;> decide

/-- The addresses of the window are 0x0300 to 0x03FF (R54). -/
theorem inWindow_iff (a : Word) : inWindow a = true ↔ 0x0300 ≤ a.toNat ∧ a.toNat ≤ 0x03FF := by
  have := a.isLt
  simp only [inWindow, highOctet, beq_iff_eq, ← BitVec.toNat_inj, BitVec.extractLsb'_toNat, Nat.shiftRight_eq_div_pow]
  constructor
  · intro h
    have : a.toNat / 2 ^ 8 % 2 ^ 8 = 3 := h
    omega
  · rintro ⟨h, h'⟩
    show a.toNat / 2 ^ 8 % 2 ^ 8 = 3
    omega

theorem joinOctets_toNat (h l : Octet) : (joinOctets h l).toNat = h.toNat * 256 + l.toNat := by
  have := h.isLt
  have := l.isLt
  simp only [joinOctets, BitVec.toNat_append, Nat.shiftLeft_eq]
  rw [← Nat.shiftLeft_eq, ← Nat.shiftLeft_add_eq_or_of_lt (by omega), Nat.shiftLeft_eq]

@[simp] theorem highOctet_joinOctets (h l : Octet) : highOctet (joinOctets h l) = h := by
  apply BitVec.eq_of_toNat_eq
  have := l.isLt
  have := h.isLt
  simp only [highOctet, BitVec.extractLsb'_toNat, joinOctets_toNat, Nat.shiftRight_eq_div_pow]
  omega

@[simp] theorem lowOctet_joinOctets (h l : Octet) : lowOctet (joinOctets h l) = l := by
  apply BitVec.eq_of_toNat_eq
  have := l.isLt
  simp only [lowOctet, BitVec.extractLsb'_toNat, joinOctets_toNat, Nat.shiftRight_eq_div_pow]
  omega

@[simp] theorem joinOctets_halves (v : Word) : joinOctets (highOctet v) (lowOctet v) = v := by
  apply BitVec.eq_of_toNat_eq
  have := v.isLt
  simp only [joinOctets_toNat, highOctet, lowOctet, BitVec.extractLsb'_toNat, Nat.shiftRight_eq_div_pow]
  omega

/-! ### Runs of the primitive operations -/

theorem transferFits_iff (a : Word) (n : Nat) : transferFits a n = true ↔ a.toNat + n ≤ 65536 := decide_eq_true_iff

theorem imageFits_iff (image : List Octet) : imageFits image = true ↔ image.length ≤ 64512 := decide_eq_true_iff

theorem payloadFits_iff (payload : List Octet) : payloadFits payload = true ↔ payload.length ≤ 255 :=
  decide_eq_true_iff

@[simp] theorem emit_run (e : Emission) (s : State) :
    (emit e).run s = .ok () (s.setEnv { s.env with emitted := s.env.emitted ++ [e] }) := rfl

@[simp] theorem presentIrq_run (v : Word) (s : State) :
    (presentIrq v).run s = .ok () (s.setEnv { s.env with irqs := s.env.irqs ++ [v] }) := rfl

theorem interleave_run (s : State) :
    interleave.run s = match s.env.foreign with
      | [] => .ok () s
      | acts :: rest => (applyActs acts).run (s.setEnv { s.env with foreign := rest }) := rfl

@[simp] theorem applyAct_octetWrite_run (a : Word) (v : Octet) (s : State) :
    (applyAct (.octetWrite a v)).run s = .ok () (s.setMem (s.mem.poke a.toNat v)) := rfl

@[simp] theorem applyAct_octetRead_run (a : Word) (s : State) :
    (applyAct (.octetRead a)).run s =
      .ok () (s.setEnv { s.env with emitted := s.env.emitted ++ [.copied a [s.mem.peek a.toNat]] }) := rfl

@[simp] theorem applyAct_irqRequest_run (v : Word) (s : State) :
    (applyAct (.irqRequest v)).run s = .ok () (s.setEnv { s.env with irqs := s.env.irqs ++ [v] }) := rfl

theorem awaitReply_run (s : State) :
    awaitReply.run s = match s.env.replies with
      | [] => drawOctet.run s
      | r :: rest => (giveReply r).run (s.setEnv { s.env with replies := rest }) := rfl

theorem drawOctet_run (s : State) :
    drawOctet.run s =
      .ok (Config.freeOctet s.env.drawn) (s.setEnv { s.env with drawn := s.env.drawn + 1 }) := rfl

theorem recordMessage_run (n : BitVec 4) (sender signal length : Octet) (s : State) :
    (recordMessage n sender signal length).run s = match s.deviceAt n with
      | some (.port p) => .ok () (s.setDevice n (.port (received p sender signal length)))
      | _ => .error (.outside .noPortInSlot) s := rfl

theorem route_run (a : Word) (s : State) :
    (route a).run s =
      if inWindow a then
        match s.deviceAt (windowSlot a) with
        | some d => (deviceRead (windowSlot a) d (windowRegister a)).run s
        | none => .ok 0x00 s
      else .ok (s.mem.peek a.toNat) s := rfl

theorem routeWrite_run (a : Word) (v : Octet) (s : State) :
    (routeWrite a v).run s =
      if inWindow a then
        match s.deviceAt (windowSlot a) with
        | some d => (deviceWrite (windowSlot a) d (windowRegister a) v).run s
        | none => .ok () s
      else .ok () (s.setMem (s.mem.poke a.toNat v)) := rfl

/-! ### Any surroundings -/

/-- A read that completes: the other agents' acts, then the routed read (R52, R70). -/
theorem read_eq_ok {a : Word} {s t : State} {v : Octet} :
    (read a).run s = .ok v t ↔ ∃ u, interleave.run s = .ok () u ∧ (route a).run u = .ok v t := by
  rw [read, bind_eq_ok]
  exact ⟨fun ⟨_, u, h⟩ => ⟨u, h⟩, fun ⟨u, h⟩ => ⟨(), u, h⟩⟩

/-- A write that completes: the other agents' acts, then the routed write (R53, R70). -/
theorem write_eq_ok {a : Word} {v : Octet} {s t : State} :
    (write a v).run s = .ok () t ↔ ∃ u, interleave.run s = .ok () u ∧ (routeWrite a v).run u = .ok () t := by
  rw [write, bind_eq_ok]
  exact ⟨fun ⟨_, u, h⟩ => ⟨u, h⟩, fun ⟨u, h⟩ => ⟨(), u, h⟩⟩

/-- Outside the window a read is of storage (R52). -/
theorem route_storage {a : Word} (h : inWindow a = false) (s : State) :
    (route a).run s = .ok (s.mem.peek a.toNat) s := by
  simp [route_run, h]

/-- Outside the window a write is to storage (R53). -/
theorem routeWrite_storage {a : Word} (h : inWindow a = false) (v : Octet) (s : State) :
    (routeWrite a v).run s = .ok () (s.setMem (s.mem.poke a.toNat v)) := by
  simp [routeWrite_run, h]

/-- An empty slot reads 0x00 (R56). -/
theorem route_empty {a : Word} (h : inWindow a = true) {s : State} (hs : s.deviceAt (windowSlot a) = none) :
    (route a).run s = .ok 0x00 s := by
  simp [route_run, h, hs]

/-- An empty slot drops a write (R56). -/
theorem routeWrite_empty {a : Word} (h : inWindow a = true) (v : Octet) {s : State}
    (hs : s.deviceAt (windowSlot a) = none) : (routeWrite a v).run s = .ok () s := by
  simp [routeWrite_run, h, hs]

/-- An attached device answers a read (R55). -/
theorem route_device {a : Word} (h : inWindow a = true) {s : State} {d : Device}
    (hs : s.deviceAt (windowSlot a) = some d) : (route a).run s = (deviceRead (windowSlot a) d (windowRegister a)).run s := by
  simp [route_run, h, hs]

/-- An attached device receives a write (R55). -/
theorem routeWrite_device {a : Word} (h : inWindow a = true) (v : Octet) {s : State} {d : Device}
    (hs : s.deviceAt (windowSlot a) = some d) :
    (routeWrite a v).run s = (deviceWrite (windowSlot a) d (windowRegister a) v).run s := by
  simp [routeWrite_run, h, hs]

/-- Taking a fault never completes the sequence it stands in (R10, R231). -/
theorem takeFault_ne_ok {α : Type} (c : Cause) (s t : State) (a : α) : (takeFault c).run s ≠ .ok a t := by
  intro h
  obtain ⟨f, u, -, h⟩ := bind_eq_ok.1 h
  obtain ⟨_, v, -, h⟩ := bind_eq_ok.1 h
  obtain ⟨_, w, -, h⟩ := bind_eq_ok.1 h
  cases h

/-- A fault taken in any surroundings: the octet of FLAGS is read and written back with the bit, whatever other agents
do before each access, and the core is Faulted; or one of the two accesses is cut short (R231). -/
theorem takeFault_eq_taken {α : Type} {c : Cause} {s t : State} :
    (takeFault c : Micro α).run s = .error .taken t ↔
      (∃ f u v, (read flagsAddr).run s = .ok f u ∧ (write flagsAddr (withFault f c)).run u = .ok () v ∧
        t = v.setRunState .faulted) ∨
      (read flagsAddr).run s = .error .taken t ∨
      ∃ f u, (read flagsAddr).run s = .ok f u ∧ (write flagsAddr (withFault f c)).run u = .error .taken t := by
  constructor
  · intro h
    rcases bind_eq_error.1 h with h | ⟨f, u, hr, h⟩
    · exact .inr (.inl h)
    rcases bind_eq_error.1 h with h | ⟨_, v, hw, h⟩
    · exact .inr (.inr ⟨f, u, hr, h⟩)
    rcases bind_eq_error.1 h with h | ⟨_, w, he, h⟩
    · cases h
    · cases he; cases h; exact .inl ⟨f, u, v, hr, hw, rfl⟩
  · rintro (⟨f, u, v, hr, hw, rfl⟩ | h | ⟨f, u, hr, hw⟩)
    · rw [takeFault, bind_ok hr, bind_ok hw, bind_ok (enter_run _ _), abort_run]
    · exact bind_error h
    · rw [takeFault, bind_ok hr, bind_error hw]

/-- A push that completes found the depth below STACK_MAX, wrote the slot and then the depth (R120, R124). -/
theorem pushOctet_eq_ok {k : StackSpec} {v : Octet} {s t : State} :
    (pushOctet k v).run s = .ok () t ↔ ∃ d u w, (read k.depthAddr).run s = .ok d u ∧ d.toNat < stackMax ∧
      (write (slotAddr k d) v).run u = .ok () w ∧ (write k.depthAddr (d + 1)).run w = .ok () t := by
  constructor
  · intro h
    obtain ⟨d, u, hr, h⟩ := bind_eq_ok.1 h
    by_cases hd : stackMax ≤ d.toNat
    · rw [if_pos hd] at h
      exact absurd h (takeFault_ne_ok _ _ _ _)
    · rw [if_neg hd] at h
      obtain ⟨_, w, hw, h⟩ := bind_eq_ok.1 h
      exact ⟨d, u, w, hr, by omega, hw, h⟩
  · rintro ⟨d, u, w, hr, hd, hw, h⟩
    rw [pushOctet, bind_ok hr, if_neg (by omega), bind_ok hw, h]

/-- A pop that completes found a depth above 0, wrote the depth and then read the slot (R121, R125). -/
theorem popOctet_eq_ok {k : StackSpec} {v : Octet} {s t : State} :
    (popOctet k).run s = .ok v t ↔ ∃ d u w, (read k.depthAddr).run s = .ok d u ∧ d ≠ 0 ∧
      (write k.depthAddr (d - 1)).run u = .ok () w ∧ (read (slotAddr k (d - 1))).run w = .ok v t := by
  constructor
  · intro h
    obtain ⟨d, u, hr, h⟩ := bind_eq_ok.1 h
    by_cases hd : d = 0
    · rw [if_pos hd] at h
      exact absurd h (takeFault_ne_ok _ _ _ _)
    · rw [if_neg hd] at h
      obtain ⟨_, w, hw, h⟩ := bind_eq_ok.1 h
      exact ⟨d, u, w, hr, hd, hw, h⟩
  · rintro ⟨d, u, w, hr, hd, hw, h⟩
    rw [popOctet, bind_ok hr, if_neg hd, bind_ok hw, h]

/-- A 16-bit push that completes is two octet pushes, high octet first (R122, R126). -/
theorem pushWord_eq_ok {k : StackSpec} {v : Word} {s t : State} :
    (pushWord k v).run s = .ok () t ↔
      ∃ u, (pushOctet k (highOctet v)).run s = .ok () u ∧ (pushOctet k (lowOctet v)).run u = .ok () t := by
  rw [pushWord, bind_eq_ok]
  exact ⟨fun ⟨_, u, h⟩ => ⟨u, h⟩, fun ⟨u, h⟩ => ⟨(), u, h⟩⟩

/-- A 16-bit pop that completes is two octet pops, low octet first (R123, R127). -/
theorem popWord_eq_ok {k : StackSpec} {v : Word} {s t : State} :
    (popWord k).run s = .ok v t ↔
      ∃ l u h, (popOctet k).run s = .ok l u ∧ (popOctet k).run u = .ok h t ∧ joinOctets h l = v := by
  constructor
  · intro h
    obtain ⟨l, u, hl, h⟩ := bind_eq_ok.1 h
    obtain ⟨h', w, hh, h⟩ := bind_eq_ok.1 h
    cases h
    exact ⟨l, u, h', hl, hh, rfl⟩
  · rintro ⟨l, u, h, hl, hh, rfl⟩
    rw [popWord, bind_ok hl, bind_ok hh, EStateM.run_pure]

/-- A 16-bit read that completes: high octet first (R8). -/
theorem readWord_eq_ok {a v : Word} {s t : State} :
    (readWord a).run s = .ok v t ↔
      ∃ h u l, (read a).run s = .ok h u ∧ (read (a + 1)).run u = .ok l t ∧ joinOctets h l = v := by
  constructor
  · intro h
    obtain ⟨h', u, hh, h⟩ := bind_eq_ok.1 h
    obtain ⟨l, w, hl, h⟩ := bind_eq_ok.1 h
    cases h
    exact ⟨h', u, l, hh, hl, rfl⟩
  · rintro ⟨h, u, l, hh, hl, rfl⟩
    rw [readWord, bind_ok hh, bind_ok hl, EStateM.run_pure]

/-- A 16-bit write that completes: high octet first (R8). -/
theorem writeWord_eq_ok {a v : Word} {s t : State} :
    (writeWord a v).run s = .ok () t ↔
      ∃ u, (write a (highOctet v)).run s = .ok () u ∧ (write (a + 1) (lowOctet v)).run u = .ok () t := by
  rw [writeWord, bind_eq_ok]
  exact ⟨fun ⟨_, u, h⟩ => ⟨u, h⟩, fun ⟨u, h⟩ => ⟨(), u, h⟩⟩

/-- A resume that completes loaded the program counter from the vector slot, cleared WAITING and left the core Running
(R246). -/
theorem resume_eq_ok {v : Word} {s t : State} :
    (resume v).run s = .ok () t ↔ ∃ h u l w f x y, (read v).run s = .ok h u ∧ (read (v + 1)).run u = .ok l w ∧
      (read flagsAddr).run (w.setPc (joinOctets h l)) = .ok f x ∧ (write flagsAddr (resumeFlags f)).run x = .ok () y ∧
      t = y.setRunState .running := by
  constructor
  · intro hyp
    obtain ⟨h, u, hu, hyp⟩ := bind_eq_ok.1 hyp
    obtain ⟨l, w, hw, hyp⟩ := bind_eq_ok.1 hyp
    rw [bind_ok (jump_run _ _)] at hyp
    obtain ⟨f, x, hx, hyp⟩ := bind_eq_ok.1 hyp
    obtain ⟨_, y, hy, hyp⟩ := bind_eq_ok.1 hyp
    cases hyp
    exact ⟨h, u, l, w, f, x, y, hu, hw, hx, hy, rfl⟩
  · rintro ⟨h, u, l, w, f, x, y, hu, hw, hx, hy, rfl⟩
    rw [resume, bind_ok hu, bind_ok hw, bind_ok (jump_run _ _), bind_ok hx, bind_ok hy, enter_run]

/-! ### Undisturbed states -/

@[simp] theorem undisturbed_setMem (s : State) (m : Memory) : (s.setMem m).undisturbed ↔ s.undisturbed := .rfl

@[simp] theorem undisturbed_setPc (s : State) (v : Word) : (s.setPc v).undisturbed ↔ s.undisturbed := .rfl

@[simp] theorem undisturbed_setRunState (s : State) (r : RunState) :
    (s.setRunState r).undisturbed ↔ s.undisturbed := .rfl

theorem undisturbed_mem {s : State} (h : s.undisturbed) (m : Memory) : (s.setMem m).undisturbed := h

theorem undisturbed_pc {s : State} (h : s.undisturbed) (v : Word) : (s.setPc v).undisturbed := h

theorem interleave_undisturbed {s : State} (h : s.undisturbed) : interleave.run s = .ok () s := by
  have h : s.env.foreign = [] := h
  rw [interleave_run, h]

theorem read_undisturbed {s : State} (h : s.undisturbed) (a : Word) : (read a).run s = (route a).run s := by
  rw [read, bind_ok (interleave_undisturbed h)]

theorem write_undisturbed {s : State} (h : s.undisturbed) (a : Word) (v : Octet) :
    (write a v).run s = (routeWrite a v).run s := by
  rw [write, bind_ok (interleave_undisturbed h)]

theorem read_storage {s : State} (h : s.undisturbed) {a : Word} (ha : inWindow a = false) :
    (read a).run s = .ok (s.mem.peek a.toNat) s := by
  rw [read_undisturbed h, route_storage ha]

theorem write_storage {s : State} (h : s.undisturbed) {a : Word} (ha : inWindow a = false) (v : Octet) :
    (write a v).run s = .ok () (s.setMem (s.mem.poke a.toNat v)) := by
  rw [write_undisturbed h, routeWrite_storage ha]

/-- A bulk read returns the octets of storage in ascending order (R57). -/
theorem bulkReadFrom_undisturbed {s : State} (h : s.undisturbed) (a n : Nat) :
    (bulkReadFrom a n).run s = .ok (s.mem.peekList a n) s := by
  induction n generalizing a with
  | zero => rfl
  | succ n ih =>
    rw [bulkReadFrom, bind_ok (interleave_undisturbed h), bind_ok (fetchOf_run _ _), bind_ok (ih _)]
    rfl

/-- A bulk read inside the address space (R57). -/
theorem bulkRead_undisturbed {s : State} (h : s.undisturbed) {a : Word} {n : Nat} (hf : a.toNat + n ≤ 65536) :
    (bulkRead a n).run s = .ok (s.mem.peekList a.toNat n) s := by
  rw [bulkRead, if_pos ((transferFits_iff a n).2 hf), bulkReadFrom_undisturbed h]

/-- Octets copied straight into storage (R57, R282). -/
theorem placeOctets_undisturbed {s : State} (h : s.undisturbed) (a : Nat) (data : List Octet) :
    (placeOctets a data).run s = .ok () (s.setMem (s.mem.pokeList a data)) := by
  induction data generalizing s a with
  | nil => rfl
  | cons v data ih =>
    rw [placeOctets, bind_ok (interleave_undisturbed h), bind_ok (update_run _ _), ih (undisturbed_mem h _)]
    rfl

/-- A bulk write inside the address space (R57). -/
theorem bulkWrite_undisturbed {s : State} (h : s.undisturbed) {a : Word} {data : List Octet}
    (hf : a.toNat + data.length ≤ 65536) :
    (bulkWrite a data).run s = .ok () (s.setMem (s.mem.pokeList a.toNat data)) := by
  rw [bulkWrite, if_pos ((transferFits_iff a data.length).2 hf), placeOctets_undisturbed h]

/-- A bulk write past the end of the address space (U7). -/
theorem bulkWrite_outside {a : Word} {data : List Octet} (hf : 65536 < a.toNat + data.length) (s : State) :
    (bulkWrite a data).run s = .error (.outside .bulkPastEnd) s := by
  rw [bulkWrite, if_neg (by rw [transferFits_iff]; omega), abort_run]

/-- A bulk read that a device or another agent makes: the octets go to the reader, and nothing else changes (R57). -/
theorem performDeed_bulkRead_undisturbed {s : State} (h : s.undisturbed) {a : Word} {n : Nat}
    (hf : a.toNat + n ≤ 65536) :
    (performDeed (.bulkRead a n)).run s =
      .ok () (s.setEnv { s.env with emitted := s.env.emitted ++ [.copied a (s.mem.peekList a.toNat n)] }) := by
  rw [performDeed, bind_ok (bulkRead_undisturbed h hf), emit_run]

/-- A bulk read past the end of the address space (U7). -/
theorem bulkRead_outside {a : Word} {n : Nat} (hf : 65536 < a.toNat + n) (s : State) :
    (bulkRead a n).run s = .error (.outside .bulkPastEnd) s := by
  rw [bulkRead, if_neg (by rw [transferFits_iff]; omega), abort_run]

theorem takeFault_undisturbed {α : Type} {s : State} (h : s.undisturbed) (c : Cause) :
    (takeFault c : Micro α).run s =
      .error .taken ((s.setMem (s.mem.poke flagsAddr.toNat (withFault s.flags c))).setRunState .faulted) := by
  rw [takeFault, bind_ok (read_storage h flagsAddr_outside), bind_ok (write_storage h flagsAddr_outside _),
    bind_ok (enter_run _ _), abort_run]
  rfl

theorem pushOctet_undisturbed {k : StackSpec} (hk : k.isStack) {s : State} (h : s.undisturbed)
    (hd : s.depth k < stackMax) (v : Octet) :
    (pushOctet k v).run s = .ok () (s.setMem ((s.mem.poke (k.base.toNat + s.depth k) v).poke k.depthAddr.toNat
      (s.mem.peek k.depthAddr.toNat + 1))) := by
  unfold State.depth at hd
  rw [pushOctet, bind_ok (read_storage h (depthAddr_outside hk)), if_neg (by omega),
    bind_ok (write_storage h (slotAddr_outside hk _) v),
    write_storage (undisturbed_mem h _) (depthAddr_outside hk), slotAddr_toNat hk]
  rfl

theorem pushOctet_full {k : StackSpec} {s : State} (hk : k.isStack) (h : s.undisturbed)
    (hd : stackMax ≤ s.depth k) (v : Octet) : (pushOctet k v).run s = (takeFault k.overflow).run s := by
  unfold State.depth at hd
  rw [pushOctet, bind_ok (read_storage h (depthAddr_outside hk)), if_pos hd]

theorem popOctet_undisturbed {k : StackSpec} (hk : k.isStack) {s : State} (h : s.undisturbed)
    (hd : 0 < s.depth k) :
    (popOctet k).run s = .ok (s.mem.peek (k.base.toNat + (s.depth k - 1)))
      (s.setMem (s.mem.poke k.depthAddr.toNat (s.mem.peek k.depthAddr.toNat - 1))) := by
  unfold State.depth at hd
  have hne : s.mem.peek k.depthAddr.toNat ≠ 0 := by rintro e; rw [e] at hd; exact absurd hd (by decide)
  have hsub : (s.mem.peek k.depthAddr.toNat - 1).toNat = s.depth k - 1 := by
    unfold State.depth; bv_omega
  rw [popOctet, bind_ok (read_storage h (depthAddr_outside hk)), if_neg hne,
    bind_ok (write_storage h (depthAddr_outside hk) _),
    read_storage (undisturbed_mem h _) (slotAddr_outside hk _), slotAddr_toNat hk, hsub,
    State.setMem_mem, Memory.peek_poke_other]
  rcases hk with rfl | rfl <;> simp [dataStack, returnStack, dsBase, rsBase, dspAddr, rspAddr] <;> omega

theorem popOctet_empty {k : StackSpec} (hk : k.isStack) {s : State} (h : s.undisturbed) (hd : s.depth k = 0) :
    (popOctet k).run s = (takeFault k.underflow).run s := by
  have hz : s.mem.peek k.depthAddr.toNat = 0 := BitVec.eq_of_toNat_eq hd
  rw [popOctet, bind_ok (read_storage h (depthAddr_outside hk)), if_pos hz]

/-- A resume from a vector slot in storage (R246). -/
theorem resume_undisturbed {s : State} (h : s.undisturbed) {v : Word} (hv : inWindow v = false)
    (hv' : inWindow (v + 1) = false) :
    (resume v).run s = .ok () (((s.setPc (joinOctets (s.mem.peek v.toNat) (s.mem.peek (v + 1).toNat))).setMem
      (s.mem.poke flagsAddr.toNat (resumeFlags s.flags))).setRunState .running) := by
  rw [resume, bind_ok (read_storage h hv), bind_ok (read_storage h hv'), bind_ok (jump_run _ _),
    bind_ok (read_storage (undisturbed_pc h _) flagsAddr_outside),
    bind_ok (write_storage (undisturbed_pc h _) flagsAddr_outside _), enter_run]
  rfl

end Sys2Proof.Machine
end

