-- ==== Sys2Proof/Laws/Keeps.lean ====
section
/-! SUPPORT. The case split over the instructions, made once: a property that the dispatcher's two accesses and the
registers of the core keep is kept by every instruction and by every move of the core. -/

namespace Sys2Proof.Machine

/-- A property of states that the core's octet accesses keep, and its writes of `pc` and `run_state`. -/
structure Stable (P : State → Prop) : Prop where
  read : ∀ a, Micro.Keeps P (read a)
  write : ∀ a v, Micro.Keeps P (write a v)
  pc : ∀ s v, P s → P (s.setPc v)
  run : ∀ s r, P s → P (s.setRunState r)

section
variable {P : State → Prop} (h : Stable P)
include h

theorem Stable.jump (t : Word) : Micro.Keeps P (jump t) := fun _ hs => h.pc _ _ hs

theorem Stable.advance (n : Word) : Micro.Keeps P (advance n) := fun _ hs => h.pc _ _ hs

theorem Stable.enter (r : RunState) : Micro.Keeps P (enter r) := fun _ hs => h.run _ _ hs

theorem Stable.takeFault {α : Type} (c : Cause) : Micro.Keeps P (takeFault c : Micro α) :=
  (h.read _).bind fun _ => (h.write _ _).bind fun _ => (h.enter _).bind fun _ => Micro.Keeps.abort _

theorem Stable.resume (v : Word) : Micro.Keeps P (resume v) :=
  (h.read _).bind fun _ => (h.read _).bind fun _ => (h.jump _).bind fun _ => (h.read _).bind fun _ =>
    (h.write _ _).bind fun _ => h.enter _

theorem Stable.pushOctet (k : StackSpec) (v : Octet) : Micro.Keeps P (pushOctet k v) :=
  (h.read _).bind fun _ => by
    split
    · exact h.takeFault _
    · exact (h.write _ _).bind fun _ => h.write _ _

theorem Stable.popOctet (k : StackSpec) : Micro.Keeps P (popOctet k) :=
  (h.read _).bind fun _ => by
    split
    · exact h.takeFault _
    · exact (h.write _ _).bind fun _ => h.read _

theorem Stable.pushWord (k : StackSpec) (v : Word) : Micro.Keeps P (pushWord k v) :=
  (h.pushOctet _ _).bind fun _ => h.pushOctet _ _

theorem Stable.popWord (k : StackSpec) : Micro.Keeps P (popWord k) :=
  (h.popOctet _).bind fun _ => (h.popOctet _).bind fun _ => Micro.Keeps.pure _

theorem Stable.push8 (v : Octet) : Micro.Keeps P (push8 v) := h.pushOctet _ _

theorem Stable.pop8 : Micro.Keeps P pop8 := h.popOctet _

theorem Stable.push16 (v : Word) : Micro.Keeps P (push16 v) := h.pushWord _ _

theorem Stable.pop16 : Micro.Keeps P pop16 := h.popWord _

theorem Stable.rpush16 (v : Word) : Micro.Keeps P (rpush16 v) := h.pushWord _ _

theorem Stable.rpop16 : Micro.Keeps P rpop16 := h.popWord _

theorem Stable.readWord (a : Word) : Micro.Keeps P (readWord a) :=
  (h.read _).bind fun _ => (h.read _).bind fun _ => Micro.Keeps.pure _

theorem Stable.writeWord (a v : Word) : Micro.Keeps P (writeWord a v) :=
  (h.write _ _).bind fun _ => h.write _ _

theorem Stable.readOctets (a : Word) (n : Nat) : Micro.Keeps P (readOctets a n) := by
  induction n generalizing a with
  | zero => exact Micro.Keeps.pure _
  | succ n ih => exact (h.read _).bind fun _ => (ih _).bind fun _ => Micro.Keeps.pure _

theorem Stable.fetchInstr : Micro.Keeps P fetchInstr :=
  (Micro.Keeps.fetchOf _).bind fun _ => (h.read _).bind fun _ => by
    split
    · exact h.takeFault _
    · refine (h.readOctets _ _).bind fun _ => ?_
      split
      · exact Micro.Keeps.pure _
      · exact h.takeFault _

theorem Stable.binary8 (f : Octet → Octet → Octet) : Micro.Keeps P (binary8 f) :=
  h.pop8.bind fun _ => h.pop8.bind fun _ => (h.push8 _).bind fun _ => h.advance _

theorem Stable.binary16 (f : Word → Word → Word) : Micro.Keeps P (binary16 f) :=
  h.pop16.bind fun _ => h.pop16.bind fun _ => (h.push16 _).bind fun _ => h.advance _

theorem Stable.divide8 (f : Octet → Octet → Octet) : Micro.Keeps P (divide8 f) :=
  h.pop8.bind fun _ => h.pop8.bind fun _ => by
    split
    · exact h.takeFault _
    · exact (h.push8 _).bind fun _ => h.advance _

theorem Stable.divide16 (f : Word → Word → Word) : Micro.Keeps P (divide16 f) :=
  h.pop16.bind fun _ => h.pop16.bind fun _ => by
    split
    · exact h.takeFault _
    · exact (h.push16 _).bind fun _ => h.advance _

theorem Stable.shiftWord (f : Word → Octet → Word) : Micro.Keeps P (shiftWord f) :=
  h.pop8.bind fun _ => h.pop16.bind fun _ => (h.push16 _).bind fun _ => h.advance _

theorem Stable.compare8 (rel : Octet → Octet → Bool) : Micro.Keeps P (compare8 rel) :=
  h.pop8.bind fun _ => h.pop8.bind fun _ => (h.push8 _).bind fun _ => h.advance _

theorem Stable.compare16 (rel : Word → Word → Bool) : Micro.Keeps P (compare16 rel) :=
  h.pop16.bind fun _ => h.pop16.bind fun _ => (h.push8 _).bind fun _ => h.advance _

theorem Stable.jumpIf (taken : Octet → Bool) : Micro.Keeps P (jumpIf taken) :=
  h.pop8.bind fun _ => h.pop16.bind fun _ => by
    split
    · exact h.jump _
    · exact h.advance _

/-- Every instruction keeps a stable property. -/
theorem Stable.exec {i : Instr} {s t : State} (hs : P s) (e : exec i s = .next t) : P t := by
  cases i with
  | halt => exact ((h.read _).bind fun _ => (h.write _ _).bind fun _ => (h.advance _).bind fun _ => h.enter _).finish hs e
  | yield => exact ((h.read _).bind fun _ => (h.write _ _).bind fun _ => (h.advance _).bind fun _ => h.enter _).finish hs e
  | drop => exact (h.pop8.bind fun _ => h.advance _).finish hs e
  | drop16 => exact (h.pop16.bind fun _ => h.advance _).finish hs e
  | dup => exact (h.pop8.bind fun _ => (h.push8 _).bind fun _ => (h.push8 _).bind fun _ => h.advance _).finish hs e
  | dup16 => exact (h.pop16.bind fun _ => (h.push16 _).bind fun _ => (h.push16 _).bind fun _ => h.advance _).finish hs e
  | swap =>
    exact (h.pop8.bind fun _ => h.pop8.bind fun _ => (h.push8 _).bind fun _ => (h.push8 _).bind fun _ =>
      h.advance _).finish hs e
  | swap16 =>
    exact (h.pop16.bind fun _ => h.pop16.bind fun _ => (h.push16 _).bind fun _ => (h.push16 _).bind fun _ =>
      h.advance _).finish hs e
  | over8 =>
    exact (h.pop8.bind fun _ => h.pop8.bind fun _ => (h.push8 _).bind fun _ => (h.push8 _).bind fun _ =>
      (h.push8 _).bind fun _ => h.advance _).finish hs e
  | over16 =>
    exact (h.pop16.bind fun _ => h.pop16.bind fun _ => (h.push16 _).bind fun _ => (h.push16 _).bind fun _ =>
      (h.push16 _).bind fun _ => h.advance _).finish hs e
  | tor => exact (h.pop16.bind fun _ => (h.rpush16 _).bind fun _ => h.advance _).finish hs e
  | fromr => exact (h.rpop16.bind fun _ => (h.push16 _).bind fun _ => h.advance _).finish hs e
  | add => exact (h.binary8 _).finish hs e
  | add16 => exact (h.binary16 _).finish hs e
  | sub => exact (h.binary8 _).finish hs e
  | sub16 => exact (h.binary16 _).finish hs e
  | mul => exact (h.binary8 _).finish hs e
  | mul16 => exact (h.binary16 _).finish hs e
  | div => exact (h.divide8 _).finish hs e
  | div16 => exact (h.divide16 _).finish hs e
  | mod => exact (h.divide8 _).finish hs e
  | mod16 => exact (h.divide16 _).finish hs e
  | and => exact (h.binary8 _).finish hs e
  | and16 => exact (h.binary16 _).finish hs e
  | or => exact (h.binary8 _).finish hs e
  | or16 => exact (h.binary16 _).finish hs e
  | xor => exact (h.binary8 _).finish hs e
  | xor16 => exact (h.binary16 _).finish hs e
  | not => exact (h.pop8.bind fun _ => (h.push8 _).bind fun _ => h.advance _).finish hs e
  | not16 => exact (h.pop16.bind fun _ => (h.push16 _).bind fun _ => h.advance _).finish hs e
  | shl => exact (h.binary8 _).finish hs e
  | shl16 => exact (h.shiftWord _).finish hs e
  | shr => exact (h.binary8 _).finish hs e
  | shr16 => exact (h.shiftWord _).finish hs e
  | eq => exact (h.compare8 _).finish hs e
  | eq16 => exact (h.compare16 _).finish hs e
  | neq => exact (h.compare8 _).finish hs e
  | neq16 => exact (h.compare16 _).finish hs e
  | gt => exact (h.compare8 _).finish hs e
  | gt16 => exact (h.compare16 _).finish hs e
  | lt => exact (h.compare8 _).finish hs e
  | lt16 => exact (h.compare16 _).finish hs e
  | jz => exact (h.jumpIf _).finish hs e
  | jnz => exact (h.jumpIf _).finish hs e
  | call =>
    exact (h.pop16.bind fun _ => (Micro.Keeps.fetchOf _).bind fun _ => (h.rpush16 _).bind fun _ => h.jump _).finish hs e
  | ret => exact (h.rpop16.bind fun _ => h.jump _).finish hs e
  | push v => exact ((h.push8 _).bind fun _ => h.advance _).finish hs e
  | push16 v => exact ((h.push16 _).bind fun _ => h.advance _).finish hs e
  | load => exact (h.pop16.bind fun _ => (h.read _).bind fun _ => (h.push8 _).bind fun _ => h.advance _).finish hs e
  | load16 =>
    exact (h.pop16.bind fun _ => (h.read _).bind fun _ => (h.push8 _).bind fun _ => (h.read _).bind fun _ =>
      (h.push8 _).bind fun _ => h.advance _).finish hs e
  | store => exact (h.pop16.bind fun _ => h.pop8.bind fun _ => (h.write _ _).bind fun _ => h.advance _).finish hs e
  | store16 => exact (h.pop16.bind fun _ => h.pop16.bind fun _ => (h.writeWord _ _).bind fun _ => h.advance _).finish hs e

/-- One turn of the loop keeps a stable property. -/
theorem Stable.runBoundary {s t : State} (hs : P s) (e : runBoundary s = .next t) : P t := by
  unfold Machine.runBoundary at e
  split at e
  · cases e; exact h.run _ _ hs
  · have hr := h.read flagsAddr s hs
    rcases settle_eq_next.1 e with ⟨f, u, hu, e⟩ | e
    · rw [hu] at hr
      split at e
      · cases e; exact h.run _ _ hr
      · have hf := h.fetchInstr u hr
        rcases settle_eq_next.1 e with ⟨i, w, hw, e⟩ | e
        · rw [hw] at hf; exact h.exec hf e
        · rw [e] at hf; exact hf
    · rw [e] at hr; exact hr

end

/-- A property that storage writes inside the address space, new registers in an attached device, changes of the
surroundings that take no waiting request away, and the registers of the core leave alone. -/
structure Closed (P : State → Prop) : Prop where
  poke : ∀ s (a : Nat) v, a < memSize → P s → P (s.setMem (s.mem.poke a v))
  device : ∀ s n d e, s.deviceAt n = some d → e.kind = d.kind → P s → P (s.setDevice n e)
  env : ∀ s e, s.env.irqs <+: e.irqs → P s → P (s.setEnv e)
  pc : ∀ s v, P s → P (s.setPc v)
  run : ∀ s r, P s → P (s.setRunState r)

section
variable {P : State → Prop} (h : Closed P)
include h

theorem Closed.drawOctet : Micro.Keeps P drawOctet := fun _ hs => h.env _ _ (List.prefix_refl _) hs

theorem Closed.emit (e : Emission) : Micro.Keeps P (emit e) := fun _ hs => h.env _ _ (List.prefix_refl _) hs

theorem Closed.presentIrq (v : Word) : Micro.Keeps P (presentIrq v) := fun _ hs => h.env _ _ (List.prefix_append _ _) hs

theorem Closed.recordMessage (n : BitVec 4) (a b c : Octet) : Micro.Keeps P (recordMessage n a b c) := by
  intro s hs
  rw [recordMessage_run]
  cases hd : s.deviceAt n with
  | none => exact hs
  | some d => cases d with
    | port p => exact h.device _ _ _ _ hd rfl hs
    | external => exact hs
    | terminal t => exact hs

theorem Closed.applyAct (a : Act) : Micro.Keeps P (applyAct a) := by
  intro s hs
  cases a with
  | octetWrite a v => exact h.poke _ _ _ a.isLt hs
  | octetRead a => exact h.env _ _ (List.prefix_refl _) hs
  | irqRequest v => exact h.presentIrq v s hs
  | portRecord n a b c => exact h.recordMessage n a b c s hs

theorem Closed.applyActs (l : List Act) : Micro.Keeps P (applyActs l) := by
  induction l with
  | nil => exact Micro.Keeps.pure _
  | cons a l ih => exact (h.applyAct a).bind fun _ => ih

theorem Closed.interleave : Micro.Keeps P interleave := by
  intro s hs
  rw [interleave_run]
  cases s.env.foreign with
  | nil => exact hs
  | cons acts rest => exact h.applyActs acts _ (h.env _ _ (List.prefix_refl _) hs)

theorem Closed.bulkReadFrom (n a : Nat) : Micro.Keeps P (bulkReadFrom a n) := by
  induction n generalizing a with
  | zero => exact Micro.Keeps.pure _
  | succ n ih =>
    exact h.interleave.bind fun _ => (Micro.Keeps.fetchOf _).bind fun _ => (ih _).bind fun _ => Micro.Keeps.pure _

theorem Closed.bulkRead (a : Word) (n : Nat) : Micro.Keeps P (bulkRead a n) := by
  unfold Machine.bulkRead
  split
  · exact h.bulkReadFrom _ _
  · exact Micro.Keeps.abort _

theorem Closed.placeOctets (data : List Octet) (a : Nat) (ha : a + data.length ≤ memSize) :
    Micro.Keeps P (placeOctets a data) := by
  induction data generalizing a with
  | nil => exact Micro.Keeps.pure _
  | cons v data ih =>
    simp only [List.length_cons] at ha
    exact h.interleave.bind fun _ => (Micro.Keeps.update fun s => h.poke s a v (by omega)).bind fun _ => ih _ (by omega)

theorem Closed.bulkWrite (a : Word) (data : List Octet) : Micro.Keeps P (bulkWrite a data) := by
  unfold Machine.bulkWrite
  split
  · exact h.placeOctets _ _ (of_decide_eq_true ‹_›)
  · exact Micro.Keeps.abort _

theorem Closed.performDeed (d : Deed) : Micro.Keeps P (performDeed d) := by
  cases d with
  | bulkWrite a data => exact h.bulkWrite a data
  | bulkRead a n => exact (h.bulkRead a n).bind fun _ => h.emit _
  | irqRequest v => exact h.presentIrq v
  | portRecord n a b c => exact h.recordMessage n a b c

theorem Closed.performDeeds (l : List Deed) : Micro.Keeps P (performDeeds l) := by
  induction l with
  | nil => exact Micro.Keeps.pure _
  | cons d l ih => exact (h.performDeed d).bind fun _ => ih

theorem Closed.awaitReply : Micro.Keeps P awaitReply := by
  intro s hs
  rw [awaitReply_run]
  cases s.env.replies with
  | nil => exact h.drawOctet s hs
  | cons r rest =>
    refine (h.performDeeds r.deeds).bind (fun _ => ?_) _ (h.env _ _ (List.prefix_refl _) hs)
    split
    · exact Micro.Keeps.pure _
    · exact Micro.Keeps.abort _

theorem Closed.deviceRead (n : BitVec 4) (d : Device) (r : BitVec 4) : Micro.Keeps P (deviceRead n d r) := by
  cases d with
  | external => exact (h.emit _).bind fun _ => h.awaitReply
  | terminal t =>
    show Micro.Keeps P (terminalRead r)
    unfold terminalRead
    split
    · exact Micro.Keeps.pure _
    · exact h.drawOctet
  | port p =>
    show Micro.Keeps P (portRead p r)
    unfold portRead
    split <;> first | exact Micro.Keeps.pure _ | exact h.drawOctet

theorem Closed.portSend (p : Port) : Micro.Keeps P (portSend p) := by
  refine (h.bulkRead _ _).bind fun _ => (h.emit _).bind fun _ => ?_
  split
  · exact Micro.Keeps.abort _
  · exact h.awaitReply.bind fun _ => Micro.Keeps.pure _

theorem Closed.deviceWrite (n : BitVec 4) (d : Device) (r : BitVec 4) (v : Octet) {s : State}
    (hd : s.deviceAt n = some d) (hs : P s) : Post P ((deviceWrite n d r v).run s) := by
  cases d with
  | external => exact ((h.emit _).bind fun _ => h.awaitReply.bind fun _ => Micro.Keeps.pure _) s hs
  | terminal t =>
    show Post P ((terminalWrite n t r v).run s)
    unfold terminalWrite
    split <;> first | exact h.device _ _ _ _ hd rfl hs | exact ((h.bulkRead _ _).bind fun _ => h.emit _) s hs
  | port p =>
    show Post P ((portWrite n p r v).run s)
    unfold portWrite
    split <;> first | exact h.device _ _ _ _ hd rfl hs | exact h.portSend _ s hs | exact hs

/-- A closed property is kept by the dispatcher's two accesses, so it is stable. -/
theorem Closed.stable : Stable P := by
  refine ⟨fun a => h.interleave.bind fun _ => ?_, fun a v => h.interleave.bind fun _ => ?_, h.pc, h.run⟩
  · intro s hs
    by_cases hw : inWindow a = true
    · cases hd : s.deviceAt (windowSlot a) with
      | none => rw [route_empty hw hd]; exact hs
      | some d => rw [route_device hw hd]; exact h.deviceRead _ _ _ s hs
    · rw [route_storage (by simpa using hw)]; exact hs
  · intro s hs
    by_cases hw : inWindow a = true
    · cases hd : s.deviceAt (windowSlot a) with
      | none => rw [routeWrite_empty hw v hd]; exact hs
      | some d => rw [routeWrite_device hw v hd]; exact h.deviceWrite _ _ _ _ hd hs
    · rw [routeWrite_storage (by simpa using hw)]; exact h.poke _ _ _ a.isLt hs

/-- A move of the core keeps a closed property, if the acceptance of a request does. -/
theorem Closed.coreMove {s t : State} (hs : P s) (accept : s.runState = .waiting → ∀ e, P (s.setEnv e))
    (e : coreMove s = .next t) : P t := by
  unfold Machine.coreMove at e
  split at e
  · cases e; exact hs
  · exact h.stable.runBoundary hs e
  · rename_i hw
    unfold parked at e
    split at e
    · cases e; exact hs
    · exact (h.stable.resume _).finish (accept hw _) e
  · cases e; exact hs
  · cases e; exact hs

/-- A step keeps a closed property, if the acceptance of a request, the host's two latches and a new device do. -/
theorem Closed.step {s t : State} (hs : P s) (accept : s.runState = .waiting → ∀ e, P (s.setEnv e))
    (stop : ∀ u, P u → P (u.setStopReq true)) (trace : ∀ u b, P u → P (u.setTrace b))
    (attach : ∀ u n k, u.deviceAt n = none → P u → P (u.setDevice n (attached k))) (e : step s = .next t) : P t := by
  unfold Machine.step machineStep at e
  split at e
  · exact h.coreMove hs accept e
  · rename_i i rest _
    have hs : P (s.setEnv { s.env with inputs := rest }) := h.env _ _ (List.prefix_refl _) hs
    cases i with
    | core => exact h.coreMove hs (fun hw e => accept hw e) e
    | load image =>
      simp only [acceptInput, hostLoad] at e
      split at e
      · cases e
      · split at e
        · cases e
        · rename_i hf
          have hf : image.length ≤ 64512 := by simpa [imageFits_iff] using hf
          exact ((h.placeOctets _ _ (by simp [imageBase, memSize]; omega)).bind fun _ =>
            h.placeOctets _ _ (by decide)).finish hs e
    | attach n k =>
      simp only [acceptInput, hostAttach] at e
      split at e
      · cases e
      · split at e
        · cases e
        · rename_i hn
          cases e; exact attach _ _ _ (by simpa using hn) hs
    | run =>
      simp only [acceptInput, hostRun] at e
      split at e
      · cases e
      · exact ((h.stable.readWord _).bind fun _ => (h.stable.jump _).bind fun _ => h.stable.enter _).finish hs e
    | stop => cases e; exact stop _ hs
    | setTrace b => cases e; exact trace _ _ hs
    | deed d => exact (h.performDeed d).finish hs e
    | deliver n sender signal payload =>
      simp only [acceptInput, deliverMessage] at e
      split at e
      · cases e
      · split at e
        · exact (h.performDeeds _).finish hs e
        · cases e

end

end Sys2Proof.Machine
end

