-- ==== Sys2Proof/Laws/PerInstr.lean ====
section
/-! SUPPORT. Statements made per instruction, one lemma per constructor of Instr. -/

namespace Sys2Proof.Laws

/-- The encoding's first octet alone says how many octets follow it (R92). -/
def Length.Statement (i : Instr) : Prop :=
  ∃ op imm, encode i = op :: imm ∧ immediateOctets op = some imm.length

theorem Length.halt : Length.Statement .halt := ⟨_, _, rfl, by decide⟩
theorem Length.yield : Length.Statement .yield := ⟨_, _, rfl, by decide⟩
theorem Length.drop : Length.Statement .drop := ⟨_, _, rfl, by decide⟩
theorem Length.drop16 : Length.Statement .drop16 := ⟨_, _, rfl, by decide⟩
theorem Length.dup : Length.Statement .dup := ⟨_, _, rfl, by decide⟩
theorem Length.dup16 : Length.Statement .dup16 := ⟨_, _, rfl, by decide⟩
theorem Length.swap : Length.Statement .swap := ⟨_, _, rfl, by decide⟩
theorem Length.swap16 : Length.Statement .swap16 := ⟨_, _, rfl, by decide⟩
theorem Length.over8 : Length.Statement .over8 := ⟨_, _, rfl, by decide⟩
theorem Length.over16 : Length.Statement .over16 := ⟨_, _, rfl, by decide⟩
theorem Length.tor : Length.Statement .tor := ⟨_, _, rfl, by decide⟩
theorem Length.fromr : Length.Statement .fromr := ⟨_, _, rfl, by decide⟩
theorem Length.add : Length.Statement .add := ⟨_, _, rfl, by decide⟩
theorem Length.add16 : Length.Statement .add16 := ⟨_, _, rfl, by decide⟩
theorem Length.sub : Length.Statement .sub := ⟨_, _, rfl, by decide⟩
theorem Length.sub16 : Length.Statement .sub16 := ⟨_, _, rfl, by decide⟩
theorem Length.mul : Length.Statement .mul := ⟨_, _, rfl, by decide⟩
theorem Length.mul16 : Length.Statement .mul16 := ⟨_, _, rfl, by decide⟩
theorem Length.div : Length.Statement .div := ⟨_, _, rfl, by decide⟩
theorem Length.div16 : Length.Statement .div16 := ⟨_, _, rfl, by decide⟩
theorem Length.mod : Length.Statement .mod := ⟨_, _, rfl, by decide⟩
theorem Length.mod16 : Length.Statement .mod16 := ⟨_, _, rfl, by decide⟩
theorem Length.and : Length.Statement .and := ⟨_, _, rfl, by decide⟩
theorem Length.and16 : Length.Statement .and16 := ⟨_, _, rfl, by decide⟩
theorem Length.or : Length.Statement .or := ⟨_, _, rfl, by decide⟩
theorem Length.or16 : Length.Statement .or16 := ⟨_, _, rfl, by decide⟩
theorem Length.xor : Length.Statement .xor := ⟨_, _, rfl, by decide⟩
theorem Length.xor16 : Length.Statement .xor16 := ⟨_, _, rfl, by decide⟩
theorem Length.not : Length.Statement .not := ⟨_, _, rfl, by decide⟩
theorem Length.not16 : Length.Statement .not16 := ⟨_, _, rfl, by decide⟩
theorem Length.shl : Length.Statement .shl := ⟨_, _, rfl, by decide⟩
theorem Length.shl16 : Length.Statement .shl16 := ⟨_, _, rfl, by decide⟩
theorem Length.shr : Length.Statement .shr := ⟨_, _, rfl, by decide⟩
theorem Length.shr16 : Length.Statement .shr16 := ⟨_, _, rfl, by decide⟩
theorem Length.eq : Length.Statement .eq := ⟨_, _, rfl, by decide⟩
theorem Length.eq16 : Length.Statement .eq16 := ⟨_, _, rfl, by decide⟩
theorem Length.neq : Length.Statement .neq := ⟨_, _, rfl, by decide⟩
theorem Length.neq16 : Length.Statement .neq16 := ⟨_, _, rfl, by decide⟩
theorem Length.gt : Length.Statement .gt := ⟨_, _, rfl, by decide⟩
theorem Length.gt16 : Length.Statement .gt16 := ⟨_, _, rfl, by decide⟩
theorem Length.lt : Length.Statement .lt := ⟨_, _, rfl, by decide⟩
theorem Length.lt16 : Length.Statement .lt16 := ⟨_, _, rfl, by decide⟩
theorem Length.jz : Length.Statement .jz := ⟨_, _, rfl, by decide⟩
theorem Length.jnz : Length.Statement .jnz := ⟨_, _, rfl, by decide⟩
theorem Length.call : Length.Statement .call := ⟨_, _, rfl, by decide⟩
theorem Length.ret : Length.Statement .ret := ⟨_, _, rfl, by decide⟩
theorem Length.push (imm : Octet) : Length.Statement (.push imm) := ⟨_, _, rfl, rfl⟩
theorem Length.push16 (imm : Word) : Length.Statement (.push16 imm) := ⟨_, _, rfl, rfl⟩
theorem Length.load : Length.Statement .load := ⟨_, _, rfl, by decide⟩
theorem Length.load16 : Length.Statement .load16 := ⟨_, _, rfl, by decide⟩
theorem Length.store : Length.Statement .store := ⟨_, _, rfl, by decide⟩
theorem Length.store16 : Length.Statement .store16 := ⟨_, _, rfl, by decide⟩

end Sys2Proof.Laws
end

