-- ==== Sys2Proof/Tests/Slice0.lean ====
section
/-! SUPPORT. Tests on fixed values: the encodings written out from the opcode table, the checks of well-formedness, the
vectors of spec/95_test_vectors.md, and for every obligation with hypotheses a state that meets them. -/

namespace Sys2Proof.Machine

-- One theorem after the other: checked all at once, the evaluations below need too many threads.
set_option Elab.async false

/-! ### Helpers -/

/-- What a vector shows of a state. -/
structure Seen where
  ds : List Octet
  rs : List Octet
  pc : Word
  flags : Octet
  run : RunState
  deriving DecidableEq, Repr

/-- The octets of a stack's preset: the listed ones from slot 0 on, and their count in the depth octet. -/
def presetStack (m : Memory) (k : StackSpec) (octets : List Octet) : Memory :=
  (m.pokeList k.base.toNat octets).poke k.depthAddr.toNat (BitVec.ofNat 8 octets.length)

/-- A core about to fetch at 0x0400, with the octets there and the stacks preset: how a vector starts. -/
def preset (octets ds rs : List Octet) : State :=
  { State.reset with
    pc := 0x0400
    runState := .running
    mem := presetStack (presetStack (Memory.pokeList [(0, 0x04)] 0x0400 octets) dataStack ds) returnStack rs }

/-- What is seen after a step. -/
def seen : Host.Outcome State Fault Refusal → Option Seen
  | .next t => some ⟨t.ds, t.rs, t.pc, t.flags, t.runState⟩
  | _ => none

/-- A vector: one step from the preset state. -/
def runs (octets ds rs : List Octet) : Option Seen := seen (step (preset octets ds rs))

/-- The storage that the vectors of LOAD and LOAD16 preset. -/
def filled (s : State) : State :=
  s.setMem ((((s.mem.poke 0x0500 0x2A).poke 0x0600 0x24).poke 0x0601 0x68).poke 0xFFFF 0xEE)

/-- A vector of LOAD or LOAD16. -/
def runsFilled (octets ds rs : List Octet) : Option Seen := seen (step (filled (preset octets ds rs)))

/-- The storage octet at an address after a step. -/
def octetAfter (o : Host.Outcome State Fault Refusal) (a : Nat) : Option Octet :=
  match o with
  | .next t => some (t.mem.peek a)
  | _ => none

/-- The storage octet at an address after a vector of STORE or STORE16. -/
def stored (octets ds : List Octet) (a : Nat) : Option Octet := octetAfter (step (preset octets ds [])) a

/-! ### Decoding: every constructor's octets, written out from the opcode table -/

/-- Opcodes 0x00 to 0x0B (R96). -/
theorem test_decode_stack :
    decode [0x00] = .ok (.halt, []) ∧ decode [0x01] = .ok (.yield, []) ∧ decode [0x02] = .ok (.drop, []) ∧
    decode [0x03] = .ok (.drop16, []) ∧ decode [0x04] = .ok (.dup, []) ∧ decode [0x05] = .ok (.dup16, []) ∧
    decode [0x06] = .ok (.swap, []) ∧ decode [0x07] = .ok (.swap16, []) ∧ decode [0x08] = .ok (.over8, []) ∧
    decode [0x09] = .ok (.over16, []) ∧ decode [0x0A] = .ok (.tor, []) ∧ decode [0x0B] = .ok (.fromr, []) := by
  refine ⟨?_, ?_, ?_, ?_, ?_, ?_, ?_, ?_, ?_, ?_, ?_, ?_⟩ <;> rfl

/-- Opcodes 0x10 to 0x19 (R96). -/
theorem test_decode_arithmetic :
    decode [0x10] = .ok (.add, []) ∧ decode [0x11] = .ok (.add16, []) ∧ decode [0x12] = .ok (.sub, []) ∧
    decode [0x13] = .ok (.sub16, []) ∧ decode [0x14] = .ok (.mul, []) ∧ decode [0x15] = .ok (.mul16, []) ∧
    decode [0x16] = .ok (.div, []) ∧ decode [0x17] = .ok (.div16, []) ∧ decode [0x18] = .ok (.mod, []) ∧
    decode [0x19] = .ok (.mod16, []) := by
  refine ⟨?_, ?_, ?_, ?_, ?_, ?_, ?_, ?_, ?_, ?_⟩ <;> rfl

/-- Opcodes 0x1A to 0x25 (R96). -/
theorem test_decode_logic :
    decode [0x1A] = .ok (.and, []) ∧ decode [0x1B] = .ok (.and16, []) ∧ decode [0x1C] = .ok (.or, []) ∧
    decode [0x1D] = .ok (.or16, []) ∧ decode [0x1E] = .ok (.xor, []) ∧ decode [0x1F] = .ok (.xor16, []) ∧
    decode [0x20] = .ok (.not, []) ∧ decode [0x21] = .ok (.not16, []) ∧ decode [0x22] = .ok (.shl, []) ∧
    decode [0x23] = .ok (.shl16, []) ∧ decode [0x24] = .ok (.shr, []) ∧ decode [0x25] = .ok (.shr16, []) := by
  refine ⟨?_, ?_, ?_, ?_, ?_, ?_, ?_, ?_, ?_, ?_, ?_, ?_⟩ <;> rfl

/-- Opcodes 0x40 to 0x4B (R96). -/
theorem test_decode_control :
    decode [0x40] = .ok (.eq, []) ∧ decode [0x41] = .ok (.eq16, []) ∧ decode [0x42] = .ok (.neq, []) ∧
    decode [0x43] = .ok (.neq16, []) ∧ decode [0x44] = .ok (.gt, []) ∧ decode [0x45] = .ok (.gt16, []) ∧
    decode [0x46] = .ok (.lt, []) ∧ decode [0x47] = .ok (.lt16, []) ∧ decode [0x48] = .ok (.jz, []) ∧
    decode [0x49] = .ok (.jnz, []) ∧ decode [0x4A] = .ok (.call, []) ∧ decode [0x4B] = .ok (.ret, []) := by
  refine ⟨?_, ?_, ?_, ?_, ?_, ?_, ?_, ?_, ?_, ?_, ?_, ?_⟩ <;> rfl

/-- Opcodes 0x50 to 0x55 (R96), with what follows left over; the immediate of PUSH16 is big-endian (R93). -/
theorem test_decode_memory :
    decode [0x50, 0x41, 0x10] = .ok (.push 0x41, [0x10]) ∧ decode [0x51, 0x12, 0x34] = .ok (.push16 0x1234, []) ∧
    decode [0x52] = .ok (.load, []) ∧ decode [0x53] = .ok (.load16, []) ∧ decode [0x54] = .ok (.store, []) ∧
    decode [0x55] = .ok (.store16, []) := by
  refine ⟨?_, ?_, ?_, ?_, ?_, ?_⟩ <;> rfl

/-- Words numbered as the opcode table numbers their bits: the first octet lowest. -/
theorem test_decode_table_word :
    decodeTableWord 8 0x4A = some .call ∧ decodeTableWord 16 0x4150 = some (.push 0x41) ∧
    decodeTableWord 24 0x341251 = some (.push16 0x1234) ∧ decodeTableWord 8 0x51 = some (.push16 0x0000) ∧
    decodeTableWord 8 0x0C = none := by decide

/-- No octet begins two rows of the bare table, nor a row and PUSH or PUSH16 (R90). -/
theorem test_rows_distinct : (pushOpcode :: push16Opcode :: bareRows.map Prod.fst).Nodup := by decide +kernel

/-! ### Well-formedness: each check refuses an ill-formed term -/

/-- An image of 64513 octets is too long, one of 64512 is not (R282, U8). -/
theorem test_image_too_long :
    imageFits (List.replicate 64513 0x00) = false ∧ imageFits (List.replicate 64512 0x00) = true := by
  unfold imageFits
  rw [List.length_replicate, List.length_replicate]
  decide

/-- A transfer of two octets from 0xFFFF runs past the end, one of one octet does not (R57, U7). -/
theorem test_transfer_past_end : transferFits 0xFFFF 2 = false ∧ transferFits 0xFFFF 1 = true := by decide

/-- A payload of 256 octets does not fit the length register, one of 255 does (R262). -/
theorem test_payload_too_long :
    payloadFits (List.replicate 256 0x00) = false ∧ payloadFits (List.replicate 255 0x00) = true := by
  unfold payloadFits
  rw [List.length_replicate, List.length_replicate]
  decide

/-- No instruction is ill-formed: the operands are typed by their widths (R93, R98). -/
theorem test_instructions_wf : ∀ i : Instr, i.wf = true := by
  intro i
  cases i with
  | push v => exact decide_eq_true v.isLt
  | push16 v => exact decide_eq_true v.isLt
  | _ => rfl

/-- HALT: vectors V1, V2 of spec/95_test_vectors.md. -/
theorem test_halt :
    runs [0x00] [] [] = some ⟨[], [], 0x0401, 0x00, .halted⟩ ∧
    runs [0x00] [0x01, 0x02] [0x03] = some ⟨[0x01, 0x02], [0x03], 0x0401, 0x00, .halted⟩ := by decide

/-- YIELD: vectors V3 of spec/95_test_vectors.md. -/
theorem test_yield :
    runs [0x01] [] [] = some ⟨[], [], 0x0401, 0x01, .waiting⟩ := by decide

/-- DROP: vectors V4, V5 of spec/95_test_vectors.md. -/
theorem test_drop :
    runs [0x02] [0x11, 0x22] [] = some ⟨[0x11], [], 0x0401, 0x00, .running⟩ ∧
    runs [0x02] [] [] = some ⟨[], [], 0x0400, 0x04, .faulted⟩ := by decide

/-- DROP16: vectors V6, V7 of spec/95_test_vectors.md. -/
theorem test_drop16 :
    runs [0x03] [0x11, 0x22, 0x33] [] = some ⟨[0x11], [], 0x0401, 0x00, .running⟩ ∧
    runs [0x03] [0x11] [] = some ⟨[], [], 0x0400, 0x04, .faulted⟩ := by decide

/-- DUP: vectors V8, V9 of spec/95_test_vectors.md. -/
theorem test_dup :
    runs [0x04] [0x07] [] = some ⟨[0x07, 0x07], [], 0x0401, 0x00, .running⟩ ∧
    runs [0x04] [] [] = some ⟨[], [], 0x0400, 0x04, .faulted⟩ := by decide

/-- DUP16: vectors V10, V11 of spec/95_test_vectors.md. -/
theorem test_dup16 :
    runs [0x05] [0x12, 0x34] [] = some ⟨[0x12, 0x34, 0x12, 0x34], [], 0x0401, 0x00, .running⟩ ∧
    runs [0x05] [0x12] [] = some ⟨[], [], 0x0400, 0x04, .faulted⟩ := by decide

/-- SWAP: vectors V12, V13 of spec/95_test_vectors.md. -/
theorem test_swap :
    runs [0x06] [0x01, 0x02] [] = some ⟨[0x02, 0x01], [], 0x0401, 0x00, .running⟩ ∧
    runs [0x06] [0x01] [] = some ⟨[], [], 0x0400, 0x04, .faulted⟩ := by decide

/-- SWAP16: vectors V14, V15 of spec/95_test_vectors.md. -/
theorem test_swap16 :
    runs [0x07] [0xAA, 0xBB, 0xCC, 0xDD] [] = some ⟨[0xCC, 0xDD, 0xAA, 0xBB], [], 0x0401, 0x00, .running⟩ ∧
    runs [0x07] [0xAA, 0xBB, 0xCC] [] = some ⟨[], [], 0x0400, 0x04, .faulted⟩ := by decide

/-- OVER: vectors V16 of spec/95_test_vectors.md. -/
theorem test_over :
    runs [0x08] [0x01, 0x02] [] = some ⟨[0x01, 0x02, 0x01], [], 0x0401, 0x00, .running⟩ := by decide

/-- OVER16: vectors V17 of spec/95_test_vectors.md. -/
theorem test_over16 :
    runs [0x09] [0xAA, 0xBB, 0xCC, 0xDD] [] = some ⟨[0xAA, 0xBB, 0xCC, 0xDD, 0xAA, 0xBB], [], 0x0401, 0x00, .running⟩ := by decide

/-- TOR: vectors V18, V19 of spec/95_test_vectors.md. -/
theorem test_tor :
    runs [0x0A] [0x04, 0x20] [] = some ⟨[], [0x04, 0x20], 0x0401, 0x00, .running⟩ ∧
    runs [0x0A] [0x04] [] = some ⟨[], [], 0x0400, 0x04, .faulted⟩ := by decide

/-- FROMR: vectors V20, V21, V22 of spec/95_test_vectors.md. -/
theorem test_fromr :
    runs [0x0B] [] [0x04, 0x20] = some ⟨[0x04, 0x20], [], 0x0401, 0x00, .running⟩ ∧
    runs [0x0B] [] [] = some ⟨[], [], 0x0400, 0x10, .faulted⟩ ∧
    runs [0x0B] [] [0x09] = some ⟨[], [], 0x0400, 0x10, .faulted⟩ := by decide

/-- ADD: vectors V23, V24, V45 of spec/95_test_vectors.md. -/
theorem test_add :
    runs [0x10] [0x10, 0x05] [] = some ⟨[0x15], [], 0x0401, 0x00, .running⟩ ∧
    runs [0x10] [0xFF, 0x01] [] = some ⟨[0x00], [], 0x0401, 0x00, .running⟩ ∧
    runs [0x10] [0x05] [] = some ⟨[], [], 0x0400, 0x04, .faulted⟩ := by decide

/-- SUB: vectors V26, V27 of spec/95_test_vectors.md. -/
theorem test_sub :
    runs [0x12] [0x05, 0x03] [] = some ⟨[0x02], [], 0x0401, 0x00, .running⟩ ∧
    runs [0x12] [0x03, 0x05] [] = some ⟨[0xFE], [], 0x0401, 0x00, .running⟩ := by decide

/-- MUL: vectors V29, V31 of spec/95_test_vectors.md. -/
theorem test_mul :
    runs [0x14] [0x07, 0x06] [] = some ⟨[0x2A], [], 0x0401, 0x00, .running⟩ ∧
    runs [0x14] [0xFF, 0xFF] [] = some ⟨[0x01], [], 0x0401, 0x00, .running⟩ := by decide

/-- DIV: vectors V33, V34 of spec/95_test_vectors.md. -/
theorem test_div :
    runs [0x16] [0xFF, 0x10] [] = some ⟨[0x0F], [], 0x0401, 0x00, .running⟩ ∧
    runs [0x16] [0x07, 0x00] [] = some ⟨[], [], 0x0400, 0x20, .faulted⟩ := by decide

/-- MOD: vectors V38, V39 of spec/95_test_vectors.md. -/
theorem test_mod :
    runs [0x18] [0xFF, 0x10] [] = some ⟨[0x0F], [], 0x0401, 0x00, .running⟩ ∧
    runs [0x18] [0x07, 0x00] [] = some ⟨[], [], 0x0400, 0x20, .faulted⟩ := by decide

/-- AND: vectors V41 of spec/95_test_vectors.md. -/
theorem test_and :
    runs [0x1A] [0xCC, 0xAA] [] = some ⟨[0x88], [], 0x0401, 0x00, .running⟩ := by decide

/-- OR: vectors V42 of spec/95_test_vectors.md. -/
theorem test_or :
    runs [0x1C] [0xCC, 0xAA] [] = some ⟨[0xEE], [], 0x0401, 0x00, .running⟩ := by decide

/-- XOR: vectors V43 of spec/95_test_vectors.md. -/
theorem test_xor :
    runs [0x1E] [0xCC, 0xAA] [] = some ⟨[0x66], [], 0x0401, 0x00, .running⟩ := by decide

/-- ADD16: vectors V47, V49, V63 of spec/95_test_vectors.md. -/
theorem test_add16 :
    runs [0x11] [0x12, 0x34, 0x01, 0x01] [] = some ⟨[0x13, 0x35], [], 0x0401, 0x00, .running⟩ ∧
    runs [0x11] [0x00, 0xFF, 0x00, 0x01] [] = some ⟨[0x01, 0x00], [], 0x0401, 0x00, .running⟩ ∧
    runs [0x11] [0x01, 0x02, 0x03] [] = some ⟨[], [], 0x0400, 0x04, .faulted⟩ := by decide

/-- SUB16: vectors V50, V51 of spec/95_test_vectors.md. -/
theorem test_sub16 :
    runs [0x13] [0x10, 0x00, 0x00, 0x01] [] = some ⟨[0x0F, 0xFF], [], 0x0401, 0x00, .running⟩ ∧
    runs [0x13] [0x00, 0x00, 0x00, 0x01] [] = some ⟨[0xFF, 0xFF], [], 0x0401, 0x00, .running⟩ := by decide

/-- MUL16: vectors V53, V54 of spec/95_test_vectors.md. -/
theorem test_mul16 :
    runs [0x15] [0x12, 0x34, 0x00, 0x10] [] = some ⟨[0x23, 0x40], [], 0x0401, 0x00, .running⟩ ∧
    runs [0x15] [0xFF, 0xFF, 0xFF, 0xFF] [] = some ⟨[0x00, 0x01], [], 0x0401, 0x00, .running⟩ := by decide

/-- DIV16: vectors V56, V57, V64 of spec/95_test_vectors.md. -/
theorem test_div16 :
    runs [0x17] [0xFF, 0xFF, 0x01, 0x00] [] = some ⟨[0x00, 0xFF], [], 0x0401, 0x00, .running⟩ ∧
    runs [0x17] [0x12, 0x34, 0x00, 0x00] [] = some ⟨[], [], 0x0400, 0x20, .faulted⟩ ∧
    runs [0x17] [0x00, 0x00, 0x00] [] = some ⟨[], [], 0x0400, 0x04, .faulted⟩ := by decide

/-- MOD16: vectors V58, V59 of spec/95_test_vectors.md. -/
theorem test_mod16 :
    runs [0x19] [0x12, 0x34, 0x00, 0x10] [] = some ⟨[0x00, 0x04], [], 0x0401, 0x00, .running⟩ ∧
    runs [0x19] [0x12, 0x34, 0x00, 0x00] [] = some ⟨[], [], 0x0400, 0x20, .faulted⟩ := by decide

/-- AND16: vectors V60 of spec/95_test_vectors.md. -/
theorem test_and16 :
    runs [0x1B] [0x12, 0x34, 0x0F, 0xF0] [] = some ⟨[0x02, 0x30], [], 0x0401, 0x00, .running⟩ := by decide

/-- OR16: vectors V61 of spec/95_test_vectors.md. -/
theorem test_or16 :
    runs [0x1D] [0x12, 0x34, 0x0F, 0xF0] [] = some ⟨[0x1F, 0xF4], [], 0x0401, 0x00, .running⟩ := by decide

/-- XOR16: vectors V62 of spec/95_test_vectors.md. -/
theorem test_xor16 :
    runs [0x1F] [0x12, 0x34, 0x0F, 0xF0] [] = some ⟨[0x1D, 0xC4], [], 0x0401, 0x00, .running⟩ := by decide

/-- NOT: vectors V65 of spec/95_test_vectors.md. -/
theorem test_not :
    runs [0x20] [0x0F] [] = some ⟨[0xF0], [], 0x0401, 0x00, .running⟩ := by decide

/-- NOT16: vectors V67, V68 of spec/95_test_vectors.md. -/
theorem test_not16 :
    runs [0x21] [0x12, 0x34] [] = some ⟨[0xED, 0xCB], [], 0x0401, 0x00, .running⟩ ∧
    runs [0x21] [0x12] [] = some ⟨[], [], 0x0400, 0x04, .faulted⟩ := by decide

/-- SHL: vectors V70, V71 of spec/95_test_vectors.md. -/
theorem test_shl :
    runs [0x22] [0x01, 0x07] [] = some ⟨[0x80], [], 0x0401, 0x00, .running⟩ ∧
    runs [0x22] [0x01, 0x08] [] = some ⟨[0x00], [], 0x0401, 0x00, .running⟩ := by decide

/-- SHR: vectors V74, V76 of spec/95_test_vectors.md. -/
theorem test_shr :
    runs [0x24] [0x81, 0x01] [] = some ⟨[0x40], [], 0x0401, 0x00, .running⟩ ∧
    runs [0x24] [0x80, 0x08] [] = some ⟨[0x00], [], 0x0401, 0x00, .running⟩ := by decide

/-- SHL16: vectors V79, V80, V88 of spec/95_test_vectors.md. -/
theorem test_shl16 :
    runs [0x23] [0x00, 0x01, 0x0F] [] = some ⟨[0x80, 0x00], [], 0x0401, 0x00, .running⟩ ∧
    runs [0x23] [0x00, 0x01, 0x10] [] = some ⟨[0x00, 0x00], [], 0x0401, 0x00, .running⟩ ∧
    runs [0x23] [0x12, 0x04] [] = some ⟨[], [], 0x0400, 0x04, .faulted⟩ := by decide

/-- SHR16: vectors V83, V85 of spec/95_test_vectors.md. -/
theorem test_shr16 :
    runs [0x25] [0x80, 0x01, 0x01] [] = some ⟨[0x40, 0x00], [], 0x0401, 0x00, .running⟩ ∧
    runs [0x25] [0x80, 0x00, 0x10] [] = some ⟨[0x00, 0x00], [], 0x0401, 0x00, .running⟩ := by decide

/-- EQ: vectors V89, V92 of spec/95_test_vectors.md. -/
theorem test_eq :
    runs [0x40] [0x05, 0x05] [] = some ⟨[0x01], [], 0x0401, 0x00, .running⟩ ∧
    runs [0x40] [0x80, 0x7F] [] = some ⟨[0x00], [], 0x0401, 0x00, .running⟩ := by decide

/-- NEQ: vectors V94, V95 of spec/95_test_vectors.md. -/
theorem test_neq :
    runs [0x42] [0x05, 0x05] [] = some ⟨[0x00], [], 0x0401, 0x00, .running⟩ ∧
    runs [0x42] [0x05, 0x03] [] = some ⟨[0x01], [], 0x0401, 0x00, .running⟩ := by decide

/-- GT: vectors V99, V101, V102 of spec/95_test_vectors.md. -/
theorem test_gt :
    runs [0x44] [0x05, 0x05] [] = some ⟨[0x00], [], 0x0401, 0x00, .running⟩ ∧
    runs [0x44] [0x03, 0x05] [] = some ⟨[0x00], [], 0x0401, 0x00, .running⟩ ∧
    runs [0x44] [0x80, 0x7F] [] = some ⟨[0x01], [], 0x0401, 0x00, .running⟩ := by decide

/-- LT: vectors V104, V106, V107 of spec/95_test_vectors.md. -/
theorem test_lt :
    runs [0x46] [0x05, 0x05] [] = some ⟨[0x00], [], 0x0401, 0x00, .running⟩ ∧
    runs [0x46] [0x03, 0x05] [] = some ⟨[0x01], [], 0x0401, 0x00, .running⟩ ∧
    runs [0x46] [0x80, 0x7F] [] = some ⟨[0x00], [], 0x0401, 0x00, .running⟩ := by decide

/-- EQ16: vectors V109, V112, V125 of spec/95_test_vectors.md. -/
theorem test_eq16 :
    runs [0x41] [0x12, 0x34, 0x12, 0x34] [] = some ⟨[0x01], [], 0x0401, 0x00, .running⟩ ∧
    runs [0x41] [0x01, 0x00, 0x00, 0xFF] [] = some ⟨[0x00], [], 0x0401, 0x00, .running⟩ ∧
    runs [0x41] [0x01, 0x02, 0x03] [] = some ⟨[], [], 0x0400, 0x04, .faulted⟩ := by decide

/-- NEQ16: vectors V113, V116 of spec/95_test_vectors.md. -/
theorem test_neq16 :
    runs [0x43] [0x12, 0x34, 0x12, 0x34] [] = some ⟨[0x00], [], 0x0401, 0x00, .running⟩ ∧
    runs [0x43] [0x01, 0x00, 0x00, 0xFF] [] = some ⟨[0x01], [], 0x0401, 0x00, .running⟩ := by decide

/-- GT16: vectors V118, V119, V120 of spec/95_test_vectors.md. -/
theorem test_gt16 :
    runs [0x45] [0x12, 0x34, 0x12, 0x35] [] = some ⟨[0x00], [], 0x0401, 0x00, .running⟩ ∧
    runs [0x45] [0x80, 0x00, 0x7F, 0xFF] [] = some ⟨[0x01], [], 0x0401, 0x00, .running⟩ ∧
    runs [0x45] [0x01, 0x00, 0x00, 0xFF] [] = some ⟨[0x01], [], 0x0401, 0x00, .running⟩ := by decide

/-- LT16: vectors V121, V122, V124 of spec/95_test_vectors.md. -/
theorem test_lt16 :
    runs [0x47] [0x12, 0x34, 0x12, 0x34] [] = some ⟨[0x00], [], 0x0401, 0x00, .running⟩ ∧
    runs [0x47] [0x12, 0x34, 0x12, 0x35] [] = some ⟨[0x01], [], 0x0401, 0x00, .running⟩ ∧
    runs [0x47] [0x01, 0x00, 0x00, 0xFF] [] = some ⟨[0x00], [], 0x0401, 0x00, .running⟩ := by decide

/-- JZ: vectors V126, V127, V130 of spec/95_test_vectors.md. -/
theorem test_jz :
    runs [0x48] [0x04, 0x20, 0x00] [] = some ⟨[], [], 0x0420, 0x00, .running⟩ ∧
    runs [0x48] [0x04, 0x20, 0x01] [] = some ⟨[], [], 0x0401, 0x00, .running⟩ ∧
    runs [0x48] [0x20, 0x00] [] = some ⟨[], [], 0x0400, 0x04, .faulted⟩ := by decide

/-- JNZ: vectors V128, V129 of spec/95_test_vectors.md. -/
theorem test_jnz :
    runs [0x49] [0x04, 0x20, 0x00] [] = some ⟨[], [], 0x0401, 0x00, .running⟩ ∧
    runs [0x49] [0x04, 0x20, 0xFF] [] = some ⟨[], [], 0x0420, 0x00, .running⟩ := by decide

/-- CALL: vectors V133, V134 of spec/95_test_vectors.md. -/
theorem test_call :
    runs [0x4A] [0x05, 0x00] [] = some ⟨[], [0x04, 0x01], 0x0500, 0x00, .running⟩ ∧
    runs [0x4A] [0x05] [] = some ⟨[], [], 0x0400, 0x04, .faulted⟩ := by decide

/-- RET: vectors V137, V138, V139 of spec/95_test_vectors.md. -/
theorem test_ret :
    runs [0x4B] [] [0x04, 0x07] = some ⟨[], [], 0x0407, 0x00, .running⟩ ∧
    runs [0x4B] [] [] = some ⟨[], [], 0x0400, 0x10, .faulted⟩ ∧
    runs [0x4B] [] [0x07] = some ⟨[], [], 0x0400, 0x10, .faulted⟩ := by decide

/-- PUSH: vectors V140 of spec/95_test_vectors.md. -/
theorem test_push :
    runs [0x50, 0x41] [] [] = some ⟨[0x41], [], 0x0402, 0x00, .running⟩ := by decide

/-- PUSH16: vectors V143 of spec/95_test_vectors.md. -/
theorem test_push16 :
    runs [0x51, 0x12, 0x34] [] [] = some ⟨[0x12, 0x34], [], 0x0403, 0x00, .running⟩ := by decide

/-- LOAD: vectors V147, V148, V149 of spec/95_test_vectors.md. -/
theorem test_load :
    runsFilled [0x52] [0x05, 0x00] [] = some ⟨[0x2A], [], 0x0401, 0x00, .running⟩ ∧
    runsFilled [0x52] [0x00, 0x02] [] = some ⟨[0x00], [], 0x0401, 0x00, .running⟩ ∧
    runsFilled [0x52] [0x03, 0x25] [] = some ⟨[0x00], [], 0x0401, 0x00, .running⟩ := by decide

/-- LOAD16: vectors V151, V152, V154 of spec/95_test_vectors.md. -/
theorem test_load16 :
    runsFilled [0x53] [0x06, 0x00] [] = some ⟨[0x24, 0x68], [], 0x0401, 0x00, .running⟩ ∧
    runsFilled [0x53] [0xFF, 0xFF] [] = some ⟨[0xEE, 0x04], [], 0x0401, 0x00, .running⟩ ∧
    runsFilled [0x53] [0x01, 0x00] [] = some ⟨[0x01, 0x00], [], 0x0401, 0x00, .running⟩ := by decide

/-- STORE: vectors V155, V158, V159 of spec/95_test_vectors.md. -/
theorem test_store :
    runs [0x54] [0x2A, 0x05, 0x00] [] = some ⟨[], [], 0x0401, 0x00, .running⟩ ∧
    stored [0x54] [0x2A, 0x05, 0x00] 0x0500 = some 0x2A ∧
    runs [0x54] [0x07, 0x00, 0x02] [] = some ⟨[0x07, 0x00, 0x02, 0x00, 0x00, 0x00, 0x00], [], 0x0401, 0x00, .running⟩ ∧
    stored [0x54] [0x07, 0x00, 0x02] 0x0002 = some 0x07 ∧
    runs [0x54] [0x02, 0x00, 0x04] [] = some ⟨[], [], 0x0401, 0x02, .running⟩ ∧
    stored [0x54] [0x02, 0x00, 0x04] 0x0004 = some 0x02 := by decide

/-- STORE16: vectors V160, V161, V162 of spec/95_test_vectors.md. -/
theorem test_store16 :
    runs [0x55] [0x24, 0x68, 0x06, 0x00] [] = some ⟨[], [], 0x0401, 0x00, .running⟩ ∧
    stored [0x55] [0x24, 0x68, 0x06, 0x00] 0x0600 = some 0x24 ∧
    stored [0x55] [0x24, 0x68, 0x06, 0x00] 0x0601 = some 0x68 ∧
    runs [0x55] [0xAB, 0xCD, 0xFF, 0xFF] [] = some ⟨[], [], 0x0401, 0x00, .running⟩ ∧
    stored [0x55] [0xAB, 0xCD, 0xFF, 0xFF] 0xFFFF = some 0xAB ∧
    stored [0x55] [0xAB, 0xCD, 0xFF, 0xFF] 0x0000 = some 0xCD ∧
    runs [0x55] [0xAB, 0xCD, 0x02, 0xFF] [] = some ⟨[], [], 0x0401, 0x00, .running⟩ ∧
    stored [0x55] [0xAB, 0xCD, 0x02, 0xFF] 0x02FF = some 0xAB ∧
    stored [0x55] [0xAB, 0xCD, 0x02, 0xFF] 0x0300 = some 0x00 := by decide
/-! ### Depth limits: vectors B1 to B18 -/

/-- PUSH: B1, B2, B18. -/
theorem test_push_limit :
    runs [0x50, 0x41] (List.replicate 253 0x00) [] =
      some ⟨List.replicate 253 0x00 ++ [0x41], [], 0x0402, 0x00, .running⟩ ∧
    runs [0x50, 0x41] (List.replicate 254 0x00) [] = some ⟨List.replicate 254 0x00, [], 0x0400, 0x02, .faulted⟩ ∧
    runs [0x50, 0x01] (List.replicate 255 0x00) [] = some ⟨List.replicate 255 0x00, [], 0x0400, 0x02, .faulted⟩ := by
  decide +kernel

/-- PUSH16: B3, B4, B5. -/
theorem test_push16_limit :
    runs [0x51, 0x12, 0x34] (List.replicate 252 0x00) [] =
      some ⟨List.replicate 252 0x00 ++ [0x12, 0x34], [], 0x0403, 0x00, .running⟩ ∧
    runs [0x51, 0x12, 0x34] (List.replicate 253 0x00) [] =
      some ⟨List.replicate 253 0x00 ++ [0x12], [], 0x0400, 0x02, .faulted⟩ ∧
    runs [0x51, 0x12, 0x34] (List.replicate 254 0x00) [] =
      some ⟨List.replicate 254 0x00, [], 0x0400, 0x02, .faulted⟩ := by
  decide +kernel

/-- DUP: B6, B7, with zeros under the top octet. -/
theorem test_dup_limit :
    runs [0x04] (List.replicate 252 0x00 ++ [0x09]) [] =
      some ⟨List.replicate 252 0x00 ++ [0x09, 0x09], [], 0x0401, 0x00, .running⟩ ∧
    runs [0x04] (List.replicate 253 0x00 ++ [0x09]) [] =
      some ⟨List.replicate 253 0x00 ++ [0x09], [], 0x0400, 0x02, .faulted⟩ := by
  decide +kernel

/-- DUP16: B12. -/
theorem test_dup16_limit :
    runs [0x05] (List.replicate 251 0x00 ++ [0x12, 0x34]) [] =
      some ⟨List.replicate 251 0x00 ++ [0x12, 0x34, 0x12], [], 0x0400, 0x02, .faulted⟩ := by decide +kernel

/-- SWAP with a stored depth of 255 (R134). -/
theorem test_swap_limit :
    runs [0x06] (List.replicate 253 0x00 ++ [0x01, 0x02]) [] =
      some ⟨List.replicate 253 0x00 ++ [0x02], [], 0x0400, 0x02, .faulted⟩ := by decide +kernel

/-- OVER: B13. -/
theorem test_over_limit :
    runs [0x08] (List.replicate 252 0x00 ++ [0x01, 0x02]) [] =
      some ⟨List.replicate 252 0x00 ++ [0x01, 0x02], [], 0x0400, 0x02, .faulted⟩ := by decide +kernel

/-- DROP: B17. -/
theorem test_drop_limit :
    runs [0x02] (List.replicate 255 0x00) [] = some ⟨List.replicate 254 0x00, [], 0x0401, 0x00, .running⟩ := by
  decide +kernel

/-- CALL: B8, B9, B10. -/
theorem test_call_limit :
    runs [0x4A] [0x05, 0x00] (List.replicate 252 0x00) =
      some ⟨[], List.replicate 252 0x00 ++ [0x04, 0x01], 0x0500, 0x00, .running⟩ ∧
    runs [0x4A] [0x05, 0x00] (List.replicate 254 0x00) =
      some ⟨[], List.replicate 254 0x00, 0x0400, 0x08, .faulted⟩ ∧
    runs [0x4A] [0x05, 0x00] (List.replicate 253 0x00) =
      some ⟨[], List.replicate 253 0x00 ++ [0x04], 0x0400, 0x08, .faulted⟩ := by
  decide +kernel

/-- TOR: B14, B15. -/
theorem test_tor_limit :
    runs [0x0A] [0x12, 0x34] (List.replicate 253 0x00) =
      some ⟨[], List.replicate 253 0x00 ++ [0x12], 0x0400, 0x08, .faulted⟩ ∧
    runs [0x0A] [0x12, 0x34] (List.replicate 254 0x00) =
      some ⟨[], List.replicate 254 0x00, 0x0400, 0x08, .faulted⟩ := by
  decide +kernel

/-- FROMR: B16. -/
theorem test_fromr_limit :
    runs [0x0B] (List.replicate 253 0x00) [0x12, 0x34] =
      some ⟨List.replicate 253 0x00 ++ [0x12], [], 0x0400, 0x02, .faulted⟩ := by decide +kernel

/-! ### Fetch, boundary, host, devices and other agents: vectors F1 to F10, programs P4 to P10 -/

/-- Run of a core that was never loaded: the entry vector is 0x0000 (F1, P10). -/
theorem test_run_unloaded :
    seen (step { State.reset with env := { Env.quiet with inputs := [.run] } }) =
      some ⟨[], [], 0x0000, 0x00, .running⟩ ∧
    seen (step { State.reset with runState := .running }) = some ⟨[], [], 0x0001, 0x00, .halted⟩ := by decide

/-- Load copies the image and writes the entry vector (R282). -/
theorem test_host_load :
    (match step { State.reset with env := { Env.quiet with inputs := [.load [0x50, 0x41]] } } with
      | .next t => some (t.mem, t.runState)
      | _ => none) = some ([(0x0000, 0x04), (0x0400, 0x50), (0x0401, 0x41)], .idle) := by decide

/-- The edges of the illegal ranges (F2, F3, P8). -/
theorem test_illegal :
    ∀ op ∈ ([0x0C, 0x0F, 0x26, 0x3F, 0x4C, 0x4F, 0x56, 0xFF] : List Octet),
      runs [op] [] [] = some ⟨[], [], 0x0400, 0x40, .faulted⟩ := by decide

/-- The boundary check: bit 7 stops the core, bit 0 does not; HALT keeps bit 0 (F4, F5, F6). -/
theorem test_boundary :
    seen (step ((preset [0x50, 0x01] [] []).setMem ((preset [0x50, 0x01] [] []).mem.poke 4 0x80))) =
      some ⟨[], [], 0x0400, 0x80, .faulted⟩ ∧
    seen (step ((preset [0x50, 0x01] [] []).setMem ((preset [0x50, 0x01] [] []).mem.poke 4 0x01))) =
      some ⟨[0x01], [], 0x0402, 0x01, .running⟩ ∧
    seen (step ((preset [0x00] [] []).setMem ((preset [0x00] [] []).mem.poke 4 0x01))) =
      some ⟨[], [], 0x0401, 0x01, .halted⟩ := by decide

/-- A fetch that wraps at the top of the address space (F7). -/
theorem test_fetch_wraps :
    seen (step { State.reset with
      pc := 0xFFFE
      runState := .running
      mem := [(0x0000, 0xFF), (0x0001, 0xFE), (0xFFFE, 0x51), (0xFFFF, 0x12)] }) =
        some ⟨[0x12, 0xFF], [], 0x0001, 0x00, .running⟩ := by decide

/-- A fetch from an empty slot reads 0x00, not the storage octet behind it (F8). -/
theorem test_fetch_empty_slot :
    seen (step { State.reset with pc := 0x0300, runState := .running, mem := [(0x0300, 0x50)] }) =
      some ⟨[], [], 0x0301, 0x00, .halted⟩ := by decide

/-- Host Stop between two instructions (F9). -/
theorem test_stop :
    seen (step ((preset [0x50, 0x02] [0x01] []).setStopReq true)) = some ⟨[0x01], [], 0x0400, 0x00, .halted⟩ := by
  decide

/-- A request to a core that is not parked is not accepted (F10). -/
theorem test_request_waits :
    step { State.reset with env := { Env.quiet with irqs := [0x0600] } } =
      .next { State.reset with env := { Env.quiet with irqs := [0x0600] } } := rfl

/-- A core parked by YIELD at 0x0407, the handler's address 0x0410 stored at 0x0600, and one request (P5). -/
def parkedCore : State :=
  { State.reset with
    pc := 0x0408
    runState := .waiting
    mem := [(0x0004, 0x01), (0x0600, 0x04), (0x0601, 0x10)]
    env := { Env.quiet with irqs := [0x0600] } }

/-- The resume through the vector slot (P5). -/
theorem test_resume : seen (step parkedCore) = some ⟨[], [], 0x0410, 0x00, .running⟩ := by decide

/-- A stop request does not end the wait without a request, and does not prevent the resume with one (P5a, P5b). -/
theorem test_stop_while_parked :
    seen (step (parkedCore.setStopReq true)) = some ⟨[], [], 0x0410, 0x00, .running⟩ ∧
    seen (step ((parkedCore.setStopReq true).setEnv Env.quiet)) = some ⟨[], [], 0x0408, 0x01, .waiting⟩ := by decide

/-- An external device in slot 1 that answers the next access with 0x07 (P6). -/
def withDevice (s : State) : State :=
  (s.setDevice 1 .external).setEnv { Env.quiet with replies := [⟨[], some 0x07⟩] }

/-- A store to the device: the octet goes to register 2 of slot 1, and storage behind the window stays 0x00 (P6). -/
theorem test_device_store :
    (match step (withDevice (preset [0x54] [0x2A, 0x03, 0x12] [])) with
      | .next t => some (t.env.emitted, t.mem.peek 0x0312, t.ds)
      | _ => none) = some ([.registerWrite 1 2 0x2A], 0x00, []) := by decide

/-- A load from the device returns what the device answers (P6). -/
theorem test_device_load :
    seen (step (withDevice (preset [0x52] [0x03, 0x10] []))) = some ⟨[0x07], [], 0x0401, 0x00, .running⟩ := by decide

/-- Another agent's write between the read and the write of a pushed depth is overwritten (U6). -/
theorem test_foreign_write :
    seen (step ((preset [0x50, 0x41] [] []).setEnv
      { Env.quiet with foreign := [[], [], [], [], [], [.octetWrite 0x0002 0x09]] })) =
        some ⟨[0x41], [], 0x0402, 0x00, .running⟩ := by decide

/-- A word placed where the next step fetches. -/
theorem test_with_fetch_word :
    seen (step (State.reset.withFetchWord 16 0x4150)) = some ⟨[0x41], [], 0x0402, 0x00, .running⟩ := by decide

/-! ### Witnesses: for each obligation with hypotheses, a state that meets them -/

/-- A list of zero octets. -/
abbrev zeros (n : Nat) : List Octet := List.replicate n 0x00

/-- A running core with the given depths, all the stacks' octets zero. -/
def deep (d r : Nat) : State := preset [] (zeros d) (zeros r)

/-- The hypotheses of `NeedsOctets` are met at the depth just below `n`. -/
structure Short (n : Nat) : Prop where
  und : (deep (n - 1) 0).undisturbed
  low : (deep (n - 1) 0).depth dataStack < n

/-- The hypotheses of `Turns` are met, in the case that `outs` fits, with `n` octets below. -/
structure Fits (n : Nat) (ins outs : List Octet) : Prop where
  und : (preset [] (zeros n ++ ins) []).undisturbed
  top : (preset [] (zeros n ++ ins) []).ds = zeros n ++ ins
  room : (zeros n).length + outs.length ≤ stackMax

/-- The hypotheses of `Turns` are met, in the case that `outs` does not fit, with `n` octets below. -/
structure Full (n : Nat) (ins outs : List Octet) : Prop where
  und : (preset [] (zeros n ++ ins) []).undisturbed
  top : (preset [] (zeros n ++ ins) []).ds = zeros n ++ ins
  room : stackMax < (zeros n).length + outs.length

theorem test_witness_DecodeOfEncode : Instr.wf (.push16 0xFFFF) = true := by decide

theorem test_witness_EncodeOfDecode : decode [0x51, 0x12, 0x34, 0x00] = .ok (.push16 0x1234, [0x00]) := rfl

theorem test_witness_IllegalOpcodesFault :
    (preset [0x0C] [] []).ready ∧ (preset [0x0C] [] []).undisturbed ∧
    NoDevice (preset [0x0C] [] []) (preset [0x0C] [] []).pc ∧
    decode [plainRead (preset [0x0C] [] []).mem (preset [0x0C] [] []).pc] =
      .error (.illegalOpcode (plainRead (preset [0x0C] [] []).mem (preset [0x0C] [] []).pc)) ∧
    (read (preset [0x0C] [] []).pc).run (preset [0x0C] [] []) = .ok 0x0C (preset [0x0C] [] []) ∧
    decode [0x0C] = .error (.illegalOpcode 0x0C) :=
  ⟨⟨rfl, rfl, rfl, by decide⟩, rfl, fun h => absurd h (by decide), by rfl, rfl, rfl⟩

/-- An instruction of three octets that wraps at the top of the address space. -/
def wrapped : State :=
  { State.reset with
    pc := 0xFFFE
    runState := .running
    mem := [(0x0000, 0x34), (0xFFFE, 0x51), (0xFFFF, 0x12)] }

theorem test_witness_StepRunsTheFetchedInstruction :
    (wrapped.ready ∧ wrapped.undisturbed ∧ Instr.wf (.push16 0x1234) = true ∧
      ∀ k < (encode (.push16 0x1234)).length, NoDevice wrapped (wrapped.pc + BitVec.ofNat 16 k) ∧
        (encode (.push16 0x1234))[k]? = some (plainRead wrapped.mem (wrapped.pc + BitVec.ofNat 16 k))) ∧
    wrapped.runState = .running ∧ wrapped.env.inputs = [] ∧ wrapped.stopReq = false ∧
    (read flagsAddr).run wrapped = .ok 0x00 wrapped ∧ faultPresent 0x00 = false ∧
    fetchInstr.run wrapped = .ok (.push16 0x1234) wrapped := by
  refine ⟨⟨⟨rfl, rfl, rfl, by decide⟩, rfl, by decide, ?_⟩, rfl, rfl, rfl, rfl, by decide, rfl⟩
  unfold NoDevice
  decide

theorem test_witness_WindowAddressFields :
    ((0x0312 : Word).toNat = 0x0300 + 16 * (1 : BitVec 4).toNat + (2 : BitVec 4).toNat) ∧
    inWindow 0x0300 = true ∧ inWindow 0x03FF = true ∧ inWindow 0x02FF = false ∧ inWindow 0x0400 = false := by decide

theorem test_witness_DispatcherRead :
    (withDevice State.reset).undisturbed ∧ (0x02FF : Word).toNat / 256 ≠ 3 ∧ (0x0400 : Word).toNat / 256 ≠ 3 ∧
    ((0x03FF : Word).toNat / 256 = 3 ∧ (withDevice State.reset).deviceAt (windowSlot 0x03FF) = none) ∧
    (0x0310 : Word).toNat / 256 = 3 ∧ (withDevice State.reset).deviceAt (windowSlot 0x0310) = some .external :=
  ⟨rfl, by decide, by decide, ⟨by decide, by decide⟩, by decide, by decide⟩

theorem test_witness_DispatcherWrite :
    (withDevice State.reset).undisturbed ∧ (0x02FF : Word).toNat / 256 ≠ 3 ∧ (0x0400 : Word).toNat / 256 ≠ 3 ∧
    ((0x0300 : Word).toNat / 256 = 3 ∧ (withDevice State.reset).deviceAt (windowSlot 0x0300) = none) ∧
    (0x031F : Word).toNat / 256 = 3 ∧ (withDevice State.reset).deviceAt (windowSlot 0x031F) = some .external :=
  ⟨rfl, by decide, by decide, ⟨by decide, by decide⟩, by decide, by decide⟩

theorem test_witness_BulkCopyTransfers :
    State.reset.undisturbed ∧ (0xFFFF : Word).toNat + [(0x48 : Octet)].length ≤ 65536 ∧
    65536 < (0xFFFF : Word).toNat + [(0x48 : Octet), 0x49].length ∧ (0x0300 : Word).toNat + 65535 > 65536 ∧
    (0x0001 : Word).toNat + 65535 ≤ 65536 := ⟨rfl, by decide, by decide, by decide, by decide⟩

theorem test_witness_MixedWidths :
    (deep 252 0).undisturbed ∧ (deep 252 0).depth dataStack + 2 ≤ stackMax ∧
    inWindow 0xFFFF = false ∧ inWindow (0xFFFF + 1) = false := ⟨rfl, by decide +kernel, by decide, by decide⟩

theorem test_witness_ForeignWritesInterleave :
    inWindow 0xFFFF = false ∧ inWindow (0xFFFF + 1) = false ∧ (0x0500 : Word) ≠ 0xFFFF ∧
    (deep 253 0).depth dataStack < 254 ∧ (0xFFFE : Word).toNat + 2 ≤ 65536 :=
  ⟨by decide, by decide, by decide, by decide +kernel, by decide⟩

theorem test_witness_CanonicalStorageKept :
    (preset [0x54] [0x2A, 0x05, 0x00] []).mem.wf ∧ ∃ t, step (preset [0x54] [0x2A, 0x05, 0x00] []) = .next t :=
  ⟨by decide, _, rfl⟩

theorem test_witness_WindowStorageUnreached :
    (preset [0x54] [0x2A, 0x03, 0x25] []).alone ∧ (∃ t, step (preset [0x54] [0x2A, 0x03, 0x25] []) = .next t) ∧
    0x0300 ≤ 0x0325 ∧ 0x0325 ≤ 0x03FF := ⟨⟨rfl, rfl, rfl⟩, ⟨_, rfl⟩, by decide, by decide⟩

theorem test_witness_OctetPushes :
    (deep 253 253).undisturbed ∧ (deep 253 253).depth dataStack < 254 ∧ (deep 253 253).depth returnStack < 254 ∧
    (deep 254 254).undisturbed ∧ 254 ≤ (deep 254 254).depth dataStack ∧ 254 ≤ (deep 254 254).depth returnStack :=
  ⟨rfl, by decide +kernel, by decide +kernel, rfl, by decide +kernel, by decide +kernel⟩

theorem test_witness_OctetPops :
    (preset [] [0x07] [0x08]).undisturbed ∧ (preset [] [0x07] [0x08]).stack dataStack = [] ++ [0x07] ∧
    (preset [] [0x07] [0x08]).stack returnStack = [] ++ [0x08] ∧ (deep 255 255).stack dataStack = zeros 254 ++ [0x00] ∧
    (deep 255 255).stack returnStack = zeros 254 ++ [0x00] ∧ (deep 0 0).stack dataStack = [] ∧
    (deep 0 0).stack returnStack = [] :=
  ⟨rfl, by decide, by decide, by decide +kernel, by decide +kernel, by decide, by decide⟩

theorem test_witness_WordPushes :
    (deep 252 252).undisturbed ∧ (deep 252 252).depth dataStack + 2 ≤ 254 ∧ (deep 252 252).depth returnStack + 2 ≤ 254 ∧
    (deep 253 253).depth dataStack = 253 ∧ (deep 253 253).depth returnStack = 253 ∧
    254 ≤ (deep 254 254).depth dataStack ∧ 254 ≤ (deep 254 254).depth returnStack :=
  ⟨rfl, by decide +kernel, by decide +kernel, by decide +kernel, by decide +kernel, by decide +kernel,
    by decide +kernel⟩

theorem test_witness_WordPops :
    (preset [] [0x12, 0x34] [0x56, 0x78]).undisturbed ∧
    (preset [] [0x12, 0x34] [0x56, 0x78]).stack dataStack = [] ++ [0x12, 0x34] ∧
    (preset [] [0x12, 0x34] [0x56, 0x78]).stack returnStack = [] ++ [0x56, 0x78] ∧
    (deep 1 1).depth dataStack < 2 ∧ (deep 1 1).depth returnStack < 2 :=
  ⟨rfl, by decide, by decide, by decide, by decide⟩

theorem test_witness_HaltStopsCleanly : (preset [0x00] [0x01] []).undisturbed := rfl

theorem test_witness_YieldParks : (preset [0x01] [0x01] []).undisturbed := rfl

theorem test_witness_OctetStackInstructions :
    Short 1 ∧ Short 2 ∧ Fits 254 [0x07] [] ∧ Fits 252 [0x07] [0x07, 0x07] ∧ Full 253 [0x07] [0x07, 0x07] ∧
    Fits 252 [0x01, 0x02] [0x02, 0x01] ∧ Full 253 [0x01, 0x02] [0x02, 0x01] ∧
    Fits 251 [0x01, 0x02] [0x01, 0x02, 0x01] ∧ Full 252 [0x01, 0x02] [0x01, 0x02, 0x01] := by
  refine ⟨⟨rfl, ?_⟩, ⟨rfl, ?_⟩, ⟨rfl, ?_, ?_⟩, ⟨rfl, ?_, ?_⟩, ⟨rfl, ?_, ?_⟩, ⟨rfl, ?_, ?_⟩, ⟨rfl, ?_, ?_⟩,
    ⟨rfl, ?_, ?_⟩, ⟨rfl, ?_, ?_⟩⟩ <;> decide +kernel

theorem test_witness_WordStackInstructions :
    Short 2 ∧ Short 4 ∧ Fits 253 (wordOctets 0x1234) [] ∧
    Fits 250 (wordOctets 0x1234) (wordOctets 0x1234 ++ wordOctets 0x1234) ∧
    Full 251 (wordOctets 0x1234) (wordOctets 0x1234 ++ wordOctets 0x1234) ∧
    Fits 250 (wordOctets 0xAABB ++ wordOctets 0xCCDD) (wordOctets 0xCCDD ++ wordOctets 0xAABB) ∧
    Full 251 (wordOctets 0xAABB ++ wordOctets 0xCCDD) (wordOctets 0xCCDD ++ wordOctets 0xAABB) ∧
    Fits 248 (wordOctets 0xAABB ++ wordOctets 0xCCDD) (wordOctets 0xAABB ++ wordOctets 0xCCDD ++ wordOctets 0xAABB) ∧
    Full 249 (wordOctets 0xAABB ++ wordOctets 0xCCDD) (wordOctets 0xAABB ++ wordOctets 0xCCDD ++ wordOctets 0xAABB) := by
  refine ⟨⟨rfl, ?_⟩, ⟨rfl, ?_⟩, ⟨rfl, ?_, ?_⟩, ⟨rfl, ?_, ?_⟩, ⟨rfl, ?_, ?_⟩, ⟨rfl, ?_, ?_⟩, ⟨rfl, ?_, ?_⟩,
    ⟨rfl, ?_, ?_⟩, ⟨rfl, ?_, ?_⟩⟩ <;> decide +kernel

/-- Three cases of the return stack for TOR: room up to depth 254, one octet of room, none. -/
theorem test_witness_TorMovesToReturnStack :
    Short 2 ∧ (preset [] [0x12, 0x34] (zeros 252)).undisturbed ∧
    (preset [] [0x12, 0x34] (zeros 252)).ds = [] ++ wordOctets 0x1234 ∧
    (preset [] [0x12, 0x34] (zeros 252)).depth returnStack + 2 ≤ stackMax ∧
    (preset [] [0x12, 0x34] (zeros 253)).ds = [] ++ wordOctets 0x1234 ∧
    stackMax < (preset [] [0x12, 0x34] (zeros 253)).depth returnStack + 2 ∧
    stackMax < (preset [] [0x12, 0x34] (zeros 254)).depth returnStack + 2 := by
  refine ⟨⟨rfl, ?_⟩, rfl, ?_, ?_, ?_, ?_, ?_⟩ <;> decide +kernel

theorem test_witness_FromrMovesToDataStack :
    (deep 0 1).undisturbed ∧ (deep 0 1).depth returnStack < 2 ∧
    (preset [] (zeros 252) [0x12, 0x34]).rs = [] ++ wordOctets 0x1234 ∧
    (preset [] (zeros 252) [0x12, 0x34]).depth dataStack + 2 ≤ stackMax ∧
    (preset [] (zeros 253) [0x12, 0x34]).rs = [] ++ wordOctets 0x1234 ∧
    stackMax < (preset [] (zeros 253) [0x12, 0x34]).depth dataStack + 2 := by
  refine ⟨rfl, ?_, ?_, ?_, ?_, ?_⟩ <;> decide +kernel

/-- An instruction that leaves fewer octets than it takes always finds room: only the first case of `Turns` arises. -/
theorem test_witness_OctetArithmetic : Short 2 ∧ Fits 253 [0xFF, 0x01] [0x00] := by
  refine ⟨⟨rfl, ?_⟩, ⟨rfl, ?_, ?_⟩⟩ <;> decide +kernel

theorem test_witness_WordArithmetic :
    Short 4 ∧ Fits 251 (wordOctets 0xFFFF ++ wordOctets 0x0001) (wordOctets 0x0000) := by
  refine ⟨⟨rfl, ?_⟩, ⟨rfl, ?_, ?_⟩⟩ <;> decide +kernel

theorem test_witness_OctetDivision :
    Short 2 ∧ (0xFF : Octet).toNat = 15 * (0x10 : Octet).toNat + 15 ∧ 15 < (0x10 : Octet).toNat ∧
    Fits 253 [0xFF, 0x10] [0x0F] ∧ (preset [] [0x07, 0x00] []).undisturbed ∧
    (preset [] [0x07, 0x00] []).ds = [] ++ [0x07, 0x00] := by
  refine ⟨⟨rfl, ?_⟩, ?_, ?_, ⟨rfl, ?_, ?_⟩, rfl, ?_⟩ <;> decide +kernel

theorem test_witness_WordDivision :
    Short 4 ∧ (0xFFFF : Word).toNat = 255 * (0x0100 : Word).toNat + 255 ∧ 255 < (0x0100 : Word).toNat ∧
    Fits 251 (wordOctets 0xFFFF ++ wordOctets 0x0100) (wordOctets 0x00FF) ∧
    (preset [] [0x12, 0x34, 0x00, 0x00] []).undisturbed ∧
    (preset [] [0x12, 0x34, 0x00, 0x00] []).ds = [] ++ wordOctets 0x1234 ++ [0x00, 0x00] := by
  refine ⟨⟨rfl, ?_⟩, ?_, ?_, ⟨rfl, ?_, ?_⟩, rfl, ?_⟩ <;> decide +kernel

theorem test_witness_OctetLogic :
    Short 1 ∧ Short 2 ∧ Fits 253 [0xCC, 0xAA] [0x88] ∧ Fits 253 [0x0F] [0xF0] ∧ Full 254 [0x0F] [0xF0] := by
  refine ⟨⟨rfl, ?_⟩, ⟨rfl, ?_⟩, ⟨rfl, ?_, ?_⟩, ⟨rfl, ?_, ?_⟩, ⟨rfl, ?_, ?_⟩⟩ <;> decide +kernel

theorem test_witness_WordLogic :
    Short 2 ∧ Short 4 ∧ Fits 251 (wordOctets 0x1234 ++ wordOctets 0x0FF0) (wordOctets 0x0230) ∧
    Fits 252 (wordOctets 0x1234) (wordOctets 0xEDCB) ∧ Full 253 (wordOctets 0x1234) (wordOctets 0xEDCB) := by
  refine ⟨⟨rfl, ?_⟩, ⟨rfl, ?_⟩, ⟨rfl, ?_, ?_⟩, ⟨rfl, ?_, ?_⟩, ⟨rfl, ?_, ?_⟩⟩ <;> decide +kernel

theorem test_witness_Shifts :
    Short 2 ∧ Short 3 ∧ Fits 253 [0x81, 0x08] [0x00] ∧ Fits 252 (wordOctets 0x8001 ++ [0x0F]) (wordOctets 0x8000) := by
  refine ⟨⟨rfl, ?_⟩, ⟨rfl, ?_⟩, ⟨rfl, ?_, ?_⟩, ⟨rfl, ?_, ?_⟩⟩ <;> decide +kernel

theorem test_witness_OctetComparisons : Short 2 ∧ Fits 253 [0x80, 0x7F] [0x01] := by
  refine ⟨⟨rfl, ?_⟩, ⟨rfl, ?_, ?_⟩⟩ <;> decide +kernel

theorem test_witness_WordComparisons : Short 4 ∧ Fits 251 (wordOctets 0x8000 ++ wordOctets 0x7FFF) [0x01] := by
  refine ⟨⟨rfl, ?_⟩, ⟨rfl, ?_, ?_⟩⟩ <;> decide +kernel

theorem test_witness_ConditionalJumps :
    Short 3 ∧ (preset [] (zeros 252 ++ [0x04, 0x20, 0x01]) []).undisturbed ∧
    (preset [] (zeros 252 ++ [0x04, 0x20, 0x01]) []).ds = zeros 252 ++ wordOctets 0x0420 ++ [0x01] ∧
    (preset [] [0x04, 0x20, 0x00] []).ds = [] ++ wordOctets 0x0420 ++ [0x00] := by
  refine ⟨⟨rfl, ?_⟩, rfl, ?_, ?_⟩ <;> decide +kernel

theorem test_witness_CallTransfers :
    Short 2 ∧ (preset [] [0x05, 0x00] (zeros 252)).undisturbed ∧
    (preset [] [0x05, 0x00] (zeros 252)).ds = [] ++ wordOctets 0x0500 ∧
    (preset [] [0x05, 0x00] (zeros 252)).depth returnStack + 2 ≤ stackMax ∧
    (preset [] [0x05, 0x00] (zeros 253)).ds = [] ++ wordOctets 0x0500 ∧
    stackMax < (preset [] [0x05, 0x00] (zeros 253)).depth returnStack + 2 := by
  refine ⟨⟨rfl, ?_⟩, rfl, ?_, ?_, ?_, ?_⟩ <;> decide +kernel

theorem test_witness_RetTransfers :
    (deep 0 1).undisturbed ∧ (deep 0 1).depth returnStack < 2 ∧ (preset [] [] [0x04, 0x07]).undisturbed ∧
    (preset [] [] [0x04, 0x07]).rs = [] ++ wordOctets 0x0407 := by
  refine ⟨rfl, ?_, rfl, ?_⟩ <;> decide

theorem test_witness_Literals :
    Fits 253 [] [0x41] ∧ Full 254 [] [0x41] ∧ Full 255 [] [0x41] ∧ Fits 252 [] (wordOctets 0x1234) ∧
    Full 253 [] (wordOctets 0x1234) := by
  refine ⟨⟨rfl, ?_, ?_⟩, ⟨rfl, ?_, ?_⟩, ⟨rfl, ?_, ?_⟩, ⟨rfl, ?_, ?_⟩, ⟨rfl, ?_, ?_⟩⟩ <;> decide +kernel

/-- A LOAD from storage, and one from an empty slot. -/
theorem test_witness_LoadReadsOneOctet :
    Short 2 ∧ (preset [] [0x05, 0x00] []).undisturbed ∧ (preset [] [0x05, 0x00] []).ds = [] ++ wordOctets 0x0500 ∧
    NoDevice (preset [] [0x05, 0x00] []) 0x0500 ∧ (preset [] [0x03, 0x25] []).ds = [] ++ wordOctets 0x0325 ∧
    NoDevice (preset [] [0x03, 0x25] []) 0x0325 :=
  ⟨⟨rfl, by decide⟩, rfl, by decide, fun h => absurd h (by decide), by decide, fun _ => by decide⟩

/-- A LOAD16 with room for both octets, and one with a stored depth of 255. -/
theorem test_witness_Load16ReadsTwoOctets :
    Short 2 ∧ (preset [] [0x06, 0x00] []).undisturbed ∧ (preset [] [0x06, 0x00] []).ds = [] ++ wordOctets 0x0600 ∧
    NoDevice (preset [] [0x06, 0x00] []) 0x0600 ∧ NoDevice (preset [] [0x06, 0x00] []) (0x0600 + 1) ∧
    (zeros 252).length + 2 ≤ stackMax ∧ (preset [] (zeros 252 ++ [0x06, 0x00]) []).ds = zeros 252 ++ wordOctets 0x0600 ∧
    stackMax < (zeros 253).length + 2 ∧ (preset [] (zeros 253 ++ [0x06, 0x00]) []).ds = zeros 253 ++ wordOctets 0x0600 := by
  refine ⟨⟨rfl, ?_⟩, rfl, ?_, fun h => absurd h ?_, fun h => absurd h ?_, ?_, ?_, ?_, ?_⟩ <;> decide +kernel

theorem test_witness_StoreWritesOneOctet :
    Short 3 ∧ (preset [] [0x2A, 0x00, 0x02] []).undisturbed ∧
    (preset [] [0x2A, 0x00, 0x02] []).ds = [] ++ [0x2A] ++ wordOctets 0x0002 ∧
    NoDevice (preset [] [0x2A, 0x00, 0x02] []) 0x0002 :=
  ⟨⟨rfl, by decide⟩, rfl, by decide, fun h => absurd h (by decide)⟩

/-- A STORE16 that straddles the edge of the window, its slot empty. -/
theorem test_witness_Store16WritesTwoOctets :
    Short 4 ∧ (preset [] [0xAB, 0xCD, 0x02, 0xFF] []).undisturbed ∧
    (preset [] [0xAB, 0xCD, 0x02, 0xFF] []).ds = [] ++ wordOctets 0xABCD ++ wordOctets 0x02FF ∧
    NoDevice (preset [] [0xAB, 0xCD, 0x02, 0xFF] []) 0x02FF ∧
    NoDevice (preset [] [0xAB, 0xCD, 0x02, 0xFF] []) (0x02FF + 1) :=
  ⟨⟨rfl, by decide⟩, rfl, by decide, fun h => absurd h (by decide), fun _ => by decide⟩

/-- A core with external devices in slots 0, 1 and 15 that answer as scripted. -/
def withDevices (replies : List Reply) (ds : List Octet) : State :=
  ((((preset [] ds []).setDevice 0 .external).setDevice 1 .external).setDevice 15 .external).setEnv
    { Env.quiet with replies := replies }

/-- A device that copies an octet to 0x0200, reads the last octet of storage and makes a request before it returns. -/
def busyReply : Reply := ⟨[.bulkWrite 0x0200 [0x41], .bulkRead 0xFFFF 1, .irqRequest 0x0600], some 0x07⟩

theorem test_witness_ExternalDeviceAccess :
    (withDevices [⟨[], some 0x07⟩] [0x03, 0x10]).undisturbed ∧
    External (withDevices [⟨[], some 0x07⟩] [0x03, 0x10]) 0x0310 ∧
    (withDevices [⟨[], some 0x07⟩] [0x03, 0x10]).ds = [] ++ wordOctets 0x0310 ∧
    (withDevices [⟨[], some 0x07⟩] [0x2A, 0x03, 0x10]).ds = [] ++ [0x2A] ++ wordOctets 0x0310 ∧
    (withDevices [⟨[], some 0x07⟩] []).env.replies = ⟨[], some 0x07⟩ :: [] ∧
    (withDevices [⟨[], none⟩] []).env.replies = ⟨[], none⟩ :: [] := by
  refine ⟨rfl, ⟨?_, ?_⟩, ?_, ?_, rfl, rfl⟩ <;> decide

/-- The two halves: both at devices, at the upper and at the lower edge of the window, with room for two octets. -/
theorem test_witness_ExternalDeviceHalves :
    External (withDevices [] []) (0x030F + 1) ∧ External (withDevices [] []) 0x030F ∧
    External (withDevices [] []) 0x03FF ∧ NoDevice (withDevices [] []) (0x03FF + 1) ∧
    External (withDevices [] []) (0x02FF + 1) ∧ NoDevice (withDevices [] []) 0x02FF ∧ (zeros 252).length + 2 ≤ stackMax ∧
    (withDevices [] (zeros 252 ++ [0x03, 0x0F])).ds = zeros 252 ++ wordOctets 0x030F ∧
    (withDevices [] [0xAB, 0xCD, 0x03, 0xFF]).ds = [] ++ wordOctets 0xABCD ++ wordOctets 0x03FF := by
  refine ⟨⟨?_, ?_⟩, ⟨?_, ?_⟩, ⟨?_, ?_⟩, fun h => absurd h ?_, ⟨?_, ?_⟩, fun h => absurd h ?_, ?_, ?_, ?_⟩ <;>
    decide +kernel

/-- What a device does before it returns is done when the instruction completes (R55). -/
theorem test_busy_device :
    External (withDevices [busyReply] []) 0x0310 ∧ (0x0200 : Word).toNat + 1 ≤ 65536 ∧ (0xFFFF : Word).toNat + 1 ≤ 65536 ∧
    (match exec .load (withDevices [busyReply] [0x03, 0x10]) with
      | .next t => some (t.ds, t.mem.peek 0x0200, t.env.irqs, t.env.emitted)
      | _ => none) = some ([0x07], 0x41, [0x0600], [.registerRead 1 0, .copied 0xFFFF [0x00]]) := by
  refine ⟨⟨?_, ?_⟩, ?_, ?_, ?_⟩ <;> decide

/-- A Terminal in slot 15 whose payload is the last octet of the address space. -/
def withTerminal : State := State.reset.setDevice 15 (.terminal ⟨0xFF, 0xFF, 0x01⟩)

theorem test_witness_TerminalRegisters :
    withTerminal.undisturbed ∧ withTerminal.deviceAt 15 = some (.terminal ⟨0xFF, 0xFF, 0x01⟩) ∧
    (joinOctets 0xFF 0xFF).toNat + (0x01 : Octet).toNat ≤ 65536 := ⟨rfl, by decide, by decide⟩

/-- A port with id 2, destination 1, signal 9, a payload of three octets at 0x0500, receive buffer 0x0700, vector slot
0x0600. -/
def somePort : Port :=
  { ownId := 0x02, dest := 0x01, lastSender := 0x00, signalOut := 0x09, signalIn := 0x00, lengthOut := 0x03,
    addrHigh := 0x05, addrLow := 0x00, bufferHigh := 0x07, bufferLow := 0x00, vectorHigh := 0x06, vectorLow := 0x00,
    lengthIn := 0x00 }

/-- A machine with that port in slot 0. -/
def withPort (replies : List Reply) (inputs : List Input) : State :=
  (State.reset.setDevice 0 (.port somePort)).setEnv { Env.quiet with replies := replies, inputs := inputs }

theorem test_witness_PortRegisters :
    (withPort [] []).undisturbed ∧ (withPort [] []).deviceAt 0 = some (.port somePort) ∧
    (1 : BitVec 4) ∈ [0, 1, 3, 5, 14] ∧ (14 : BitVec 4) ∈ [0, 1, 3, 5, 14] := ⟨rfl, by decide, by decide, by decide⟩

theorem test_witness_PortSends :
    (withPort [⟨[], some 0x00⟩] []).undisturbed ∧ (withPort [⟨[], some 0x00⟩] []).deviceAt 0 = some (.port somePort) ∧
    (joinOctets somePort.addrHigh somePort.addrLow).toNat + somePort.lengthOut.toNat ≤ 65536 ∧
    somePort.dest ≠ somePort.ownId ∧ (withPort [⟨[], some 0x00⟩] []).env.replies = ⟨[], some 0x00⟩ :: [] ∧
    (withPort [⟨[], none⟩] []).env.replies = ⟨[], none⟩ :: [] ∧
    ({ somePort with dest := 0x02 } : Port).dest = ({ somePort with dest := 0x02 } : Port).ownId :=
  ⟨rfl, by decide, by decide, by decide, rfl, rfl, rfl⟩

theorem test_witness_MessageDelivery :
    (withPort [] [.deliver 0 0x01 0x09 [0x48]]).env.inputs = .deliver 0 0x01 0x09 [0x48] :: [] ∧
    (withPort [] [.deliver 0 0x01 0x09 [0x48]]).undisturbed ∧
    (withPort [] [.deliver 0 0x01 0x09 [0x48]]).deviceAt 0 = some (.port somePort) ∧ [(0x48 : Octet)].length ≤ 255 ∧
    (joinOctets somePort.bufferHigh somePort.bufferLow).toNat + [(0x48 : Octet)].length ≤ 65536 :=
  ⟨rfl, rfl, by decide, by decide, by decide⟩

theorem test_witness_FaultEntry : (preset [0x16] [0x07, 0x00] []).undisturbed := rfl

theorem test_witness_FaultsKeepPcAndBit :
    (deep 0 0).runState = .running ∧ ∃ t, exec .drop (deep 0 0) = .next t ∧ t.runState = .faulted :=
  ⟨rfl, _, rfl, rfl⟩

theorem test_witness_InstructionRunStates : (deep 0 0).runState = .running ∧ ∃ t, exec .halt (deep 0 0) = .next t :=
  ⟨rfl, _, rfl⟩

theorem test_witness_BoundaryChecks :
    (deep 0 0).runState = .running ∧ (deep 0 0).env.inputs = [] ∧ ((deep 0 0).setStopReq true).stopReq = true ∧
    (deep 0 0).stopReq = false ∧ (read flagsAddr).run (deep 0 0) = .ok 0x00 (deep 0 0) ∧
    fetchInstr.run (deep 0 0) = .ok .halt (deep 0 0) ∧ (0x00 : Octet) &&& 0xFE = 0 ∧ (0x80 : Octet) &&& 0xFE ≠ 0 :=
  ⟨rfl, rfl, rfl, rfl, rfl, rfl, by decide, by decide⟩

theorem test_witness_RunStateGraph :
    parkedCore.runState = .waiting ∧ ∃ t, step parkedCore = .next t ∧ t.runState ≠ .waiting :=
  ⟨rfl, _, rfl, by decide⟩

theorem test_witness_ResumeThroughVectorSlot :
    parkedCore.runState = .waiting ∧ parkedCore.env.inputs = [] ∧ parkedCore.undisturbed ∧
    parkedCore.env.irqs = [0x0600] ∧ NoDevice parkedCore 0x0600 ∧ NoDevice parkedCore (0x0600 + 1) :=
  ⟨rfl, rfl, rfl, rfl, fun h => absurd h (by decide), fun h => absurd h (by decide)⟩

/-- A parked core for which two requests wait. -/
def wantedCore : State := parkedCore.setEnv { Env.quiet with irqs := [0x0600, 0x0700] }

theorem wantedCore_slots : ∀ v ∈ wantedCore.env.irqs, NoDevice wantedCore v ∧ NoDevice wantedCore (v + 1) :=
  have h : ∀ n, wantedCore.deviceAt n = none := by decide
  fun _ _ => ⟨fun _ => h _, fun _ => h _⟩

theorem test_witness_AnyRequestMayBeAccepted :
    wantedCore.runState = .waiting ∧ wantedCore.env.inputs = [] ∧ wantedCore.undisturbed ∧ wantedCore.env.irqs ≠ [] ∧
    (∀ v ∈ wantedCore.env.irqs, NoDevice wantedCore v ∧ NoDevice wantedCore (v + 1)) ∧
    (parkedCore.setEnv Env.quiet).runState = .waiting ∧ (parkedCore.setEnv Env.quiet).env.inputs = [] ∧
    (parkedCore.setEnv Env.quiet).env.irqs = [] := ⟨rfl, rfl, rfl, by decide, wantedCore_slots, rfl, rfl, rfl⟩

/-- Whichever of the two requests the free choice names, its vector slot is in storage. -/
theorem test_witness_AnyRequestChoice :
    ∃ (k : Nat) (h : k < wantedCore.env.irqs.length),
      Config.irqChoice wantedCore.env.drawn % wantedCore.env.irqs.length = k ∧
      NoDevice wantedCore wantedCore.env.irqs[k] ∧ NoDevice wantedCore (wantedCore.env.irqs[k] + 1) :=
  ⟨_, Nat.mod_lt _ (by decide), rfl, wantedCore_slots _ (List.getElem_mem _)⟩

theorem test_witness_RequestsWaitForYield :
    (deep 1 0).runState ≠ .waiting ∧ (∃ t, step (deep 1 0) = .next t) ∧ (∃ t, exec .drop (deep 1 0) = .next t) ∧
    State.reset.runState = .idle ∧ State.reset.env.inputs = [] :=
  ⟨by decide, ⟨_, rfl⟩, ⟨_, rfl⟩, rfl, rfl⟩

/-- An idle machine to which one thing is about to happen. -/
def about (i : Input) : State := { State.reset with env := { Env.quiet with inputs := [i] } }

theorem test_witness_HostLoads :
    (about (.load [0x50, 0x41])).env.inputs = .load [0x50, 0x41] :: [] ∧ (about (.load [0x50, 0x41])).runState = .idle ∧
    (about (.load [0x50, 0x41])).undisturbed ∧
    [(0x50 : Octet), 0x41].length ≤ 64512 ∧ ((about (.load [0x50])).setRunState .halted).runState ≠ .idle ∧
    64512 < (List.replicate 64513 (0x00 : Octet)).length :=
  ⟨rfl, rfl, rfl, by decide, by decide, by rw [List.length_replicate]; decide⟩

theorem test_witness_HostRuns :
    (about .run).env.inputs = .run :: [] ∧ (about .run).runState = .idle ∧ (about .run).undisturbed ∧
    ((about .run).setRunState .faulted).runState ≠ .idle := ⟨rfl, rfl, rfl, by decide⟩

theorem test_witness_HostAttaches :
    (about (.attach 15 .external)).env.inputs = .attach 15 .external :: [] ∧
    (about (.attach 15 .external)).runState = .idle ∧ (about (.attach 15 .external)).deviceAt 15 = none ∧
    ((about (.attach 15 .external)).setRunState .running).runState ≠ .idle ∧
    ((about (.attach 15 .external)).setDevice 15 .external).deviceAt 15 ≠ none ∧
    (∃ t, step (withPort [] []) = .next t) ∧ (withPort [] []).deviceAt 0 = some (.port somePort) :=
  ⟨rfl, rfl, by decide, by decide, by decide, ⟨_, rfl⟩, by decide⟩

theorem test_witness_HostStops :
    (about .stop).env.inputs = .stop :: [] ∧ ((deep 0 0).setStopReq true).runState = .running ∧
    ((deep 0 0).setStopReq true).env.inputs = [] ∧ ((deep 0 0).setStopReq true).stopReq = true ∧
    (parkedCore.setEnv Env.quiet).env.irqs = [] ∧ (parkedCore.setStopReq true).runState = .waiting ∧
    (parkedCore.setStopReq true).stopReq = true ∧ (parkedCore.setStopReq true).env.inputs = [] ∧
    (parkedCore.setStopReq true).undisturbed ∧ (parkedCore.setStopReq true).env.irqs = [0x0600] ∧
    NoDevice (parkedCore.setStopReq true) 0x0600 ∧ NoDevice (parkedCore.setStopReq true) (0x0600 + 1) :=
  ⟨rfl, rfl, rfl, rfl, rfl, rfl, rfl, rfl, rfl, rfl, fun h => absurd h (by decide), fun h => absurd h (by decide)⟩

theorem test_witness_TraceHasNoEffect : (about (.setTrace true)).env.inputs = .setTrace true :: [] := rfl

end Sys2Proof.Machine
end

section
/-! Accesses to storage, slots and surroundings are blind to the registers of the core: `pc`, `run_state` and the two
latches. They commute with any replacement of those registers, which says both that they do not read them and that they
do not change them; and they never take a fault of the core. -/

namespace Sys2Proof.Machine

/-- The storage, the slots and the surroundings of `s`, beside the registers of the core of `c`. -/
def State.withCoreOf (s c : State) : State := { c with mem := s.mem, slots := s.slots, env := s.env }

@[simp] theorem State.withCoreOf_env (s c : State) : (s.withCoreOf c).env = s.env := rfl
@[simp] theorem State.withCoreOf_runState (s c : State) : (s.withCoreOf c).runState = c.runState := rfl
@[simp] theorem State.deviceAt_withCoreOf (s c : State) (n : BitVec 4) :
    (s.withCoreOf c).deviceAt n = s.deviceAt n := rfl
@[simp] theorem State.withCoreOf_self (s : State) : s.withCoreOf s = s := rfl

/-- What a run ends with, its state changed by `f`. -/
def through {α : Type} (f : State → State) : EStateM.Result Stop State α → EStateM.Result Stop State α
  | .ok a t => .ok a (f t)
  | .error e t => .error e (f t)

@[simp] theorem through_ok {α : Type} (f : State → State) (a : α) (t : State) : through f (.ok a t) = .ok a (f t) := rfl

@[simp] theorem through_error {α : Type} (f : State → State) (e : Stop) (t : State) :
    through f (.error e t : EStateM.Result Stop State α) = .error e (f t) := rfl

/-- Two sequences run after one another commute with `f` where each of them does. -/
theorem run_bind_through {α β : Type} {f : State → State} {m : Micro α} {k : α → Micro β} {s : State}
    (hm : m.run (f s) = through f (m.run s)) (hk : ∀ a t, (k a).run (f t) = through f ((k a).run t)) :
    (m >>= k).run (f s) = through f ((m >>= k).run s) := by
  rw [EStateM.run_bind, EStateM.run_bind, hm]
  cases m.run s with
  | ok a t => exact hk a t
  | error e t => rfl

/-- No run of the sequence takes a fault of the core. -/
def Micro.Untrapped {α : Type} (m : Micro α) : Prop := ∀ s t, m.run s ≠ .error .taken t

/-- From the state `s` the sequence is blind to the registers of the core, and takes no fault of the core. -/
structure Micro.PeripheralAt {α : Type} (m : Micro α) (s : State) : Prop where
  blind : ∀ c, m.run (s.withCoreOf c) = through (fun t => t.withCoreOf c) (m.run s)
  untrapped : ∀ t, m.run s ≠ .error .taken t

/-- The sequence is blind to the registers of the core, and takes no fault of the core. -/
def Micro.Peripheral {α : Type} (m : Micro α) : Prop := ∀ s, Micro.PeripheralAt m s

theorem Micro.Peripheral.untrapped {α : Type} {m : Micro α} (h : Micro.Peripheral m) : Micro.Untrapped m :=
  fun s => (h s).untrapped

/-- A peripheral sequence that completes leaves the registers of the core as they were. -/
theorem Micro.Peripheral.withCoreOf_of_ok {α : Type} {m : Micro α} (h : Micro.Peripheral m) {s t : State} {a : α}
    (e : m.run s = .ok a t) : t.withCoreOf s = t := by
  have hb := (h s).blind s
  rw [State.withCoreOf_self, e] at hb
  injection hb with _ hb
  exact hb.symm

theorem Micro.Peripheral.runState_of_ok {α : Type} {m : Micro α} (h : Micro.Peripheral m) {s t : State} {a : α}
    (e : m.run s = .ok a t) : t.runState = s.runState := by
  rw [← h.withCoreOf_of_ok e, State.withCoreOf_runState]

/-! ### Ways of building a peripheral sequence -/

/-- A sequence is peripheral from a state where it runs as a peripheral one does, whatever the registers of the core. -/
theorem Micro.PeripheralAt.of_run_eq {α : Type} {m k : Micro α} {s : State} (hk : Micro.Peripheral k)
    (h : ∀ c, m.run (s.withCoreOf c) = k.run (s.withCoreOf c)) : Micro.PeripheralAt m s where
  blind c := by rw [h c, show m.run s = k.run s from h s]; exact (hk s).blind c
  untrapped t := by rw [show m.run s = k.run s from h s]; exact (hk s).untrapped t

theorem Micro.Peripheral.update {f : State → State} (h : ∀ s c, f (s.withCoreOf c) = (f s).withCoreOf c) :
    Micro.Peripheral (update f) :=
  fun s => ⟨fun c => congrArg (EStateM.Result.ok ()) (h s c), nofun⟩

theorem Micro.Peripheral.fetchOf {α : Type} {f : State → α} (h : ∀ s c, f (s.withCoreOf c) = f s) :
    Micro.Peripheral (fetchOf f) :=
  fun s => ⟨fun c => congrArg (EStateM.Result.ok · (s.withCoreOf c)) (h s c), nofun⟩

theorem Micro.Peripheral.pure {α : Type} (a : α) : Micro.Peripheral (Pure.pure a : Micro α) :=
  fun _ => ⟨fun _ => rfl, nofun⟩

theorem Micro.Peripheral.abort {α : Type} {e : Stop} (h : e ≠ .taken) : Micro.Peripheral (abort e : Micro α) :=
  fun _ => ⟨fun _ => rfl, fun _ he => by injection he with he; exact h he⟩

theorem Micro.Untrapped.bind {α β : Type} {m : Micro α} {f : α → Micro β} (hm : Micro.Untrapped m)
    (hf : ∀ a, Micro.Untrapped (f a)) : Micro.Untrapped (m >>= f) := by
  intro s t h
  rcases bind_eq_error.1 h with h | ⟨a, u, -, h⟩
  · exact hm s t h
  · exact hf a u t h

theorem Micro.Peripheral.bind {α β : Type} {m : Micro α} {f : α → Micro β} (hm : Micro.Peripheral m)
    (hf : ∀ a, Micro.Peripheral (f a)) : Micro.Peripheral (m >>= f) :=
  fun s => ⟨fun c => run_bind_through ((hm s).blind c) fun a t => (hf a t).blind c,
    hm.untrapped.bind (fun a => (hf a).untrapped) s⟩

/-! ### The other agents and the devices -/

theorem drawOctet_peripheral : Micro.Peripheral drawOctet := fun _ => ⟨fun _ => rfl, nofun⟩

theorem emit_peripheral (e : Emission) : Micro.Peripheral (emit e) := .update fun _ _ => rfl

theorem presentIrq_peripheral (v : Word) : Micro.Peripheral (presentIrq v) := .update fun _ _ => rfl

theorem recordMessage_peripheral (n : BitVec 4) (sender signal length : Octet) :
    Micro.Peripheral (recordMessage n sender signal length) := by
  intro s
  have noPort : Micro.Peripheral (abort (.outside .noPortInSlot) : Micro Unit) := .abort nofun
  cases hd : s.deviceAt n with
  | none => exact .of_run_eq noPort fun _ => by simp [recordMessage_run, hd]
  | some d => cases d with
    | port p =>
      exact .of_run_eq (k := update fun s => s.setDevice n (.port (received p sender signal length)))
        (.update fun _ _ => rfl) fun _ => by simp [recordMessage_run, hd]
    | external => exact .of_run_eq noPort fun _ => by simp [recordMessage_run, hd]
    | terminal t => exact .of_run_eq noPort fun _ => by simp [recordMessage_run, hd]

theorem applyAct_peripheral (a : Act) : Micro.Peripheral (applyAct a) := by
  cases a with
  | octetWrite a v => exact .update fun _ _ => rfl
  | octetRead a => exact (Micro.Peripheral.fetchOf fun _ _ => rfl).bind fun _ => emit_peripheral _
  | irqRequest v => exact presentIrq_peripheral v
  | portRecord n sender signal length => exact recordMessage_peripheral n sender signal length

theorem applyActs_peripheral (acts : List Act) : Micro.Peripheral (applyActs acts) := by
  induction acts with
  | nil => exact .pure _
  | cons a acts ih => exact (applyAct_peripheral a).bind fun _ => ih

theorem interleave_peripheral : Micro.Peripheral interleave := by
  intro s
  cases hf : s.env.foreign with
  | nil => exact .of_run_eq (.pure ()) fun _ => by simp [interleave_run, hf]
  | cons acts rest =>
    exact .of_run_eq (k := update (fun s => s.setEnv { s.env with foreign := rest }) >>= fun _ => applyActs acts)
      (.bind (.update fun _ _ => rfl) fun _ => applyActs_peripheral acts)
      fun _ => by simp [interleave_run, hf]

theorem bulkReadFrom_peripheral (a n : Nat) : Micro.Peripheral (bulkReadFrom a n) := by
  induction n generalizing a with
  | zero => exact .pure _
  | succ n ih =>
    exact interleave_peripheral.bind fun _ => (Micro.Peripheral.fetchOf fun _ _ => rfl).bind fun _ =>
      (ih _).bind fun _ => .pure _

theorem bulkRead_peripheral (a : Word) (n : Nat) : Micro.Peripheral (bulkRead a n) := by
  unfold bulkRead
  split
  · exact bulkReadFrom_peripheral _ _
  · exact .abort nofun

theorem placeOctets_peripheral (a : Nat) (data : List Octet) : Micro.Peripheral (placeOctets a data) := by
  induction data generalizing a with
  | nil => exact .pure _
  | cons v data ih =>
    exact interleave_peripheral.bind fun _ => (Micro.Peripheral.update fun _ _ => rfl).bind fun _ => ih _

theorem bulkWrite_peripheral (a : Word) (data : List Octet) : Micro.Peripheral (bulkWrite a data) := by
  unfold bulkWrite
  split
  · exact placeOctets_peripheral _ _
  · exact .abort nofun

theorem performDeed_peripheral (d : Deed) : Micro.Peripheral (performDeed d) := by
  cases d with
  | bulkWrite a data => exact bulkWrite_peripheral a data
  | bulkRead a n => exact (bulkRead_peripheral a n).bind fun _ => emit_peripheral _
  | irqRequest v => exact presentIrq_peripheral v
  | portRecord n sender signal length => exact recordMessage_peripheral n sender signal length

theorem performDeeds_peripheral (deeds : List Deed) : Micro.Peripheral (performDeeds deeds) := by
  induction deeds with
  | nil => exact .pure _
  | cons d deeds ih => exact (performDeed_peripheral d).bind fun _ => ih

theorem giveReply_peripheral (r : Reply) : Micro.Peripheral (giveReply r) :=
  (performDeeds_peripheral r.deeds).bind fun _ => by
    split
    · exact .pure _
    · exact .abort nofun

theorem awaitReply_peripheral : Micro.Peripheral awaitReply := by
  intro s
  cases hr : s.env.replies with
  | nil => exact .of_run_eq drawOctet_peripheral fun _ => by simp [awaitReply_run, hr]
  | cons r rest =>
    exact .of_run_eq (k := update (fun s => s.setEnv { s.env with replies := rest }) >>= fun _ => giveReply r)
      (.bind (.update fun _ _ => rfl) fun _ => giveReply_peripheral r)
      fun _ => by simp [awaitReply_run, hr]

theorem terminalRead_peripheral (r : BitVec 4) : Micro.Peripheral (terminalRead r) := by
  unfold terminalRead
  split
  · exact .pure _
  · exact drawOctet_peripheral

theorem portRead_peripheral (p : Port) (r : BitVec 4) : Micro.Peripheral (portRead p r) := by
  unfold portRead
  split
  case h_6 => exact drawOctet_peripheral
  all_goals exact .pure _

theorem deviceRead_peripheral (n : BitVec 4) (d : Device) (r : BitVec 4) : Micro.Peripheral (deviceRead n d r) := by
  cases d with
  | external => exact (emit_peripheral _).bind fun _ => awaitReply_peripheral
  | terminal t => exact terminalRead_peripheral r
  | port p => exact portRead_peripheral p r

theorem terminalWrite_peripheral (n : BitVec 4) (t : Terminal) (r : BitVec 4) (v : Octet) :
    Micro.Peripheral (terminalWrite n t r v) := by
  unfold terminalWrite
  split
  case h_4 => exact (bulkRead_peripheral _ _).bind fun _ => emit_peripheral _
  all_goals exact .update fun _ _ => rfl

theorem portSend_peripheral (p : Port) : Micro.Peripheral (portSend p) :=
  (bulkRead_peripheral _ _).bind fun _ => (emit_peripheral _).bind fun _ => by
    split
    · exact .abort nofun
    · exact awaitReply_peripheral.bind fun _ => .pure _

theorem portWrite_peripheral (n : BitVec 4) (p : Port) (r : BitVec 4) (v : Octet) :
    Micro.Peripheral (portWrite n p r v) := by
  unfold portWrite
  split
  case h_10 => exact portSend_peripheral p
  case h_11 => exact .pure _
  all_goals exact .update fun _ _ => rfl

theorem deviceWrite_peripheral (n : BitVec 4) (d : Device) (r : BitVec 4) (v : Octet) :
    Micro.Peripheral (deviceWrite n d r v) := by
  cases d with
  | external => exact (emit_peripheral _).bind fun _ => awaitReply_peripheral.bind fun _ => .pure _
  | terminal t => exact terminalWrite_peripheral n t r v
  | port p => exact portWrite_peripheral n p r v

/-! ### The dispatcher -/

theorem route_peripheral (a : Word) : Micro.Peripheral (route a) := by
  intro s
  cases hw : inWindow a with
  | false =>
    exact .of_run_eq (k := fetchOf fun s => s.mem.peek a.toNat) (.fetchOf fun _ _ => rfl) fun _ => route_storage hw _
  | true =>
    cases hd : s.deviceAt (windowSlot a) with
    | none => exact .of_run_eq (.pure _) fun _ => route_empty hw hd
    | some d => exact .of_run_eq (deviceRead_peripheral _ d _) fun _ => route_device hw hd

theorem routeWrite_peripheral (a : Word) (v : Octet) : Micro.Peripheral (routeWrite a v) := by
  intro s
  cases hw : inWindow a with
  | false =>
    exact .of_run_eq (k := update fun s => s.setMem (s.mem.poke a.toNat v)) (.update fun _ _ => rfl)
      fun _ => routeWrite_storage hw v _
  | true =>
    cases hd : s.deviceAt (windowSlot a) with
    | none => exact .of_run_eq (.pure _) fun _ => routeWrite_empty hw v hd
    | some d => exact .of_run_eq (deviceWrite_peripheral _ d _ v) fun _ => routeWrite_device hw v hd

theorem read_peripheral (a : Word) : Micro.Peripheral (read a) :=
  interleave_peripheral.bind fun _ => route_peripheral a

theorem write_peripheral (a : Word) (v : Octet) : Micro.Peripheral (write a v) :=
  interleave_peripheral.bind fun _ => routeWrite_peripheral a v

theorem readWord_peripheral (a : Word) : Micro.Peripheral (readWord a) :=
  (read_peripheral _).bind fun _ => (read_peripheral _).bind fun _ => .pure _

end Sys2Proof.Machine
end

section
/-! Sequences of the core: peripheral accesses, moves of `pc`, entries into a run state, and faults. Each sequence the
core performs is shown once to be built of these, every instruction included; what holds of all of them then follows by
induction on how a sequence is built. -/

namespace Sys2Proof.Machine

/-- The sequence is built of accesses that leave the registers of the core alone, of reads and writes of `pc`, of
faults, and of entries into those run states that `entered` allows. -/
inductive Micro.Built (entered : RunState → Prop) : {α : Type} → Micro α → Prop
  | peripheral {α : Type} {m : Micro α} : Micro.Peripheral m → Micro.Built entered m
  | pc : Micro.Built entered (fetchOf State.pc)
  | jump (t : Word) : Micro.Built entered (jump t)
  | advance (n : Word) : Micro.Built entered (advance n)
  | enter {r : RunState} : entered r → Micro.Built entered (enter r)
  | fault {α : Type} (c : Cause) : Micro.Built entered (takeFault c : Micro α)
  | bind {α β : Type} {m : Micro α} {f : α → Micro β} :
      Micro.Built entered m → (∀ a, Micro.Built entered (f a)) → Micro.Built entered (m >>= f)

/-! ### What the core's sequences are built of -/

section
variable {entered : RunState → Prop}

theorem Micro.Built.read (a : Word) : Micro.Built entered (read a) := .peripheral (read_peripheral a)

theorem Micro.Built.write (a : Word) (v : Octet) : Micro.Built entered (write a v) :=
  .peripheral (write_peripheral a v)

theorem Micro.Built.pure {α : Type} (a : α) : Micro.Built entered (Pure.pure a : Micro α) := .peripheral (.pure a)

theorem Micro.Built.pushOctet (k : StackSpec) (v : Octet) : Micro.Built entered (pushOctet k v) :=
  (Micro.Built.read _).bind fun _ => by
    split
    · exact .fault _
    · exact (Micro.Built.write _ _).bind fun _ => .write _ _

theorem Micro.Built.popOctet (k : StackSpec) : Micro.Built entered (popOctet k) :=
  (Micro.Built.read _).bind fun _ => by
    split
    · exact .fault _
    · exact (Micro.Built.write _ _).bind fun _ => .read _

theorem Micro.Built.push8 (v : Octet) : Micro.Built entered (push8 v) := .pushOctet _ v

theorem Micro.Built.pop8 : Micro.Built entered pop8 := .popOctet _

theorem Micro.Built.pushWord (k : StackSpec) (v : Word) : Micro.Built entered (pushWord k v) :=
  (Micro.Built.pushOctet _ _).bind fun _ => .pushOctet _ _

theorem Micro.Built.popWord (k : StackSpec) : Micro.Built entered (popWord k) :=
  (Micro.Built.popOctet _).bind fun _ => (Micro.Built.popOctet _).bind fun _ => .pure _

theorem Micro.Built.push16 (v : Word) : Micro.Built entered (push16 v) := .pushWord _ v

theorem Micro.Built.pop16 : Micro.Built entered pop16 := .popWord _

theorem Micro.Built.rpush16 (v : Word) : Micro.Built entered (rpush16 v) := .pushWord _ v

theorem Micro.Built.rpop16 : Micro.Built entered rpop16 := .popWord _

theorem Micro.Built.writeWord (a v : Word) : Micro.Built entered (writeWord a v) :=
  (Micro.Built.write _ _).bind fun _ => .write _ _

theorem Micro.Built.binary8 (f : Octet → Octet → Octet) : Micro.Built entered (binary8 f) :=
  pop8.bind fun _ => pop8.bind fun _ => (push8 _).bind fun _ => .advance _

theorem Micro.Built.binary16 (f : Word → Word → Word) : Micro.Built entered (binary16 f) :=
  pop16.bind fun _ => pop16.bind fun _ => (push16 _).bind fun _ => .advance _

theorem Micro.Built.divide8 (f : Octet → Octet → Octet) : Micro.Built entered (divide8 f) :=
  pop8.bind fun _ => pop8.bind fun _ => by
    split
    · exact .fault _
    · exact (push8 _).bind fun _ => .advance _

theorem Micro.Built.divide16 (f : Word → Word → Word) : Micro.Built entered (divide16 f) :=
  pop16.bind fun _ => pop16.bind fun _ => by
    split
    · exact .fault _
    · exact (push16 _).bind fun _ => .advance _

theorem Micro.Built.shiftWord (f : Word → Octet → Word) : Micro.Built entered (shiftWord f) :=
  pop8.bind fun _ => pop16.bind fun _ => (push16 _).bind fun _ => .advance _

theorem Micro.Built.compare8 (rel : Octet → Octet → Bool) : Micro.Built entered (compare8 rel) :=
  pop8.bind fun _ => pop8.bind fun _ => (push8 _).bind fun _ => .advance _

theorem Micro.Built.compare16 (rel : Word → Word → Bool) : Micro.Built entered (compare16 rel) :=
  pop16.bind fun _ => pop16.bind fun _ => (push8 _).bind fun _ => .advance _

theorem Micro.Built.jumpIf (taken : Octet → Bool) : Micro.Built entered (jumpIf taken) :=
  pop8.bind fun _ => pop16.bind fun _ => by
    split
    · exact .jump _
    · exact .advance _

theorem Micro.Built.readOctets (a : Word) (n : Nat) : Micro.Built entered (readOctets a n) := by
  induction n generalizing a with
  | zero => exact .pure _
  | succ n ih => exact (Micro.Built.read _).bind fun _ => (ih _).bind fun _ => .pure _

/-- The fetch enters no run state of its own (R91). -/
theorem fetchInstr_built : Micro.Built (fun _ => False) fetchInstr :=
  Micro.Built.pc.bind fun _ => (Micro.Built.read _).bind fun _ => by
    split
    · exact .fault _
    · refine (Micro.Built.readOctets _ _).bind fun _ => ?_
      split
      · exact .pure _
      · exact .fault _

/-- A resume enters Running (R246). -/
theorem Micro.Built.resume (v : Word) : Micro.Built (· = .running) (resume v) :=
  (read _).bind fun _ => (read _).bind fun _ => (jump _).bind fun _ => (read _).bind fun _ =>
    (write _ _).bind fun _ => .enter rfl

end

/-! ### The instructions -/

/-- The run states that an instruction's own sequence enters (R128, R129); a fault enters Faulted for any of them. -/
def enteredBy : Instr → RunState → Prop
  | .halt, r => r = .halted
  | .yield, r => r = .waiting
  | _, _ => False

/-- Every instruction is a sequence of the core's. The case split over the instructions, made once. -/
theorem Micro.Built.exec (i : Instr) : ∃ m, Micro.Built (enteredBy i) m ∧ ∀ s, exec i s = finish m s := by
  cases i <;> refine ⟨_, ?_, fun _ => rfl⟩
  case halt | yield =>
    exact (read _).bind fun _ => (write _ _).bind fun _ => (advance _).bind fun _ => .enter rfl
  case drop => exact pop8.bind fun _ => .advance _
  case drop16 => exact pop16.bind fun _ => .advance _
  case dup => exact pop8.bind fun _ => (push8 _).bind fun _ => (push8 _).bind fun _ => .advance _
  case dup16 => exact pop16.bind fun _ => (push16 _).bind fun _ => (push16 _).bind fun _ => .advance _
  case swap =>
    exact pop8.bind fun _ => pop8.bind fun _ => (push8 _).bind fun _ => (push8 _).bind fun _ => .advance _
  case swap16 =>
    exact pop16.bind fun _ => pop16.bind fun _ => (push16 _).bind fun _ => (push16 _).bind fun _ => .advance _
  case over8 =>
    exact pop8.bind fun _ => pop8.bind fun _ => (push8 _).bind fun _ => (push8 _).bind fun _ => (push8 _).bind fun _ =>
      .advance _
  case over16 =>
    exact pop16.bind fun _ => pop16.bind fun _ => (push16 _).bind fun _ => (push16 _).bind fun _ =>
      (push16 _).bind fun _ => .advance _
  case tor => exact pop16.bind fun _ => (rpush16 _).bind fun _ => .advance _
  case fromr => exact rpop16.bind fun _ => (push16 _).bind fun _ => .advance _
  case add | sub | mul | and | or | xor | shl | shr => exact .binary8 _
  case add16 | sub16 | mul16 | and16 | or16 | xor16 => exact .binary16 _
  case div | mod => exact .divide8 _
  case div16 | mod16 => exact .divide16 _
  case not => exact pop8.bind fun _ => (push8 _).bind fun _ => .advance _
  case not16 => exact pop16.bind fun _ => (push16 _).bind fun _ => .advance _
  case shl16 | shr16 => exact .shiftWord _
  case eq | neq | gt | lt => exact .compare8 _
  case eq16 | neq16 | gt16 | lt16 => exact .compare16 _
  case jz | jnz => exact .jumpIf _
  case call => exact pop16.bind fun _ => pc.bind fun _ => (rpush16 _).bind fun _ => .jump _
  case ret => exact rpop16.bind fun _ => .jump _
  case push => exact (push8 _).bind fun _ => .advance _
  case push16 => exact (push16 _).bind fun _ => .advance _
  case load => exact pop16.bind fun _ => (read _).bind fun _ => (push8 _).bind fun _ => .advance _
  case load16 =>
    exact pop16.bind fun _ => (read _).bind fun _ => (push8 _).bind fun _ => (read _).bind fun _ =>
      (push8 _).bind fun _ => .advance _
  case store => exact pop16.bind fun _ => pop8.bind fun _ => (write _ _).bind fun _ => .advance _
  case store16 => exact pop16.bind fun _ => pop16.bind fun _ => (writeWord _ _).bind fun _ => .advance _

/-! ### The run states a sequence of the core can end in -/

/-- A fault is taken in Faulted, whatever the surroundings do (R231). -/
theorem takeFault_runState {α : Type} {c : Cause} {s t : State} (h : (takeFault c : Micro α).run s = .error .taken t) :
    t.runState = .faulted := by
  rcases takeFault_eq_taken.1 h with ⟨_, _, _, -, -, rfl⟩ | h | ⟨_, u, -, h⟩
  · rfl
  · exact absurd h ((read_peripheral _).untrapped _ _)
  · exact absurd h ((write_peripheral _ _).untrapped _ _)

/-- A sequence that completes ends in the run state it began in, or in one it may enter. -/
theorem Micro.Built.runState_of_ok {entered : RunState → Prop} {α : Type} {m : Micro α} (h : Micro.Built entered m)
    {s t : State} {a : α} (e : m.run s = .ok a t) : t.runState = s.runState ∨ entered t.runState := by
  induction h generalizing s t with
  | peripheral hm => exact .inl (hm.runState_of_ok e)
  | pc => cases e; exact .inl rfl
  | jump _ => cases e; exact .inl rfl
  | advance _ => cases e; exact .inl rfl
  | enter hr => cases e; exact .inr hr
  | fault c => exact absurd e (takeFault_ne_ok _ _ _ _)
  | bind _ _ ihm ihf =>
    obtain ⟨b, u, hu, e⟩ := bind_eq_ok.1 e
    rcases ihf b e with h | h
    · rw [h]; exact ihm hu
    · exact .inr h

/-- A sequence that is cut short by a fault ends in Faulted (R231). -/
theorem Micro.Built.runState_of_taken {entered : RunState → Prop} {α : Type} {m : Micro α} (h : Micro.Built entered m)
    {s t : State} (e : m.run s = .error .taken t) : t.runState = .faulted := by
  induction h generalizing s t with
  | peripheral hm => exact absurd e (hm.untrapped _ _)
  | pc => cases e
  | jump _ => cases e
  | advance _ => cases e
  | enter _ => cases e
  | fault c => exact takeFault_runState e
  | bind _ _ ihm ihf =>
    rcases bind_eq_error.1 e with e | ⟨b, u, -, e⟩
    · exact ihm e
    · exact ihf b e

/-- What an instruction can end in: the run state it began in, Faulted, or the one that it enters. -/
theorem exec_runState {i : Instr} {s t : State} (e : exec i s = .next t) :
    t.runState = s.runState ∨ t.runState = .faulted ∨ enteredBy i t.runState := by
  obtain ⟨m, hm, he⟩ := Micro.Built.exec i
  rw [he] at e
  rcases finish_eq_next.1 e with e | e
  · exact (hm.runState_of_ok e).imp_right .inr
  · exact .inr (.inl (hm.runState_of_taken e))

/-- No next state that the sequence answers is in another run state than `r`. -/
def Micro.EndsIn (r : RunState) (m : Micro Unit) : Prop := ∀ s t, finish m s = .next t → t.runState = r

theorem Micro.EndsIn.enter (r : RunState) : Micro.EndsIn r (enter r) := fun _ _ e => by cases e; rfl

/-- What takes no fault can stand before a sequence without changing where it ends. -/
theorem Micro.EndsIn.bind {α : Type} {r : RunState} {m : Micro α} {f : α → Micro Unit} (hm : Micro.Untrapped m)
    (hf : ∀ a, Micro.EndsIn r (f a)) : Micro.EndsIn r (m >>= f) := by
  intro s t e
  rcases finish_eq_next.1 e with e | e
  · obtain ⟨a, u, -, e⟩ := bind_eq_ok.1 e
    exact hf a u t (finish_ok e)
  · rcases bind_eq_error.1 e with e | ⟨a, u, -, e⟩
    · exact absurd e (hm s t)
    · exact hf a u t (finish_taken e)

theorem jump_untrapped (t : Word) : Micro.Untrapped (jump t) := nofun

theorem advance_untrapped (n : Word) : Micro.Untrapped (advance n) := nofun

theorem read_untrapped (a : Word) : Micro.Untrapped (read a) := (read_peripheral a).untrapped

theorem write_untrapped (a : Word) (v : Octet) : Micro.Untrapped (write a v) := (write_peripheral a v).untrapped

/-- HALT ends in Halted (R128). -/
theorem execHalt_runState {s t : State} (e : exec .halt s = .next t) : t.runState = .halted :=
  Micro.EndsIn.bind (read_untrapped _) (fun _ => .bind (write_untrapped _ _) fun _ =>
    .bind (advance_untrapped _) fun _ => .enter _) s t e

/-- YIELD ends in Waiting (R129). -/
theorem execYield_runState {s t : State} (e : exec .yield s = .next t) : t.runState = .waiting :=
  Micro.EndsIn.bind (read_untrapped _) (fun _ => .bind (write_untrapped _ _) fun _ =>
    .bind (advance_untrapped _) fun _ => .enter _) s t e

/-- A resume ends in Running (R246). -/
theorem resume_endsIn (v : Word) : Micro.EndsIn .running (resume v) :=
  .bind (read_untrapped _) fun _ => .bind (read_untrapped _) fun _ => .bind (jump_untrapped _) fun _ =>
    .bind (read_untrapped _) fun _ => .bind (write_untrapped _ _) fun _ => .enter _

/-! ### The host's two latches -/

/-- The core, the devices and the other agents leave the host's two latches alone (R24, R25). -/
theorem latches_closed (stop trace : Bool) : Closed fun t => t.stopReq = stop ∧ t.trace = trace where
  poke _ _ _ _ h := h
  device _ _ _ _ _ _ h := h
  env _ _ _ h := h
  pc _ _ h := h
  run _ _ h := h

theorem exec_latches {i : Instr} {s t : State} (e : exec i s = .next t) :
    t.stopReq = s.stopReq ∧ t.trace = s.trace :=
  (latches_closed s.stopReq s.trace).stable.exec ⟨rfl, rfl⟩ e

/-- Settles O49: every instruction is built of parts that keep the run state, fault, or enter Halted or Waiting. -/
theorem instructionRunStates : Obligations.InstructionRunStates := by
  intro i s t hrun e
  obtain ⟨hstop, htrace⟩ := exec_latches e
  refine ⟨hstop, htrace, ?_, ?_, fun hhalt hyield => ?_⟩
  · rintro rfl; exact execHalt_runState e
  · rintro rfl; exact execYield_runState e
  · rcases exec_runState e with h | h | h
    · exact .inl (h.trans hrun)
    · exact .inr h
    · cases i with
      | halt => exact absurd rfl hhalt
      | yield => exact absurd rfl hyield
      | _ => exact h.elim

end Sys2Proof.Machine
end

section
/-! The moves of `run_state` at a step: one case for each thing that can happen at an instruction boundary. -/

namespace Sys2Proof.Machine

/-- The moves of `run_state` a step can make, from `r`, while the requests `irqs` wait (R23). -/
inductive RunState.Move (r : RunState) (irqs : List Word) : RunState → Prop
  | stay : RunState.Move r irqs r
  | start : r = .idle → RunState.Move r irqs .running
  | leave {q : RunState} : r = .running → q ≠ .idle → RunState.Move r irqs q
  | resume : r = .waiting → irqs ≠ [] → RunState.Move r irqs .running

/-- A step's move follows an arrow of the state machine (R23). -/
theorem RunState.Move.next {r q : RunState} {irqs : List Word} (h : RunState.Move r irqs q) :
    RunState.next r q = true := by
  cases h with
  | stay => cases r <;> rfl
  | start hr => rw [hr]; rfl
  | leave hr hq => rw [hr]; exact bne_iff_ne.2 hq
  | resume hr _ => rw [hr]; rfl

/-- A step's move leaves Waiting only where a request waits (R245). -/
theorem RunState.Move.request {r q : RunState} {irqs : List Word} (h : RunState.Move r irqs q) (hr : r = .waiting)
    (hq : q ≠ .waiting) : irqs ≠ [] := by
  cases h with
  | stay => exact absurd hr hq
  | start hi => rw [hi] at hr; cases hr
  | leave hi _ => rw [hi] at hr; cases hr
  | resume _ hirqs => exact hirqs

/-- What the devices and the other agents do leaves `run_state` as it is. -/
theorem Micro.Peripheral.finish_runState {m : Micro Unit} (h : Micro.Peripheral m) {s t : State}
    (e : finish m s = .next t) : t.runState = s.runState := by
  rcases finish_eq_next.1 e with e | e
  · exact h.runState_of_ok e
  · exact absurd e (h.untrapped s t)

theorem enteredBy_ne_idle {i : Instr} {r : RunState} (h : enteredBy i r) : r ≠ .idle := by
  cases i with
  | halt => rw [show r = .halted from h]; nofun
  | yield => rw [show r = .waiting from h]; nofun
  | _ => exact h.elim

/-- No instruction that starts in Running ends in Idle. -/
theorem exec_ne_idle {i : Instr} {s t : State} (hrun : s.runState = .running) (e : exec i s = .next t) :
    t.runState ≠ .idle := by
  rcases exec_runState e with h | h | h
  · rw [h, hrun]; nofun
  · rw [h]; nofun
  · exact enteredBy_ne_idle h

/-- A turn of the loop does not end in Idle: not by the stop request, not by the fault bits, not in the fetch, and not
in the instruction (R233). -/
theorem runBoundary_ne_idle {s t : State} (hrun : s.runState = .running) (e : runBoundary s = .next t) :
    t.runState ≠ .idle := by
  unfold runBoundary at e
  split at e
  · cases e; nofun
  · rcases settle_eq_next.1 e with ⟨f, u, hu, e⟩ | e
    · have hurun : u.runState = .running := ((read_peripheral _).runState_of_ok hu).trans hrun
      split at e
      · cases e; nofun
      · rcases settle_eq_next.1 e with ⟨i, w, hw, e⟩ | e
        · have hwrun : w.runState = u.runState := (fetchInstr_built.runState_of_ok hw).resolve_right id
          exact exec_ne_idle (hwrun.trans hurun) e
        · rw [fetchInstr_built.runState_of_taken e]; nofun
    · exact absurd e (read_untrapped _ s t)

theorem chooseIrq_nil (choice : Nat) : chooseIrq [] choice = none := rfl

/-- A parked core stays parked, or it resumes for one of the waiting requests (R244, R245). -/
theorem parked_runState {s t : State} (e : parked s = .next t) :
    t.runState = s.runState ∨ t.runState = .running ∧ s.env.irqs ≠ [] := by
  unfold parked at e
  split at e
  · cases e; exact .inl rfl
  · next v rest hc =>
    refine .inr ⟨resume_endsIn v _ _ e, fun h => ?_⟩
    rw [h, chooseIrq_nil] at hc
    cases hc

theorem coreMove_move {s t : State} (e : coreMove s = .next t) :
    RunState.Move s.runState s.env.irqs t.runState := by
  unfold coreMove at e
  split at e
  · cases e; exact .stay
  · next hrun => exact .leave hrun (runBoundary_ne_idle hrun e)
  · next hwait =>
    rcases parked_runState e with h | ⟨h, hirqs⟩
    · rw [h]; exact .stay
    · rw [h]; exact .resume hwait hirqs
  · cases e; exact .stay
  · cases e; exact .stay

/-! ### What an accepted host operation or delivery is -/

/-- A Load that is accepted is a peripheral sequence (R282). -/
theorem hostLoad_runState {image : List Octet} {s t : State} (e : hostLoad image s = .next t) :
    t.runState = s.runState := by
  unfold hostLoad at e
  split at e
  · cases e
  · split at e
    · cases e
    · exact ((placeOctets_peripheral _ _).bind fun _ => placeOctets_peripheral _ _).finish_runState e

theorem hostAttach_runState {n : BitVec 4} {kind : DeviceKind} {s t : State} (e : hostAttach n kind s = .next t) :
    t.runState = s.runState := by
  unfold hostAttach at e
  split at e
  · cases e
  · split at e
    · cases e
    · cases e; rfl

/-- Run is accepted in Idle only and ends in Running (R284). -/
theorem hostRun_runState {s t : State} (e : hostRun s = .next t) : s.runState = .idle ∧ t.runState = .running := by
  unfold hostRun at e
  split at e
  · cases e
  · next hidle =>
    exact ⟨Decidable.not_not.1 hidle, Micro.EndsIn.bind (readWord_peripheral _).untrapped
      (fun _ => .bind (jump_untrapped _) fun _ => .enter _) s t e⟩

theorem deliverMessage_runState {n : BitVec 4} {sender signal : Octet} {payload : List Octet} {s t : State}
    (e : deliverMessage n sender signal payload s = .next t) : t.runState = s.runState := by
  unfold deliverMessage at e
  split at e
  · cases e
  · split at e
    · exact (performDeeds_peripheral _).finish_runState e
    · cases e

theorem acceptInput_move {i : Input} {s t : State} (e : acceptInput i s = .next t) :
    RunState.Move s.runState s.env.irqs t.runState := by
  cases i with
  | core => exact coreMove_move e
  | run =>
    obtain ⟨hidle, hrun⟩ := hostRun_runState e
    rw [hrun]; exact .start hidle
  | load image => rw [hostLoad_runState e]; exact .stay
  | attach n kind => rw [hostAttach_runState e]; exact .stay
  | stop => cases e; exact .stay
  | setTrace b => cases e; exact .stay
  | deed d => rw [(performDeed_peripheral d).finish_runState e]; exact .stay
  | deliver n sender signal payload => rw [deliverMessage_runState e]; exact .stay

theorem step_move {s t : State} (e : step s = .next t) : RunState.Move s.runState s.env.irqs t.runState := by
  unfold step machineStep at e
  split at e
  · exact coreMove_move e
  · next rest _ => exact acceptInput_move (s := s.setEnv { s.env with inputs := rest }) e

/-- Settles O51: each thing that can happen at a boundary makes one of the moves of `RunState.Move`. -/
theorem runStateGraph : Obligations.RunStateGraph :=
  fun _ _ e => ⟨(step_move e).next, (step_move e).request⟩

end Sys2Proof.Machine
end

section
/-! Noninterference of the trace latch: every sequence commutes with setting it, so every step does. -/

namespace Sys2Proof.Machine

/-- The sequence runs alike whatever the trace latch holds, and leaves the latch as it is. -/
def Micro.TraceBlind {α : Type} (m : Micro α) : Prop :=
  ∀ s b, m.run (s.setTrace b) = through (fun t => t.setTrace b) (m.run s)

theorem Micro.TraceBlind.bind {α β : Type} {m : Micro α} {f : α → Micro β} (hm : Micro.TraceBlind m)
    (hf : ∀ a, Micro.TraceBlind (f a)) : Micro.TraceBlind (m >>= f) :=
  fun s b => run_bind_through (hm s b) fun a t => hf a t b

/-- What is blind to all registers of the core is blind to the trace latch. -/
theorem Micro.Peripheral.traceBlind {α : Type} {m : Micro α} (h : Micro.Peripheral m) : Micro.TraceBlind m := by
  intro s b
  have hb : m.run (s.setTrace b) = through (fun t => t.withCoreOf (s.setTrace b)) (m.run s) :=
    (h s).blind (s.setTrace b)
  have hs : m.run s = through (fun t => t.withCoreOf s) (m.run s) := (h s).blind s
  rw [hb, hs]
  cases m.run s with
  | ok a t => rfl
  | error e t => rfl

theorem takeFault_traceBlind {α : Type} (c : Cause) : Micro.TraceBlind (takeFault c : Micro α) :=
  (read_peripheral _).traceBlind.bind fun _ => (write_peripheral _ _).traceBlind.bind fun _ =>
    Micro.TraceBlind.bind (fun _ _ => rfl) fun _ _ _ => rfl

/-- No sequence of the core sees the trace latch. -/
theorem Micro.Built.traceBlind {entered : RunState → Prop} {α : Type} {m : Micro α} (h : Micro.Built entered m) :
    Micro.TraceBlind m := by
  induction h with
  | peripheral hm => exact hm.traceBlind
  | pc => exact fun _ _ => rfl
  | jump _ => exact fun _ _ => rfl
  | advance _ => exact fun _ _ => rfl
  | enter _ => exact fun _ _ => rfl
  | fault c => exact takeFault_traceBlind c
  | bind _ _ ihm ihf => exact ihm.bind ihf

/-- The operation answers alike, but for the latch, whatever the trace latch holds. -/
def TraceIgnored (f : State → Host.Outcome State Fault Refusal) : Prop :=
  ∀ s b, forgetTrace (f (s.setTrace b)) = forgetTrace (f s)

theorem TraceIgnored.settle {α : Type} {m : Micro α} {next : α → State → Host.Outcome State Fault Refusal}
    (hm : Micro.TraceBlind m) (hn : ∀ a, TraceIgnored (next a)) : TraceIgnored fun s => settle (m.run s) next := by
  intro s b
  show forgetTrace (Machine.settle (m.run (s.setTrace b)) next) = forgetTrace (Machine.settle (m.run s) next)
  rw [hm s b]
  cases m.run s with
  | ok a t => exact hn a t b
  | error e t => cases e <;> rfl

theorem TraceIgnored.finish {m : Micro Unit} (hm : Micro.TraceBlind m) : TraceIgnored (finish m) :=
  .settle hm fun _ _ _ => rfl

theorem exec_traceIgnored (i : Instr) : TraceIgnored (exec i) := by
  obtain ⟨m, hm, he⟩ := Micro.Built.exec i
  rw [funext he]
  exact .finish hm.traceBlind

/-- Two branches taken by a test that does not see the latch. -/
theorem TraceIgnored.ite {p : State → Prop} [DecidablePred p] {f g : State → Host.Outcome State Fault Refusal}
    (hp : ∀ s b, p (s.setTrace b) ↔ p s) (hf : TraceIgnored f) (hg : TraceIgnored g) :
    TraceIgnored fun s => if p s then f s else g s := by
  intro s b
  show forgetTrace (if p (s.setTrace b) then f (s.setTrace b) else g (s.setTrace b)) = _
  simp only [hp s b]
  split
  · exact hf s b
  · exact hg s b

theorem TraceIgnored.refused (r : Refusal) : TraceIgnored fun _ => .refused r := fun _ _ => rfl

theorem TraceIgnored.next {f : State → State} (h : ∀ s b, (f (s.setTrace b)).setTrace false = (f s).setTrace false) :
    TraceIgnored fun s => .next (f s) := fun s b => congrArg Host.Outcome.next (h s b)

theorem runBoundary_traceIgnored : TraceIgnored runBoundary :=
  .ite (fun _ _ => .rfl) (.next fun _ _ => rfl) <| .settle (read_peripheral _).traceBlind fun _ =>
    .ite (fun _ _ => .rfl) (.next fun _ _ => rfl) <| .settle fetchInstr_built.traceBlind exec_traceIgnored

theorem parked_traceIgnored : TraceIgnored parked := by
  intro s b
  unfold parked
  rw [State.setTrace_env]
  split
  · rfl
  · exact TraceIgnored.finish (Micro.Built.resume _).traceBlind (s.setEnv _) b

theorem coreMove_traceIgnored : TraceIgnored coreMove := by
  intro s b
  unfold coreMove
  rw [State.setTrace_runState]
  split
  case h_2 => exact runBoundary_traceIgnored s b
  case h_3 => exact parked_traceIgnored s b
  all_goals rfl

theorem hostLoad_traceIgnored (image : List Octet) : TraceIgnored (hostLoad image) :=
  .ite (fun _ _ => .rfl) (.refused _) <| .ite (fun _ _ => .rfl) (.refused _) <|
    .finish ((placeOctets_peripheral _ _).bind fun _ => placeOctets_peripheral _ _).traceBlind

theorem hostAttach_traceIgnored (n : BitVec 4) (kind : DeviceKind) : TraceIgnored (hostAttach n kind) :=
  .ite (fun _ _ => .rfl) (.refused _) <| .ite (fun _ _ => .rfl) (.refused _) <| .next fun _ _ => rfl

theorem hostRun_traceIgnored : TraceIgnored hostRun :=
  .ite (fun _ _ => .rfl) (.refused _) <| .finish <| Micro.Built.traceBlind (entered := (· = .running)) <|
    (Micro.Built.peripheral (readWord_peripheral _)).bind fun _ => (Micro.Built.jump _).bind fun _ => .enter rfl

theorem deliverMessage_traceIgnored (n : BitVec 4) (sender signal : Octet) (payload : List Octet) :
    TraceIgnored (deliverMessage n sender signal payload) := by
  intro s b
  unfold deliverMessage
  rw [State.deviceAt_setTrace]
  split
  · rfl
  · split
    · exact TraceIgnored.finish (performDeeds_peripheral _).traceBlind s b
    · rfl

theorem acceptInput_traceIgnored (i : Input) : TraceIgnored (acceptInput i) := by
  cases i with
  | core => exact coreMove_traceIgnored
  | load image => exact hostLoad_traceIgnored image
  | attach n kind => exact hostAttach_traceIgnored n kind
  | run => exact hostRun_traceIgnored
  | stop => exact .next fun _ _ => rfl
  | setTrace b => exact .next fun _ _ => rfl
  | deed d => exact .finish (performDeed_peripheral d).traceBlind
  | deliver n sender signal payload => exact deliverMessage_traceIgnored n sender signal payload

theorem step_traceIgnored : TraceIgnored step := by
  intro s b
  unfold step machineStep
  rw [State.setTrace_env]
  split
  · exact coreMove_traceIgnored s b
  · exact acceptInput_traceIgnored _ (s.setEnv _) b

/-- An input of the script is what the step accepts. -/
theorem step_input {s : State} {i : Input} {later : List Input} (h : s.env.inputs = i :: later) :
    step s = acceptInput i (s.setEnv { s.env with inputs := later }) := by
  simp only [step, machineStep, h]

/-- Settles O60: no operation of a step sees the trace latch, and only SetTrace changes it. -/
theorem traceHasNoEffect : Obligations.TraceHasNoEffect :=
  ⟨rfl, fun _ _ _ h => step_input h, step_traceIgnored⟩

end Sys2Proof.Machine
end

section
/-! The canonical form of storage: writes inside the address space are the only thing a step does to storage, so the form
is a closed property. -/

namespace Sys2Proof.Machine

theorem canonicalStorage_closed : Closed fun s => s.mem.wf where
  poke _ _ v ha h := Memory.poke_wf v h ha
  device _ _ _ _ _ _ h := h
  env _ _ _ h := h
  pc _ _ h := h
  run _ _ h := h

/-- Settles O12: the canonical form is closed under all that the core, the devices and the other agents do, and the host's
latches and attachments do not touch storage. -/
theorem canonicalStorageKept : Obligations.CanonicalStorageKept :=
  fun _ _ hwf e => canonicalStorage_closed.step hwf (fun _ _ => hwf) (fun _ h => h) (fun _ _ h => h)
    (fun _ _ _ _ h => h) e

/-- Settles O13: the storage list is empty after reset. -/
theorem canonicalStorageAtReset : Obligations.CanonicalStorageAtReset := State.reset_mem_wf

end Sys2Proof.Machine
end

section
/-! The storage octets under the device window. With no script left for other agents and devices, a device access changes
slots and surroundings only, and the one write to storage is the dispatcher's, outside the window. -/

namespace Sys2Proof.Machine

/-- Nothing is scripted for other agents and for devices, and the octets under the window read as in `m`. -/
structure WindowHeld (m : Memory) (s : State) : Prop where
  foreign : s.env.foreign = []
  replies : s.env.replies = []
  window : ∀ a, 0x0300 ≤ a → a ≤ 0x03FF → s.mem.peek a = m.peek a

section
variable {m : Memory}

theorem WindowHeld.setDevice {s : State} (h : WindowHeld m s) (n : BitVec 4) (d : Device) :
    WindowHeld m (s.setDevice n d) := ⟨h.foreign, h.replies, h.window⟩

theorem WindowHeld.setPc {s : State} (h : WindowHeld m s) (v : Word) : WindowHeld m (s.setPc v) :=
  ⟨h.foreign, h.replies, h.window⟩

theorem WindowHeld.setRunState {s : State} (h : WindowHeld m s) (r : RunState) : WindowHeld m (s.setRunState r) :=
  ⟨h.foreign, h.replies, h.window⟩

theorem WindowHeld.setEnv {s : State} (h : WindowHeld m s) {e : Env} (hf : e.foreign = s.env.foreign)
    (hr : e.replies = s.env.replies) : WindowHeld m (s.setEnv e) :=
  ⟨hf.trans h.foreign, hr.trans h.replies, h.window⟩

/-- A storage write outside the window leaves the octets under it (R52). -/
theorem WindowHeld.poke {s : State} (h : WindowHeld m s) {a : Word} (ha : inWindow a = false) (v : Octet) :
    WindowHeld m (s.setMem (s.mem.poke a.toNat v)) where
  foreign := h.foreign
  replies := h.replies
  window b hlow hhigh := by
    have hne : b ≠ a.toNat := by
      rintro rfl
      rw [(inWindow_iff a).2 ⟨hlow, hhigh⟩] at ha
      cases ha
    rw [State.setMem_mem, Memory.peek_poke_other _ _ hne, h.window b hlow hhigh]

/-! ### Device accesses -/

theorem drawOctet_windowHeld : Micro.Keeps (WindowHeld m) drawOctet := fun _ hs => hs.setEnv rfl rfl

theorem emit_windowHeld (e : Emission) : Micro.Keeps (WindowHeld m) (emit e) := fun _ hs => hs.setEnv rfl rfl

theorem setDevice_windowHeld (n : BitVec 4) (d : Device) :
    Micro.Keeps (WindowHeld m) (update fun s => s.setDevice n d) := .update fun _ hs => hs.setDevice n d

/-- With the script of replies used up, an external device returns at once and does nothing (log entry 6). -/
theorem awaitReply_windowHeld : Micro.Keeps (WindowHeld m) awaitReply := by
  intro s hs
  rw [awaitReply_run, hs.replies]
  exact drawOctet_windowHeld s hs

theorem bulkRead_windowHeld (a : Word) (n : Nat) : Micro.Keeps (WindowHeld m) (bulkRead a n) := by
  intro s hs
  by_cases hfit : a.toNat + n ≤ 65536
  · rw [bulkRead_undisturbed hs.foreign hfit]; exact hs
  · rw [bulkRead_outside (Nat.lt_of_not_le hfit)]; exact hs

theorem terminalRead_windowHeld (r : BitVec 4) : Micro.Keeps (WindowHeld m) (terminalRead r) := by
  unfold terminalRead
  split
  · exact .pure _
  · exact drawOctet_windowHeld

theorem portRead_windowHeld (p : Port) (r : BitVec 4) : Micro.Keeps (WindowHeld m) (portRead p r) := by
  unfold portRead
  split
  case h_6 => exact drawOctet_windowHeld
  all_goals exact .pure _

theorem deviceRead_windowHeld (n : BitVec 4) (d : Device) (r : BitVec 4) :
    Micro.Keeps (WindowHeld m) (deviceRead n d r) := by
  cases d with
  | external => exact (emit_windowHeld _).bind fun _ => awaitReply_windowHeld
  | terminal t => exact terminalRead_windowHeld r
  | port p => exact portRead_windowHeld p r

theorem terminalWrite_windowHeld (n : BitVec 4) (t : Terminal) (r : BitVec 4) (v : Octet) :
    Micro.Keeps (WindowHeld m) (terminalWrite n t r v) := by
  unfold terminalWrite
  split
  case h_4 => exact (bulkRead_windowHeld _ _).bind fun _ => emit_windowHeld _
  all_goals exact setDevice_windowHeld _ _

theorem portSend_windowHeld (p : Port) : Micro.Keeps (WindowHeld m) (portSend p) :=
  (bulkRead_windowHeld _ _).bind fun _ => (emit_windowHeld _).bind fun _ => by
    split
    · exact .abort _
    · exact awaitReply_windowHeld.bind fun _ => .pure _

theorem portWrite_windowHeld (n : BitVec 4) (p : Port) (r : BitVec 4) (v : Octet) :
    Micro.Keeps (WindowHeld m) (portWrite n p r v) := by
  unfold portWrite
  split
  case h_10 => exact portSend_windowHeld p
  case h_11 => exact .pure _
  all_goals exact setDevice_windowHeld _ _

theorem deviceWrite_windowHeld (n : BitVec 4) (d : Device) (r : BitVec 4) (v : Octet) :
    Micro.Keeps (WindowHeld m) (deviceWrite n d r v) := by
  cases d with
  | external => exact (emit_windowHeld _).bind fun _ => awaitReply_windowHeld.bind fun _ => .pure _
  | terminal t => exact terminalWrite_windowHeld n t r v
  | port p => exact portWrite_windowHeld n p r v

/-! ### The dispatcher and the step -/

theorem read_windowHeld (a : Word) : Micro.Keeps (WindowHeld m) (read a) := by
  intro s hs
  rw [read_undisturbed hs.foreign]
  cases hw : inWindow a with
  | false => rw [route_storage hw]; exact hs
  | true =>
    cases hd : s.deviceAt (windowSlot a) with
    | none => rw [route_empty hw hd]; exact hs
    | some d => rw [route_device hw hd]; exact deviceRead_windowHeld _ d _ s hs

theorem write_windowHeld (a : Word) (v : Octet) : Micro.Keeps (WindowHeld m) (write a v) := by
  intro s hs
  rw [write_undisturbed hs.foreign]
  cases hw : inWindow a with
  | false => rw [routeWrite_storage hw]; exact hs.poke hw v
  | true =>
    cases hd : s.deviceAt (windowSlot a) with
    | none => rw [routeWrite_empty hw v hd]; exact hs
    | some d => rw [routeWrite_device hw v hd]; exact deviceWrite_windowHeld _ d _ v s hs

theorem windowHeld_stable : Stable (WindowHeld m) where
  read := read_windowHeld
  write := write_windowHeld
  pc _ v hs := hs.setPc v
  run _ r hs := hs.setRunState r

/-- A parked core reads its vector slot and clears WAITING through the dispatcher (R246). -/
theorem parked_windowHeld {s t : State} (hs : WindowHeld m s) (e : parked s = .next t) : WindowHeld m t := by
  unfold parked at e
  split at e
  · cases e; exact hs
  · refine (windowHeld_stable.resume _).finish ?_ e
    exact hs.setEnv rfl rfl

theorem coreMove_windowHeld {s t : State} (hs : WindowHeld m s) (e : coreMove s = .next t) : WindowHeld m t := by
  unfold coreMove at e
  split at e
  case h_2 => exact windowHeld_stable.runBoundary hs e
  case h_3 => exact parked_windowHeld hs e
  all_goals cases e; exact hs

end

/-- With no input scripted the core moves. -/
theorem step_core {s : State} (h : s.env.inputs = []) : step s = coreMove s := by
  simp only [step, machineStep, h]

/-- Settles O14: every access of a core that is alone keeps the octets under the window, so every move of it does. -/
theorem windowStorageUnreached : Obligations.WindowStorageUnreached := by
  rintro s t a ⟨hinputs, hforeign, hreplies⟩ e hlow hhigh
  rw [step_core hinputs] at e
  exact (coreMove_windowHeld (m := s.mem) ⟨hforeign, hreplies, fun _ _ _ => rfl⟩ e).window a hlow hhigh

end Sys2Proof.Machine
end

section
/-! The dispatcher's addresses and its two octet accesses, and the bulk-copy port, for an undisturbed machine. -/

namespace Sys2Proof.Machine

/-! ### The fields of a window address -/

theorem windowSlot_toNat (a : Word) : (windowSlot a).toNat = a.toNat / 16 % 16 := by
  simp only [windowSlot, BitVec.extractLsb'_toNat, Nat.shiftRight_eq_div_pow]

theorem windowRegister_toNat (a : Word) : (windowRegister a).toNat = a.toNat % 16 := by
  simp only [windowRegister, BitVec.extractLsb'_toNat, Nat.shiftRight_zero]

/-- The window is the addresses whose high octet is 0x03 (R52). -/
theorem inWindow_iff_div (a : Word) : inWindow a = true ↔ a.toNat / 256 = 3 := by
  rw [inWindow_iff]; omega

theorem inWindow_eq_false_iff_div (a : Word) : inWindow a = false ↔ a.toNat / 256 ≠ 3 := by
  rw [← Bool.not_eq_true, inWindow_iff_div]

/-- Settles O6: the fields are the base-16 digits of the address. -/
theorem windowAddressFields : Obligations.WindowAddressFields := by
  refine ⟨fun S R a ha => ?_, fun a hw => ⟨windowSlot a, windowRegister a, ?_⟩⟩
  · have := S.isLt
    have := R.isLt
    refine ⟨(inWindow_iff a).2 (by omega), BitVec.eq_of_toNat_eq ?_, BitVec.eq_of_toNat_eq ?_⟩
    · rw [windowSlot_toNat]; omega
    · rw [windowRegister_toNat]; omega
  · have := (inWindow_iff a).1 hw
    rw [windowSlot_toNat, windowRegister_toNat]
    omega

/-! ### The two octet accesses -/

/-- Settles O7: with no other agent's act before it, the read is routed as it stands. -/
theorem dispatcherRead : Obligations.DispatcherRead := by
  intro s a h
  rw [read_undisturbed h, ← inWindow_eq_false_iff_div, ← inWindow_iff_div]
  exact ⟨fun hw => route_storage hw s, fun hw hd => route_empty hw hd, fun d hw hd => route_device hw hd⟩

/-- Everything but the storage octet written is as before. -/
theorem kept_poke (s : State) (a : Nat) (v : Octet) : Kept s (s.setMem (s.mem.poke a v)) fun b => b = a :=
  ⟨rfl, rfl, rfl, rfl, fun _ hb => Memory.peek_poke_other _ v hb⟩

/-- Settles O8: with no other agent's act before it, the write is routed as it stands. -/
theorem dispatcherWrite : Obligations.DispatcherWrite := by
  intro s a v h
  rw [write_undisturbed h, ← inWindow_eq_false_iff_div, ← inWindow_iff_div]
  refine ⟨fun hw => ⟨_, routeWrite_storage hw v s, rfl, rfl, ?_, kept_poke s _ v⟩, fun hw hd => routeWrite_empty hw v hd,
    fun d hw hd => routeWrite_device hw v hd⟩
  exact Memory.peek_poke_same _ _ _

/-! ### The bulk-copy port -/

/-- The octets of a transfer stand in storage, in ascending order (R57). -/
theorem Memory.getElem?_pokeList (m : Memory) (a : Nat) {data : List Octet} {k : Nat} (hk : k < data.length) :
    data[k]? = some ((m.pokeList a data).peek (a + k)) := by
  rw [Memory.peek_pokeList, if_pos (by omega), Nat.add_sub_cancel_left, List.getD_eq_getElem _ _ hk,
    List.getElem?_eq_getElem hk]

/-- Everything but the storage octets of the transfer is as before. -/
theorem kept_pokeList (s : State) (a : Nat) (data : List Octet) :
    Kept s (s.setMem (s.mem.pokeList a data)) fun b => a ≤ b ∧ b < a + data.length :=
  ⟨rfl, rfl, rfl, rfl, fun b hb => by rw [State.setMem_mem, Memory.peek_pokeList, if_neg hb]⟩

/-- Settles O9: the port's transfers are `pokeList` and `peekList` of storage, or refused. -/
theorem bulkCopyTransfers : Obligations.BulkCopyTransfers := by
  intro s a data n h
  refine ⟨fun hfit => ⟨_, bulkWrite_undisturbed h hfit, rfl, rfl, fun k hk => ?_, kept_pokeList s _ data⟩,
    fun hpast => bulkWrite_outside hpast s,
    fun hfit => ⟨s.mem.peekList a.toNat n, bulkRead_undisturbed h hfit, Memory.peekList_length _ _ _,
      fun k hk => Memory.peekList_getElem? _ _ _ _ hk, performDeed_bulkRead_undisturbed h hfit⟩,
    fun hpast => bulkRead_outside hpast s⟩
  exact Memory.getElem?_pokeList _ _ hk

end Sys2Proof.Machine
end

section
/-! The data stack as a list: what storage reads as once octets are pushed, and what the pops and pushes of an undisturbed
machine make of the list. -/

namespace Sys2Proof.Machine

/-! ### One octet written twice -/

theorem Memory.dropCell_eq_self {m : Memory} {a : Nat} (h : ∀ c ∈ m, c.1 ≠ a) : m.dropCell a = m := by
  induction m with
  | nil => rfl
  | cons c m ih =>
    obtain ⟨k, v⟩ := c
    have hk : k ≠ a := h (k, v) (by simp)
    rw [Memory.dropCell, if_neg hk, ih fun c hc => h c (by simp [hc])]

theorem Memory.dropCell_addCell {m : Memory} {a : Nat} (v : Octet) (h : ∀ c ∈ m, c.1 ≠ a) :
    (m.addCell a v).dropCell a = m := by
  induction m with
  | nil => simp [Memory.addCell, Memory.dropCell]
  | cons c m ih =>
    obtain ⟨k, w⟩ := c
    have hk : k ≠ a := h (k, w) (by simp)
    by_cases hlt : a < k
    · rw [Memory.addCell, if_pos hlt, Memory.dropCell, if_pos rfl, Memory.dropCell_eq_self h]
    · rw [Memory.addCell, if_neg hlt, Memory.dropCell, if_neg hk, ih fun c hc => h c (by simp [hc])]

/-- Of two writes to one address the second one counts, in the list itself. -/
theorem Memory.poke_poke_same (m : Memory) (a : Nat) (v w : Octet) : (m.poke a v).poke a w = m.poke a w := by
  have absent : ∀ c ∈ m.dropCell a, c.1 ≠ a := fun c hc => ((m.mem_dropCell a c).1 hc).2
  have hdrop : (m.poke a v).dropCell a = m.dropCell a := by
    unfold Memory.poke
    split
    · exact Memory.dropCell_eq_self absent
    · exact Memory.dropCell_addCell v absent
  rw [Memory.poke, hdrop, ← Memory.poke]

/-- What a transfer wrote is what is read back from its range. -/
theorem Memory.peekList_pokeList (m : Memory) (a : Nat) (data : List Octet) :
    (m.pokeList a data).peekList a data.length = data := by
  apply List.ext_getElem?
  intro k
  by_cases hk : k < data.length
  · rw [Memory.peekList_getElem? _ _ _ _ hk, Memory.getElem?_pokeList m a hk]
  · rw [List.getElem?_eq_none (by rw [Memory.peekList_length]; omega), List.getElem?_eq_none (by omega)]

/-! ### Storage with octets pushed -/

theorem peek_withDepth (m : Memory) (d a : Nat) :
    (withDepth m d).peek a = if a = 2 then BitVec.ofNat 8 d else m.peek a := Memory.peek_poke m 2 a _

theorem peek_pushed (m : Memory) (d a : Nat) (outs : List Octet) :
    (pushed m d outs).peek a =
      if a = 2 then BitVec.ofNat 8 (d + outs.length) else (m.pokeList (256 + d) outs).peek a :=
  peek_withDepth _ _ a

theorem withDepth_withDepth (m : Memory) (d e : Nat) : withDepth (withDepth m d) e = withDepth m e :=
  Memory.poke_poke_same _ _ _ _

theorem pushed_nil (m : Memory) (d : Nat) : pushed m d [] = withDepth m d := rfl

/-- The depth octet is overwritten by every push, so what it held before is lost. -/
theorem peek_pushed_withDepth (m : Memory) (d e a : Nat) (outs : List Octet) :
    (pushed (withDepth m d) e outs).peek a = (pushed m e outs).peek a := by
  simp only [peek_pushed, Memory.peek_pokeList, peek_withDepth]
  split_ifs <;> rfl

/-- Two pushes one after the other. -/
theorem peek_pushed_pushed (m : Memory) (d a : Nat) (x y : Octet) :
    (pushed (pushed m d [x]) (d + 1) [y]).peek a = (pushed m d [x, y]).peek a := by
  simp only [peek_pushed, Memory.pokeList, Memory.peek_poke, List.length_cons, List.length_nil]
  split_ifs <;> first | rfl | omega

/-! ### The list -/

/-- The data stack is read from the octets below 0x0200. -/
theorem ds_eq_of_peek_eq {s t : State} (h : ∀ a < 0x0200, t.mem.peek a = s.mem.peek a) : t.ds = s.ds := by
  have hdepth : t.depth dataStack = s.depth dataStack := by
    unfold State.depth
    rw [h _ (by decide)]
  have hlt : s.depth dataStack < 256 := BitVec.isLt _
  unfold State.ds State.stack
  rw [hdepth]
  refine Memory.peekList_congr _ _ _ _ fun i hi => h _ ?_
  rw [show dataStack.base.toNat = 256 from rfl]
  omega

@[simp] theorem ds_length (s : State) : s.ds.length = s.depth dataStack := Memory.peekList_length _ _ _

theorem ds_length_lt (s : State) : s.ds.length < 256 := by
  rw [ds_length]; exact BitVec.isLt _

/-- The stack once everything from some octet up is taken off and `outs` is put in its place. -/
theorem ds_pushed {s : State} {below tail outs : List Octet} (h : s.ds = below ++ tail)
    (hlen : below.length + outs.length < 256) : (s.setMem (pushed s.mem below.length outs)).ds = below ++ outs := by
  have hdepth : (s.setMem (pushed s.mem below.length outs)).depth dataStack = below.length + outs.length := by
    show ((pushed s.mem below.length outs).peek 2).toNat = _
    rw [peek_pushed, if_pos rfl, BitVec.toNat_ofNat, Nat.mod_eq_of_lt hlen]
  have hread : ∀ a, 256 ≤ a →
      (pushed s.mem below.length outs).peek a = (s.mem.pokeList (256 + below.length) outs).peek a := fun a ha => by
    rw [peek_pushed, if_neg (by omega)]
  have hbelow : s.mem.peekList 256 below.length = below := by
    have hsplit : s.mem.peekList 256 below.length ++ s.mem.peekList (256 + below.length) tail.length = below ++ tail := by
      rw [← Memory.peekList_append, ← List.length_append, ← h, ds_length]
      rfl
    exact (List.append_inj hsplit (Memory.peekList_length _ _ _)).1
  calc (s.setMem (pushed s.mem below.length outs)).ds
      = (pushed s.mem below.length outs).peekList 256 (below.length + outs.length) := by
        rw [← hdepth]; rfl
    _ = (s.mem.pokeList (256 + below.length) outs).peekList 256 (below.length + outs.length) :=
        Memory.peekList_congr _ _ _ _ fun i _ => hread _ (by omega)
    _ = (s.mem.pokeList (256 + below.length) outs).peekList 256 below.length ++ outs := by
        rw [Memory.peekList_append, Memory.peekList_pokeList]
    _ = s.mem.peekList 256 below.length ++ outs := by
        congr 1
        exact Memory.peekList_congr _ _ _ _ fun i hi => by rw [Memory.peek_pokeList, if_neg (by omega)]
    _ = below ++ outs := by rw [hbelow]

/-- The stack once everything from some octet up is taken off. -/
theorem ds_withDepth {s : State} {below tail : List Octet} (h : s.ds = below ++ tail) :
    (s.setMem (withDepth s.mem below.length)).ds = below := by
  have hlt := ds_length_lt s
  rw [h, List.length_append] at hlt
  rw [← pushed_nil, ds_pushed h (by rw [List.length_nil]; omega), List.append_nil]

/-! ### Pops and pushes -/

theorem depthOctet_eq (s : State) : s.mem.peek dataStack.depthAddr.toNat = BitVec.ofNat 8 s.ds.length := by
  rw [ds_length, State.depth, BitVec.ofNat_toNat, BitVec.setWidth_eq]

/-- A pop returns the top octet and takes it off (R121). -/
theorem pop8_of_ds {s : State} (h : s.undisturbed) {below : List Octet} {v : Octet} (hs : s.ds = below ++ [v]) :
    pop8.run s = .ok v (s.setMem (withDepth s.mem below.length)) := by
  have hdepth : s.depth dataStack = below.length + 1 := by rw [← ds_length, hs, List.length_append]; rfl
  have htop : s.mem.peek (dataStack.base.toNat + (s.depth dataStack - 1)) = v := by
    have hget : s.ds[below.length]? = some v := by rw [hs]; simp
    unfold State.ds State.stack at hget
    rw [Memory.peekList_getElem? _ _ _ _ (by omega)] at hget
    rw [hdepth]
    exact Option.some.inj hget
  have hoctet : s.mem.peek dataStack.depthAddr.toNat - 1 = BitVec.ofNat 8 below.length := by
    rw [depthOctet_eq, ds_length, hdepth]
    bv_omega
  rw [pop8, popOctet_undisturbed dataStack_isStack h (by omega), htop, hoctet]
  rfl

/-- A 16-bit pop takes two octets, the low one on top (R123). -/
theorem pop16_of_ds {s : State} (h : s.undisturbed) {below : List Octet} {v : Word}
    (hs : s.ds = below ++ wordOctets v) : pop16.run s = .ok v (s.setMem (withDepth s.mem below.length)) := by
  have hs : s.ds = (below ++ [highOctet v]) ++ [lowOctet v] := by rw [hs]; simp [wordOctets]
  have hhigh := pop8_of_ds (undisturbed_mem h _) (ds_withDepth hs)
  rw [State.setMem_mem, withDepth_withDepth] at hhigh
  exact popWord_eq_ok.2 ⟨_, _, _, pop8_of_ds h hs, hhigh, joinOctets_halves v⟩

/-- The two writes of a push: the next free slot, then the depth octet. -/
theorem pushed_singleton (s : State) (v : Octet) :
    pushed s.mem s.ds.length [v] =
      (s.mem.poke (slotAddr dataStack (s.mem.peek dataStack.depthAddr.toNat)).toNat v).poke dataStack.depthAddr.toNat
        (s.mem.peek dataStack.depthAddr.toNat + 1) := by
  have hslot : (slotAddr dataStack (s.mem.peek dataStack.depthAddr.toNat)).toNat = dsBase.toNat + s.ds.length := by
    rw [slotAddr_toNat dataStack_isStack, ds_length]
    rfl
  have hdepth : s.mem.peek dataStack.depthAddr.toNat + 1 = BitVec.ofNat 8 (s.ds.length + 1) := by
    rw [depthOctet_eq, BitVec.ofNat_add]
    rfl
  rw [hslot, hdepth]
  rfl

/-- A push with room for it puts the octet on top (R120). -/
theorem push8_of_room {s : State} (h : s.undisturbed) (hroom : s.ds.length < stackMax) (v : Octet) :
    (push8 v).run s = .ok () (s.setMem (pushed s.mem s.ds.length [v])) := by
  rw [ds_length] at hroom
  rw [push8, pushOctet_undisturbed dataStack_isStack h hroom, pushed_singleton, slotAddr_toNat dataStack_isStack]
  rfl

/-- The stack after a push with room for it. -/
theorem ds_push {s : State} (hroom : s.ds.length < stackMax) (v : Octet) :
    (s.setMem (pushed s.mem s.ds.length [v])).ds = s.ds ++ [v] := by
  unfold stackMax at hroom
  exact ds_pushed (tail := []) (List.append_nil _).symm (by rw [List.length_singleton]; omega)

/-- A 16-bit push with room for it puts two octets on top, the low one last (R122). -/
theorem push16_of_room {s : State} (h : s.undisturbed) (hroom : s.ds.length + 2 ≤ stackMax) (v : Word) :
    ∃ m, (push16 v).run s = .ok () (s.setMem m) ∧ (s.setMem m).ds = s.ds ++ wordOctets v := by
  have hroom₁ : s.ds.length < stackMax := by omega
  have hds₁ := ds_push hroom₁ (highOctet v)
  have hroom₂ : (s.setMem (pushed s.mem s.ds.length [highOctet v])).ds.length < stackMax := by
    rw [hds₁, List.length_append, List.length_singleton]; omega
  refine ⟨_, pushWord_eq_ok.2 ⟨_, push8_of_room h hroom₁ _, push8_of_room (undisturbed_mem h _) hroom₂ _⟩, ?_⟩
  exact (ds_push hroom₂ _).trans (by rw [hds₁, List.append_assoc]; rfl)

end Sys2Proof.Machine
end

section
/-! A 16-bit value is two ordinary octets, on the data stack and in storage. -/

namespace Sys2Proof.Machine

/-- What one wide push leaves, two narrow pops return, the low octet first (R60). -/
theorem pop8_pop8_of_push16 {s : State} (h : s.undisturbed) (hroom : s.ds.length + 2 ≤ stackMax) (v : Word) :
    ∃ t u w, (push16 v).run s = .ok () t ∧ pop8.run t = .ok (lowOctet v) u ∧ pop8.run u = .ok (highOctet v) w := by
  obtain ⟨m, hpush, hds⟩ := push16_of_room h hroom v
  have hds : (s.setMem m).ds = (s.ds ++ [highOctet v]) ++ [lowOctet v] := by rw [hds]; simp [wordOctets]
  exact ⟨_, _, _, hpush, pop8_of_ds (undisturbed_mem h m) hds, pop8_of_ds (undisturbed_mem h _) (ds_withDepth hds)⟩

/-- What two narrow pushes leave, one wide pop returns, the first octet high (R60). -/
theorem pop16_of_push8_push8 {s : State} (h : s.undisturbed) (hroom : s.ds.length + 2 ≤ stackMax) (x y : Octet) :
    ∃ t u w, (push8 x).run s = .ok () t ∧ (push8 y).run t = .ok () u ∧ pop16.run u = .ok (joinOctets x y) w := by
  obtain ⟨m, hpush, hds⟩ := push16_of_room h hroom (joinOctets x y)
  obtain ⟨t, hx, hy⟩ := pushWord_eq_ok.1 hpush
  rw [highOctet_joinOctets] at hx
  rw [lowOctet_joinOctets] at hy
  exact ⟨t, _, _, hx, hy, pop16_of_ds (undisturbed_mem h m) hds⟩

theorem succ_toNat_ne (a : Word) : (a + 1).toNat ≠ a.toNat := by
  intro h
  bv_omega

/-- A 16-bit write to storage leaves the high octet at its address and the low octet at the next one (R59, R62). -/
theorem writeWord_storage {s : State} (h : s.undisturbed) {a : Word} (v : Word) (ha : inWindow a = false)
    (ha' : inWindow (a + 1) = false) :
    ∃ t, (writeWord a v).run s = .ok () t ∧ t.undisturbed ∧ t.mem.peek a.toNat = highOctet v ∧
      t.mem.peek (a + 1).toNat = lowOctet v := by
  refine ⟨_, writeWord_eq_ok.2 ⟨_, write_storage h ha _, write_storage (undisturbed_mem h _) ha' _⟩, h, ?_,
    Memory.peek_poke_same _ _ _⟩
  rw [State.setMem_mem, Memory.peek_poke_other _ _ (succ_toNat_ne a).symm]
  exact Memory.peek_poke_same _ _ _

/-- A 16-bit write to storage, seen through both widths (R60). -/
theorem reads_of_writeWord {s : State} (h : s.undisturbed) {a : Word} (v : Word) (ha : inWindow a = false)
    (ha' : inWindow (a + 1) = false) :
    ∃ t, (writeWord a v).run s = .ok () t ∧ (read a).run t = .ok (highOctet v) t ∧
      (read (a + 1)).run t = .ok (lowOctet v) t ∧ (readWord a).run t = .ok v t := by
  obtain ⟨t, hwrite, ht, hhigh, hlow⟩ := writeWord_storage h v ha ha'
  have hhigh := hhigh ▸ read_storage ht ha
  have hlow := hlow ▸ read_storage ht ha'
  exact ⟨t, hwrite, hhigh, hlow, readWord_eq_ok.2 ⟨_, _, _, hhigh, hlow, joinOctets_halves v⟩⟩

/-- Settles O10: both widths see the same octets, on the stack by `push16_of_room` and in storage by read after write. -/
theorem mixedWidths : Obligations.MixedWidths := by
  intro s v x y a h
  rw [← ds_length]
  exact ⟨fun hroom => ⟨pop8_pop8_of_push16 h hroom v, pop16_of_push8_push8 h hroom x y⟩, reads_of_writeWord h v⟩

end Sys2Proof.Machine
end

section
/-! Other agents' acts between the octet accesses. Each access takes one entry of the script, performs it and is routed;
the statements here follow such entries through the shared operations. -/

namespace Sys2Proof.Machine

/-! ### Disturbed states -/

@[simp] theorem State.disturbed_mem (s : State) (f : List (List Act)) : (s.disturbed f).mem = s.mem := rfl
@[simp] theorem State.disturbed_setMem (s : State) (f : List (List Act)) (m : Memory) :
    (s.disturbed f).setMem m = (s.setMem m).disturbed f := rfl

theorem State.disturbed_nil (s : State) : (s.disturbed []).undisturbed := rfl

/-- The next entry of the script is taken out and performed (R70). -/
theorem interleave_disturbed (s : State) (acts : List Act) (rest : List (List Act)) :
    interleave.run (s.disturbed (acts :: rest)) = (applyActs acts).run (s.disturbed rest) := rfl

/-- Where nothing is scripted before the next access, nothing happens there. -/
theorem interleave_disturbed_nil (s : State) (rest : List (List Act)) :
    interleave.run (s.disturbed ([] :: rest)) = .ok () (s.disturbed rest) := rfl

/-- One octet moved into storage before the next access (R57). -/
theorem interleave_disturbed_octetWrite (s : State) (b : Word) (w : Octet) (rest : List (List Act)) :
    interleave.run (s.disturbed ([.octetWrite b w] :: rest)) =
      .ok () ((s.setMem (s.mem.poke b.toNat w)).disturbed rest) := rfl

/-- One octet moved into storage, and read out again, before the next access (R57, log entry 24). -/
theorem interleave_disturbed_octetWrite_octetRead (s : State) (a : Word) (w : Octet) (rest : List (List Act)) :
    interleave.run (s.disturbed ([.octetWrite a w, .octetRead a] :: rest)) =
      .ok () (((s.setMem (s.mem.poke a.toNat w)).setEnv
        { s.env with emitted := s.env.emitted ++ [.copied a [w]] }).disturbed rest) := by
  rw [interleave_disturbed, applyActs, bind_ok (applyAct_octetWrite_run a w _), applyActs,
    bind_ok (applyAct_octetRead_run a _), State.disturbed_setMem, State.disturbed_mem, State.disturbed_mem,
    State.setMem_mem, Memory.peek_poke_same]
  rfl

/-- The acts before a read, then the read (R70). -/
theorem read_disturbed (s : State) (a : Word) (acts : List Act) (rest : List (List Act)) :
    (read a).run (s.disturbed (acts :: rest)) = (applyActs acts >>= fun _ => route a).run (s.disturbed rest) := by
  rw [read, EStateM.run_bind, EStateM.run_bind, interleave_disturbed]

/-- The acts before a write, then the write (R70). -/
theorem write_disturbed (s : State) (a : Word) (v : Octet) (acts : List Act) (rest : List (List Act)) :
    (write a v).run (s.disturbed (acts :: rest)) =
      (applyActs acts >>= fun _ => routeWrite a v).run (s.disturbed rest) := by
  rw [write, EStateM.run_bind, EStateM.run_bind, interleave_disturbed]

section
variable (s : State) {a : Word} (ha : inWindow a = false) (rest : List (List Act))
include ha

theorem read_disturbed_nil :
    (read a).run (s.disturbed ([] :: rest)) = .ok (s.mem.peek a.toNat) (s.disturbed rest) := by
  rw [read, bind_ok (interleave_disturbed_nil s rest), route_storage ha, State.disturbed_mem]

theorem write_disturbed_nil (v : Octet) :
    (write a v).run (s.disturbed ([] :: rest)) = .ok () ((s.setMem (s.mem.poke a.toNat v)).disturbed rest) := by
  rw [write, bind_ok (interleave_disturbed_nil s rest), routeWrite_storage ha, State.disturbed_setMem,
    State.disturbed_mem]

/-- A read of storage just after a foreign write to its address returns what was written. -/
theorem read_disturbed_octetWrite (w : Octet) :
    (read a).run (s.disturbed ([.octetWrite a w] :: rest)) =
      .ok w ((s.setMem (s.mem.poke a.toNat w)).disturbed rest) := by
  rw [read, bind_ok (interleave_disturbed_octetWrite s a w rest), route_storage ha, State.disturbed_mem,
    State.setMem_mem, Memory.peek_poke_same]

/-- A write to storage just after a foreign write comes second. -/
theorem write_disturbed_octetWrite (b : Word) (v w : Octet) :
    (write a v).run (s.disturbed ([.octetWrite b w] :: rest)) =
      .ok () ((s.setMem ((s.mem.poke b.toNat w).poke a.toNat v)).disturbed rest) := by
  rw [write, bind_ok (interleave_disturbed_octetWrite s b w rest), routeWrite_storage ha]
  rfl

end

/-! ### What a foreign write finds and leaves -/

/-- Of a core write and a foreign write just before it, the later one counts where they meet (R69). -/
theorem write_over_octetWrite (s : State) {a : Word} (b : Word) (v w : Octet) (rest : List (List Act))
    (ha : inWindow a = false) :
    ∃ t, (write a v).run (s.disturbed ([.octetWrite b w] :: rest)) = .ok () t ∧ t.mem.peek a.toNat = v ∧
      (b ≠ a → t.mem.peek b.toNat = w) ∧
      (∀ k, k ≠ a.toNat → k ≠ b.toNat → t.mem.peek k = s.mem.peek k) ∧ t.env.foreign = rest := by
  refine ⟨_, write_disturbed_octetWrite s ha rest b v w, Memory.peek_poke_same _ _ _, fun hne => ?_,
    fun k hka hkb => ?_, rfl⟩
  · have hne : b.toNat ≠ a.toNat := fun e => hne (BitVec.eq_of_toNat_eq e)
    exact (Memory.peek_poke_other _ v hne).trans (Memory.peek_poke_same _ _ _)
  · exact (Memory.peek_poke_other _ v hka).trans (Memory.peek_poke_other _ w hkb)

/-- A push writes its new depth over what another agent wrote into the depth octet just before (R69). -/
theorem push8_over_octetWrite (s : State) (v w : Octet) (hroom : s.depth dataStack < 254) :
    ∃ t, (push8 v).run (s.disturbed [[], [], [.octetWrite dspAddr w]]) = .ok () t ∧ t.ds = s.ds ++ [v] := by
  have hroom : s.ds.length < stackMax := by rw [ds_length]; exact hroom
  have hdepth : inWindow dataStack.depthAddr = false := depthAddr_outside dataStack_isStack
  refine ⟨_, pushOctet_eq_ok.2 ⟨_, _, _, read_disturbed_nil s hdepth _, ?_,
    write_disturbed_nil s (slotAddr_outside dataStack_isStack _) _ v,
    write_disturbed_octetWrite _ hdepth [] dspAddr _ w⟩, ?_⟩
  · rw [ds_length] at hroom; exact hroom
  · rw [← ds_push hroom v]
    refine ds_eq_of_peek_eq fun a _ => ?_
    rw [pushed_singleton]
    exact congrArg (Memory.peek · a) (Memory.poke_poke_same _ _ _ _)

/-- Between the halves of a 16-bit write the high octet can be overwritten (R63). -/
theorem writeWord_under_octetWrite (s : State) (a v : Word) (w : Octet) (ha : inWindow a = false)
    (ha' : inWindow (a + 1) = false) :
    ∃ t, (writeWord a v).run (s.disturbed [[], [.octetWrite a w]]) = .ok () t ∧ t.mem.peek a.toNat = w ∧
      t.mem.peek (a + 1).toNat = lowOctet v := by
  refine ⟨_, writeWord_eq_ok.2 ⟨_, write_disturbed_nil s ha _ _, write_disturbed_octetWrite _ ha' [] a _ w⟩, ?_,
    Memory.peek_poke_same _ _ _⟩
  exact (Memory.peek_poke_other _ _ (succ_toNat_ne a).symm).trans (Memory.peek_poke_same _ _ _)

/-- Between the halves of a 16-bit read the low octet can be new (R63). -/
theorem readWord_over_octetWrite (s : State) (a : Word) (w : Octet) (ha : inWindow a = false)
    (ha' : inWindow (a + 1) = false) :
    ∃ t, (readWord a).run (s.disturbed [[], [.octetWrite (a + 1) w]]) = .ok (joinOctets (s.mem.peek a.toNat) w) t :=
  ⟨_, readWord_eq_ok.2 ⟨_, _, _, read_disturbed_nil s ha _, read_disturbed_octetWrite s ha' [] w, rfl⟩⟩

/-- Between two octets of a transfer the first can be overwritten and read (R57). -/
theorem bulkWrite_under_octetWrite (s : State) (a : Word) (x y w : Octet) (hfit : a.toNat + 2 ≤ 65536) :
    ∃ t, (bulkWrite a [x, y]).run (s.disturbed [[], [.octetWrite a w, .octetRead a]]) = .ok () t ∧
      t.mem.peek a.toNat = w ∧ t.mem.peek (a.toNat + 1) = y ∧ t.env.emitted = s.env.emitted ++ [.copied a [w]] := by
  rw [bulkWrite, if_pos ((transferFits_iff a [x, y].length).2 hfit), placeOctets, bind_ok (interleave_disturbed_nil s _),
    bind_ok (update_run _ _), placeOctets, State.disturbed_setMem,
    bind_ok (interleave_disturbed_octetWrite_octetRead _ a w []), bind_ok (update_run _ _), placeOctets]
  refine ⟨_, EStateM.run_pure _ _, ?_, Memory.peek_poke_same _ _ _, rfl⟩
  exact (Memory.peek_poke_other _ y (Nat.succ_ne_self _).symm).trans (Memory.peek_poke_same _ _ _)

/-- What another agent writes into FLAGS before a fault reads it keeps its bits beside the fault's (R231). -/
theorem takeFault_over_octetWrite (s : State) (c : Cause) (w : Octet) :
    ∃ t, (takeFault c : Micro Unit).run (s.disturbed [[.octetWrite flagsAddr w]]) = .error .taken t ∧
      t.flags = withFault w c :=
  ⟨_, takeFault_eq_taken.2 (.inl ⟨_, _, _, read_disturbed_octetWrite s flagsAddr_outside [] w,
    write_storage (State.disturbed_nil _) flagsAddr_outside _, rfl⟩), Memory.peek_poke_same _ _ _⟩

/-- What another agent writes into FLAGS between a fault's read and its write is overwritten (R231). -/
theorem takeFault_under_octetWrite (s : State) (c : Cause) (w : Octet) :
    ∃ t, (takeFault c : Micro Unit).run (s.disturbed [[], [.octetWrite flagsAddr w]]) = .error .taken t ∧
      t.flags = withFault s.flags c :=
  ⟨_, takeFault_eq_taken.2 (.inl ⟨_, _, _, read_disturbed_nil s flagsAddr_outside _,
    write_disturbed_octetWrite s flagsAddr_outside [] flagsAddr _ w, rfl⟩), Memory.peek_poke_same _ _ _⟩

/-- Settles O11: each interleaving is the script's entries followed through one shared operation. -/
theorem foreignWritesInterleave : Obligations.ForeignWritesInterleave := by
  intro s w rest
  exact ⟨fun a acts => read_disturbed s a acts rest, fun a v acts => write_disturbed s a v acts rest,
    fun a ha => ⟨_, read_disturbed_octetWrite s ha rest w, rfl⟩,
    fun a b v ha => write_over_octetWrite s b v w rest ha, fun v => push8_over_octetWrite s v w,
    fun a v ha ha' => ⟨writeWord_under_octetWrite s a v w ha ha', readWord_over_octetWrite s a w ha ha'⟩,
    fun a x y => bulkWrite_under_octetWrite s a x y w,
    fun c => ⟨takeFault_over_octetWrite s c w, takeFault_under_octetWrite s c w⟩⟩

end Sys2Proof.Machine
end

section
/-! LOAD, STORE, LOAD16 and STORE16 at external devices: single accesses in the middle of an instruction, the instructions
around any accesses that complete, and both put together. -/

namespace Sys2Proof.Machine

/-! ### The middle of an instruction -/

/-- The machine in the middle of an instruction: storage and surroundings have moved on, the rest is as in `s`. -/
def State.midway (s : State) (m : Memory) (e : Env) : State := (s.setMem m).setEnv e

@[simp] theorem State.midway_mem (s : State) (m : Memory) (e : Env) : (s.midway m e).mem = m := rfl
@[simp] theorem State.midway_env (s : State) (m : Memory) (e : Env) : (s.midway m e).env = e := rfl
@[simp] theorem State.midway_setMem (s : State) (m m' : Memory) (e : Env) :
    (s.midway m e).setMem m' = s.midway m' e := rfl
@[simp] theorem State.midway_setEnv (s : State) (m : Memory) (e e' : Env) :
    (s.midway m e).setEnv e' = s.midway m e' := rfl

theorem State.midway_undisturbed {s : State} {m : Memory} {e : Env} (he : e.foreign = []) :
    (s.midway m e).undisturbed := he

/-! ### The replies of an external device -/

theorem giveReply_returns (x : Octet) (s : State) : (giveReply ⟨[], some x⟩).run s = .ok x s := rfl

theorem giveReply_never (s : State) : (giveReply ⟨[], none⟩).run s = .error (.stuck .deviceNeverReturns) s := rfl

section
variable {s : State} {m : Memory} {e : Env} (he : e.foreign = []) {a : Word}
include he

/-- A device that writes storage, reads storage and makes a request before it returns (R55, R57, R241). -/
theorem giveReply_transfers {b c : Word} {data : List Octet} {n : Nat} (q : Word) (x : Octet)
    (hb : b.toNat + data.length ≤ 65536) (hc : c.toNat + n ≤ 65536) :
    (giveReply ⟨[.bulkWrite b data, .bulkRead c n, .irqRequest q], some x⟩).run (s.midway m e) =
      .ok x (s.midway (m.pokeList b.toNat data)
        { e with
          irqs := e.irqs ++ [q]
          emitted := e.emitted ++ [.copied c ((m.pokeList b.toNat data).peekList c.toNat n)] }) := by
  have hwrite := bulkWrite_undisturbed (s := s.midway m e) he hb
  have hread := performDeed_bulkRead_undisturbed (s := s.midway (m.pokeList b.toNat data) e) he hc
  have hdeeds : (performDeeds [.bulkWrite b data, .bulkRead c n, .irqRequest q]).run (s.midway m e) =
      .ok () (s.midway (m.pokeList b.toNat data)
        { e with
          irqs := e.irqs ++ [q]
          emitted := e.emitted ++ [.copied c ((m.pokeList b.toNat data).peekList c.toNat n)] }) := by
    rw [performDeeds, performDeed, bind_ok hwrite, performDeeds, State.midway_mem, State.midway_setMem, bind_ok hread,
      performDeeds, performDeed, bind_ok (presentIrq_run _ _)]
    rfl
  exact bind_ok hdeeds

/-! ### Single accesses -/

section
variable (hx : External s a) {r : Reply} {rest : List Reply} (hr : e.replies = r :: rest)
include hx hr

/-- What an external device answers a read is its reply to the register asked for (R55). -/
theorem read_external :
    (read a).run (s.midway m e) =
      (giveReply r).run (s.midway m { e with replies := rest, emitted := e.emitted ++ [asked a] }) := by
  obtain ⟨hwindow, hdevice⟩ := hx
  rw [read_undisturbed (State.midway_undisturbed he), route_device (s := s.midway m e) hwindow hdevice, deviceRead,
    bind_ok (emit_run _ _), awaitReply_run, State.midway_env, State.midway_setEnv, State.midway_env]
  simp only [hr]
  rfl

/-- What an external device does with an octet is its reply, whose answer is dropped (R55). -/
theorem write_external (v : Octet) :
    (write a v).run (s.midway m e) = (giveReply r >>= fun _ => pure ()).run
      (s.midway m { e with replies := rest, emitted := e.emitted ++ [given a v] }) := by
  obtain ⟨hwindow, hdevice⟩ := hx
  rw [write_undisturbed (State.midway_undisturbed he), routeWrite_device (s := s.midway m e) hwindow v hdevice,
    deviceWrite, bind_ok (emit_run _ _), EStateM.run_bind, awaitReply_run, State.midway_env, State.midway_setEnv, State.midway_env]
  simp only [hr]
  rw [EStateM.run_bind]
  rfl

end

section
variable (hx : External s a) {x : Octet} {rest : List Reply}
include hx

/-- A read at a device that returns at once. -/
theorem read_external_returns (hr : e.replies = ⟨[], some x⟩ :: rest) :
    (read a).run (s.midway m e) =
      .ok x (s.midway m { e with replies := rest, emitted := e.emitted ++ [asked a] }) := by
  rw [read_external he hx hr, giveReply_returns]

/-- A write at a device that returns at once. -/
theorem write_external_returns (v : Octet) (hr : e.replies = ⟨[], some x⟩ :: rest) :
    (write a v).run (s.midway m e) =
      .ok () (s.midway m { e with replies := rest, emitted := e.emitted ++ [given a v] }) := by
  rw [write_external he hx hr, bind_ok (giveReply_returns _ _), EStateM.run_pure]

/-- A read at a device that never returns (R292). -/
theorem read_external_never (hr : e.replies = ⟨[], none⟩ :: rest) :
    ∃ t, (read a).run (s.midway m e) = .error (.stuck .deviceNeverReturns) t :=
  ⟨_, (read_external he hx hr).trans (giveReply_never _)⟩

/-- A write at a device that never returns (R292). -/
theorem write_external_never (v : Octet) (hr : e.replies = ⟨[], none⟩ :: rest) :
    ∃ t, (write a v).run (s.midway m e) = .error (.stuck .deviceNeverReturns) t :=
  ⟨_, (write_external he hx hr v).trans (bind_error (giveReply_never _))⟩

variable {b c q : Word} {data : List Octet} {n : Nat} (hb : b.toNat + data.length ≤ 65536) (hc : c.toNat + n ≤ 65536)
  (hr : e.replies = ⟨[.bulkWrite b data, .bulkRead c n, .irqRequest q], some x⟩ :: rest)
include hb hc hr

/-- A read at a device that transfers octets and makes a request before it returns. -/
theorem read_external_transfers :
    (read a).run (s.midway m e) = .ok x (s.midway (m.pokeList b.toNat data)
      { e with
        replies := rest
        irqs := e.irqs ++ [q]
        emitted := e.emitted ++ [asked a, .copied c ((m.pokeList b.toNat data).peekList c.toNat n)] }) := by
  rw [read_external he hx hr, giveReply_transfers (by exact he) q x hb hc, List.append_assoc]
  rfl

/-- A write at a device that transfers octets and makes a request before it returns. -/
theorem write_external_transfers (v : Octet) :
    (write a v).run (s.midway m e) = .ok () (s.midway (m.pokeList b.toNat data)
      { e with
        replies := rest
        irqs := e.irqs ++ [q]
        emitted := e.emitted ++ [given a v, .copied c ((m.pokeList b.toNat data).peekList c.toNat n)] }) := by
  rw [write_external he hx hr, bind_ok (giveReply_transfers (by exact he) q x hb hc), List.append_assoc]
  rfl

end

/-- A read where no device answers (R52, R56). -/
theorem read_noDevice (hn : NoDevice s a) :
    (read a).run (s.midway m e) = .ok (plainRead m a) (s.midway m e) := by
  rw [read_undisturbed (State.midway_undisturbed he)]
  cases hw : inWindow a with
  | false => rw [route_storage hw, plainRead, hw]; rfl
  | true => rw [route_empty (s := s.midway m e) hw (hn hw), plainRead, hw]; rfl

/-- A write where no device answers (R53, R56). -/
theorem write_noDevice (hn : NoDevice s a) (v : Octet) :
    (write a v).run (s.midway m e) = .ok () (s.midway (plainWrite m a v) e) := by
  rw [write_undisturbed (State.midway_undisturbed he)]
  cases hw : inWindow a with
  | false => rw [routeWrite_storage hw, plainWrite, hw]; rfl
  | true => rw [routeWrite_empty (s := s.midway m e) hw v (hn hw), plainWrite, hw]; rfl

/-- A push with room for it, and the stack then. -/
theorem push8_midway {below : List Octet} (hds : (s.setMem m).ds = below) (hroom : below.length < stackMax) (x : Octet) :
    (push8 x).run (s.midway m e) = .ok () (s.midway (pushed m below.length [x]) e) ∧
      (s.setMem (pushed m below.length [x])).ds = below ++ [x] := by
  subst hds
  exact ⟨push8_of_room (s := s.midway m e) he hroom x, ds_push hroom x⟩

end

/-! ### The four instructions around their accesses -/

/-- Once its last step is done, an instruction has exchanged what its storage and its surroundings say. -/
theorem Exchanges.of_exec {i : Instr} {s : State} {e : Env} {m' m : Memory} {ds : List Octet}
    (he : exec i s = .next ((s.midway m' e).setPc (s.pc + 1))) (hds : (s.setMem m').ds = ds)
    (hm : ∀ a, m'.peek a = m.peek a) : Exchanges i s ds e m :=
  ⟨_, he, hds, rfl, rfl, rfl, rfl, rfl, rfl, hm⟩

/-- The stack below an address on top has room for one octet. -/
theorem room_of_ds {s : State} {below : List Octet} {a : Word} (hs : s.ds = below ++ wordOctets a) :
    below.length < stackMax := by
  have hlt := ds_length_lt s
  rw [hs, List.length_append] at hlt
  exact Nat.lt_of_add_lt_add_right (n := 2) hlt

section
variable {s : State} (h : s.undisturbed) {below : List Octet} {a : Word}
include h

/-- The pop of LOAD and LOAD16 (R212, R213). -/
theorem pop_of_load (hs : s.ds = below ++ wordOctets a) :
    pop16.run s = .ok a (s.midway (withDepth s.mem below.length) s.env) := pop16_of_ds h hs

/-- The two pops of STORE: the address is on top (R214). -/
theorem pops_of_store {v : Octet} (hs : s.ds = below ++ [v] ++ wordOctets a) :
    ∃ t, pop16.run s = .ok a t ∧ pop8.run t = .ok v (s.midway (withDepth s.mem below.length) s.env) := by
  have hpop := pop8_of_ds (undisturbed_mem h _) (ds_withDepth hs)
  rw [State.setMem_mem, withDepth_withDepth] at hpop
  exact ⟨_, pop16_of_ds h hs, hpop⟩

/-- The two pops of STORE16: the address is on top (R215). -/
theorem pops_of_store16 {w : Word} (hs : s.ds = below ++ wordOctets w ++ wordOctets a) :
    ∃ t, pop16.run s = .ok a t ∧ pop16.run t = .ok w (s.midway (withDepth s.mem below.length) s.env) := by
  have hpop := pop16_of_ds (undisturbed_mem h _) (ds_withDepth hs)
  rw [State.setMem_mem, withDepth_withDepth] at hpop
  exact ⟨_, pop16_of_ds h hs, hpop⟩

/-- LOAD around a read that completes: the octet read is pushed on what the read left (R212). -/
theorem exchanges_load (hs : s.ds = below ++ wordOctets a) {x : Octet} {m₁ m : Memory} {e : Env}
    (hread : (read a).run (s.midway (withDepth s.mem below.length) s.env) = .ok x (s.midway m₁ e))
    (he : e.foreign = []) (hds : (s.setMem m₁).ds = below)
    (hm : ∀ k, (pushed m₁ below.length [x]).peek k = m.peek k) : Exchanges .load s (below ++ [x]) e m := by
  obtain ⟨hpush, hds'⟩ := push8_midway he hds (room_of_ds hs) x
  refine .of_exec (finish_ok ?_) hds' hm
  rw [bind_ok (pop_of_load h hs), bind_ok hread, bind_ok hpush, advance_run]
  rfl

/-- LOAD around a read that never completes (R292, log entry 8). -/
theorem exec_load_never (hs : s.ds = below ++ wordOctets a)
    (hread : ∃ t, (read a).run (s.midway (withDepth s.mem below.length) s.env) =
      .error (.stuck .deviceNeverReturns) t) :
    exec .load s = .fault .deviceNeverReturns := by
  obtain ⟨t, hread⟩ := hread
  refine finish_stuck (t := t) ?_
  rw [bind_ok (pop_of_load h hs), bind_error hread]

/-- STORE around a write that completes (R214). -/
theorem exchanges_store {v : Octet} (hs : s.ds = below ++ [v] ++ wordOctets a) {m : Memory} {e : Env}
    (hwrite : (write a v).run (s.midway (withDepth s.mem below.length) s.env) = .ok () (s.midway m e))
    (hds : (s.setMem m).ds = below) : Exchanges .store s below e m := by
  obtain ⟨t, hpop₁, hpop₂⟩ := pops_of_store h hs
  refine .of_exec (finish_ok ?_) hds fun _ => rfl
  rw [bind_ok hpop₁, bind_ok hpop₂, bind_ok hwrite, advance_run]
  rfl

/-- STORE around a write that never completes (R292, log entry 8). -/
theorem exec_store_never {v : Octet} (hs : s.ds = below ++ [v] ++ wordOctets a)
    (hwrite : ∃ t, (write a v).run (s.midway (withDepth s.mem below.length) s.env) =
      .error (.stuck .deviceNeverReturns) t) :
    exec .store s = .fault .deviceNeverReturns := by
  obtain ⟨t, hpop₁, hpop₂⟩ := pops_of_store h hs
  obtain ⟨u, hwrite⟩ := hwrite
  refine finish_stuck (t := u) ?_
  rw [bind_ok hpop₁, bind_ok hpop₂, bind_error hwrite]

/-- LOAD16 around two reads that complete and leave storage alone: the first octet is pushed before the second is read
(R213). -/
theorem exchanges_load16 (hs : s.ds = below ++ wordOctets a) (hroom : below.length + 2 ≤ stackMax) {x y : Octet}
    {e₁ e₂ : Env}
    (hread₁ : (read a).run (s.midway (withDepth s.mem below.length) s.env) =
      .ok x (s.midway (withDepth s.mem below.length) e₁))
    (hread₂ : (read (a + 1)).run (s.midway (pushed (withDepth s.mem below.length) below.length [x]) e₁) =
      .ok y (s.midway (pushed (withDepth s.mem below.length) below.length [x]) e₂))
    (he₁ : e₁.foreign = []) (he₂ : e₂.foreign = []) :
    Exchanges .load16 s (below ++ [x, y]) e₂ (pushed s.mem below.length [x, y]) := by
  have hlen : (below ++ [x]).length = below.length + 1 := by rw [List.length_append, List.length_singleton]
  obtain ⟨hpush₁, hds₁⟩ := push8_midway he₁ (ds_withDepth hs) (by omega) x
  obtain ⟨hpush₂, hds₂⟩ := push8_midway he₂ hds₁ (by omega) y
  rw [hlen] at hpush₂ hds₂
  rw [List.append_assoc] at hds₂
  refine .of_exec (finish_ok ?_) hds₂ fun k => ?_
  · rw [bind_ok (pop_of_load h hs), bind_ok hread₁, bind_ok hpush₁, bind_ok hread₂, bind_ok hpush₂, advance_run]
    rfl
  · exact (peek_pushed_pushed _ _ _ _ _).trans (peek_pushed_withDepth _ _ _ _ _)

/-- STORE16 around two writes that complete, high octet first (R215). -/
theorem exchanges_store16 {w : Word} (hs : s.ds = below ++ wordOctets w ++ wordOctets a) {m₁ m₂ : Memory} {e₁ e₂ : Env}
    (hwrite₁ : (write a (highOctet w)).run (s.midway (withDepth s.mem below.length) s.env) =
      .ok () (s.midway m₁ e₁))
    (hwrite₂ : (write (a + 1) (lowOctet w)).run (s.midway m₁ e₁) = .ok () (s.midway m₂ e₂))
    (hds : (s.setMem m₂).ds = below) : Exchanges .store16 s below e₂ m₂ := by
  obtain ⟨t, hpop₁, hpop₂⟩ := pops_of_store16 h hs
  refine .of_exec (finish_ok ?_) hds fun _ => rfl
  rw [bind_ok hpop₁, bind_ok hpop₂, bind_ok (writeWord_eq_ok.2 ⟨_, hwrite₁, hwrite₂⟩), advance_run]
  rfl

end

/-! ### Storage away from the data stack -/

/-- A push after a transfer overwrites the depth octet, whatever it held before the transfer. -/
theorem peek_pushed_pokeList_withDepth (m : Memory) (d e b k : Nat) (data outs : List Octet) :
    (pushed ((withDepth m d).pokeList b data) e outs).peek k = (pushed (m.pokeList b data) e outs).peek k := by
  simp only [peek_pushed, Memory.peek_pokeList, peek_withDepth]
  split_ifs <;> rfl

/-- A transfer above the stacks leaves the data stack. -/
theorem ds_pokeList (s : State) (m : Memory) {b : Nat} (data : List Octet) (hb : 0x0200 ≤ b) :
    (s.setMem (m.pokeList b data)).ds = (s.setMem m).ds :=
  ds_eq_of_peek_eq fun k hk => by rw [State.setMem_mem, State.setMem_mem, Memory.peek_pokeList, if_neg (by omega)]

/-- A routed write above the stacks leaves the data stack. -/
theorem ds_plainWrite (s : State) (m : Memory) {a : Word} (v : Octet) (ha : 0x0200 ≤ a.toNat) :
    (s.setMem (plainWrite m a v)).ds = (s.setMem m).ds :=
  ds_eq_of_peek_eq fun k hk => by
    rw [State.setMem_mem, State.setMem_mem, plainWrite]
    split
    · rfl
    · exact Memory.peek_poke_other _ v (by omega)

/-- A routed read above the stacks does not see the depth octet. -/
theorem plainRead_withDepth (m : Memory) (d : Nat) {a : Word} (ha : 0x0200 ≤ a.toNat) :
    plainRead (withDepth m d) a = plainRead m a := by
  unfold plainRead
  split
  · rfl
  · rw [peek_withDepth, if_neg (by omega)]

/-- A routed read above the stacks does not see a push. -/
theorem plainRead_pushed (m : Memory) (d : Nat) (outs : List Octet) {a : Word} (ha : 0x0200 ≤ a.toNat)
    (hd : d + outs.length < 256) : plainRead (pushed m d outs) a = plainRead m a := by
  unfold plainRead
  split
  · rfl
  · rw [peek_pushed, if_neg (by omega), Memory.peek_pokeList, if_neg (by omega)]

/-- The octet after a window address lies above the stacks. -/
theorem External.succ_above {s : State} {a : Word} (hx : External s a) : 0x0200 ≤ (a + 1).toNat := by
  have := (inWindow_iff a).1 hx.1
  bv_omega

/-- The octet before a window address lies above the stacks. -/
theorem External.pred_above {s : State} {a : Word} (hx : External s (a + 1)) : 0x0200 ≤ a.toNat := by
  have := (inWindow_iff (a + 1)).1 hx.1
  bv_omega

/-! ### The instructions at external devices -/

section
variable {s : State} (h : s.undisturbed) {below : List Octet} {a : Word} {rest : List Reply}
include h

/-! #### LOAD and STORE -/

section
variable (hx : External s a)
include hx

/-- LOAD at a device that returns at once. -/
theorem load_external (hs : s.ds = below ++ wordOctets a) {x : Octet} (hr : s.env.replies = ⟨[], some x⟩ :: rest) :
    Exchanges .load s (below ++ [x]) { s.env with replies := rest, emitted := s.env.emitted ++ [asked a] }
      (pushed s.mem below.length [x]) :=
  exchanges_load h hs (read_external_returns h hx hr) h (ds_withDepth hs) fun _ => peek_pushed_withDepth _ _ _ _ _

/-- LOAD at a device that never returns. -/
theorem load_external_never (hs : s.ds = below ++ wordOctets a) (hr : s.env.replies = ⟨[], none⟩ :: rest) :
    exec .load s = .fault .deviceNeverReturns :=
  exec_load_never h hs (read_external_never h hx hr)

/-- STORE at a device that returns at once. -/
theorem store_external {v : Octet} (hs : s.ds = below ++ [v] ++ wordOctets a) {x : Octet}
    (hr : s.env.replies = ⟨[], some x⟩ :: rest) :
    Exchanges .store s below { s.env with replies := rest, emitted := s.env.emitted ++ [given a v] }
      (pushed s.mem below.length []) :=
  exchanges_store h hs (write_external_returns h hx v hr) (ds_withDepth (hs.trans (List.append_assoc _ _ _)))

/-- STORE at a device that never returns. -/
theorem store_external_never {v : Octet} (hs : s.ds = below ++ [v] ++ wordOctets a)
    (hr : s.env.replies = ⟨[], none⟩ :: rest) : exec .store s = .fault .deviceNeverReturns :=
  exec_store_never h hs (write_external_never h hx v hr)

variable {b c q : Word} {data : List Octet} {n : Nat} {x : Octet} (habove : 0x0200 ≤ b.toNat)
  (hb : b.toNat + data.length ≤ 65536) (hc : c.toNat + n ≤ 65536)
  (hr : s.env.replies = ⟨[.bulkWrite b data, .bulkRead c n, .irqRequest q], some x⟩ :: rest)
include habove hb hc hr

/-- LOAD at a device that transfers octets and makes a request before it returns. -/
theorem load_external_transfers (hs : s.ds = below ++ wordOctets a) :
    Exchanges .load s (below ++ [x])
      { s.env with
        replies := rest
        irqs := s.env.irqs ++ [q]
        emitted := s.env.emitted ++
          [asked a, .copied c (((pushed s.mem below.length []).pokeList b.toNat data).peekList c.toNat n)] }
      (pushed (s.mem.pokeList b.toNat data) below.length [x]) :=
  exchanges_load h hs (read_external_transfers h hx hb hc hr) h
    ((ds_pokeList _ _ data habove).trans (ds_withDepth hs)) fun _ => peek_pushed_pokeList_withDepth _ _ _ _ _ _ _

/-- STORE at a device that transfers octets and makes a request before it returns. -/
theorem store_external_transfers {v : Octet} (hs : s.ds = below ++ [v] ++ wordOctets a) :
    Exchanges .store s below
      { s.env with
        replies := rest
        irqs := s.env.irqs ++ [q]
        emitted := s.env.emitted ++
          [given a v, .copied c (((pushed s.mem below.length []).pokeList b.toNat data).peekList c.toNat n)] }
      ((pushed s.mem below.length []).pokeList b.toNat data) :=
  exchanges_store h hs (write_external_transfers h hx hb hc hr v)
    ((ds_pokeList _ _ data habove).trans (ds_withDepth (hs.trans (List.append_assoc _ _ _))))

end

/-! #### LOAD16 -/

section
variable (hs : s.ds = below ++ wordOctets a) (hroom : below.length + 2 ≤ stackMax) {x y : Octet}
include hs hroom

/-- LOAD16 with both halves at devices. -/
theorem load16_external_external (hx : External s a) (hx' : External s (a + 1))
    (hr : s.env.replies = ⟨[], some x⟩ :: ⟨[], some y⟩ :: rest) :
    Exchanges .load16 s (below ++ [x, y])
      { s.env with replies := rest, emitted := s.env.emitted ++ [asked a, asked (a + 1)] }
      (pushed s.mem below.length [x, y]) := by
  have hex := exchanges_load16 h hs hroom (read_external_returns h hx hr) (read_external_returns (by exact h) hx' rfl)
    h h
  rwa [List.append_assoc] at hex

/-- LOAD16 with the high half at a device and the low half where none answers. -/
theorem load16_external_noDevice (hx : External s a) (hn : NoDevice s (a + 1))
    (hr : s.env.replies = ⟨[], some x⟩ :: rest) :
    Exchanges .load16 s (below ++ [x, plainRead s.mem (a + 1)])
      { s.env with replies := rest, emitted := s.env.emitted ++ [asked a] }
      (pushed s.mem below.length [x, plainRead s.mem (a + 1)]) := by
  have hlow : plainRead (pushed (withDepth s.mem below.length) below.length [x]) (a + 1) = plainRead s.mem (a + 1) := by
    have hd : below.length + [x].length < 256 := by unfold stackMax at hroom; rw [List.length_singleton]; omega
    rw [plainRead_pushed _ _ _ hx.succ_above hd, plainRead_withDepth _ _ hx.succ_above]
  rw [← hlow]
  exact exchanges_load16 h hs hroom (read_external_returns h hx hr) (read_noDevice (by exact h) hn) h h

/-- LOAD16 with the low half at a device and the high half where none answers. -/
theorem load16_noDevice_external (hn : NoDevice s a) (hx : External s (a + 1))
    (hr : s.env.replies = ⟨[], some x⟩ :: rest) :
    Exchanges .load16 s (below ++ [plainRead s.mem a, x])
      { s.env with replies := rest, emitted := s.env.emitted ++ [asked (a + 1)] }
      (pushed s.mem below.length [plainRead s.mem a, x]) := by
  rw [← plainRead_withDepth s.mem below.length hx.pred_above]
  exact exchanges_load16 h hs hroom (read_noDevice h hn) (read_external_returns h hx hr) h h

end

/-! #### STORE16 -/

section
variable {w : Word} (hs : s.ds = below ++ wordOctets w ++ wordOctets a) {x y : Octet}
include hs

/-- STORE16 with both halves at devices. -/
theorem store16_external_external (hx : External s a) (hx' : External s (a + 1))
    (hr : s.env.replies = ⟨[], some x⟩ :: ⟨[], some y⟩ :: rest) :
    Exchanges .store16 s below
      { s.env with
        replies := rest
        emitted := s.env.emitted ++ [given a (highOctet w), given (a + 1) (lowOctet w)] }
      (pushed s.mem below.length []) := by
  have hex := exchanges_store16 h hs (write_external_returns h hx _ hr)
    (write_external_returns (by exact h) hx' _ rfl) (ds_withDepth (hs.trans (List.append_assoc _ _ _)))
  rwa [List.append_assoc] at hex

/-- STORE16 with the high half at a device and the low half where none answers. -/
theorem store16_external_noDevice (hx : External s a) (hn : NoDevice s (a + 1))
    (hr : s.env.replies = ⟨[], some x⟩ :: rest) :
    Exchanges .store16 s below
      { s.env with replies := rest, emitted := s.env.emitted ++ [given a (highOctet w)] }
      (plainWrite (pushed s.mem below.length []) (a + 1) (lowOctet w)) :=
  exchanges_store16 h hs (write_external_returns h hx _ hr) (write_noDevice (by exact h) hn _)
    ((ds_plainWrite _ _ _ hx.succ_above).trans (ds_withDepth (hs.trans (List.append_assoc _ _ _))))

/-- STORE16 with the low half at a device and the high half where none answers. -/
theorem store16_noDevice_external (hn : NoDevice s a) (hx : External s (a + 1))
    (hr : s.env.replies = ⟨[], some x⟩ :: rest) :
    Exchanges .store16 s below
      { s.env with replies := rest, emitted := s.env.emitted ++ [given (a + 1) (lowOctet w)] }
      (plainWrite (pushed s.mem below.length []) a (highOctet w)) :=
  exchanges_store16 h hs (write_noDevice h hn _) (write_external_returns h hx _ hr)
    ((ds_plainWrite _ _ _ hx.pred_above).trans (ds_withDepth (hs.trans (List.append_assoc _ _ _))))

end

end

/-- Settles O42: each instruction is its accesses, put between its pops and its pushes. -/
theorem externalDeviceAccess : Obligations.ExternalDeviceAccess := by
  intro s below v x y a w rest h
  exact ⟨fun hx hs => ⟨load_external h hx hs, load_external_never h hx hs⟩,
    fun hx hs => ⟨store_external h hx hs, store_external_never h hx hs⟩,
    fun b c q data n hx habove hb hc hr =>
      ⟨load_external_transfers h hx habove hb hc hr, store_external_transfers h hx habove hb hc hr⟩,
    fun hs hroom => ⟨load16_external_external h hs hroom, load16_external_noDevice h hs hroom,
      load16_noDevice_external h hs hroom⟩,
    fun hs => ⟨store16_external_external h hs, store16_external_noDevice h hs, store16_noDevice_external h hs⟩⟩

end Sys2Proof.Machine
end

section
/-! Decoding and encoding are inverse to each other: the opcode table is read in both directions, once for all its rows,
and PUSH and PUSH16 stand beside it. -/

namespace Sys2Proof

/-! ### Searching a table of rows -/

/-- The row that a search finds stands in the table. -/
theorem mem_of_findRow {op : Octet} {i : Instr} {rows : List (Octet × Instr)} (h : findRow op rows = some i) :
    (op, i) ∈ rows := by
  induction rows with
  | nil => cases h
  | cons r rows ih =>
    unfold findRow at h
    split at h
    · next ho => cases h; cases ho; exact List.mem_cons_self
    · exact List.mem_cons_of_mem _ (ih h)

/-- A search fails for an opcode without a row. -/
theorem findRow_eq_none_iff {op : Octet} {rows : List (Octet × Instr)} :
    findRow op rows = none ↔ op ∉ rows.map Prod.fst := by
  induction rows with
  | nil => exact ⟨fun _ => List.not_mem_nil, fun _ => rfl⟩
  | cons r rows ih =>
    by_cases ho : r.1 = op
    · simp [findRow, ho]
    · simp [findRow, ho, ih, Ne.symm ho]

/-- Where no two rows have the same opcode, a search finds every row. -/
theorem findRow_of_mem {op : Octet} {i : Instr} {rows : List (Octet × Instr)} (hd : (rows.map Prod.fst).Nodup)
    (h : (op, i) ∈ rows) : findRow op rows = some i := by
  induction rows with
  | nil => cases h
  | cons r rows ih =>
    obtain ⟨hr, hd⟩ := List.nodup_cons.1 hd
    rcases List.mem_cons.1 h with rfl | h
    · exact if_pos rfl
    · have ho : r.1 ≠ op := fun ho => hr (ho ▸ List.mem_map_of_mem h)
      exact (if_neg ho).trans (ih hd h)

/-! ### The opcode table -/

/-- The `n` octets from `a` on. -/
def octetRange (a n : Nat) : List Octet := (List.range' a n).map (BitVec.ofNat 8)

theorem mem_octetRange {a n : Nat} (h : a + n ≤ 256) {op : Octet} :
    op ∈ octetRange a n ↔ a ≤ op.toNat ∧ op.toNat < a + n := by
  rw [octetRange, List.mem_map]
  constructor
  · rintro ⟨k, hk, rfl⟩
    rw [List.mem_range'_1] at hk
    rw [BitVec.toNat_ofNat]
    omega
  · intro hop
    exact ⟨op.toNat, List.mem_range'_1.2 hop, BitVec.eq_of_toNat_eq (by simp)⟩

/-- The four blocks of the opcode table, PUSH and PUSH16 left out of the last (R96). -/
theorem bareRows_opcodes :
    bareRows.map Prod.fst = octetRange 0x00 12 ++ octetRange 0x10 22 ++ octetRange 0x40 12 ++ octetRange 0x52 4 := rfl

theorem bareRows_nodup : (bareRows.map Prod.fst).Nodup := by decide

/-- A bare instruction is encoded as the opcode of its row (R90, R96). -/
theorem encode_of_row : ∀ r ∈ bareRows, encode r.2 = [r.1] := by decide

/-- PUSH and PUSH16 have no row among the bare instructions. -/
theorem bareRows_not_push : ∀ r ∈ bareRows, r.1 ≠ pushOpcode ∧ r.1 ≠ push16Opcode := by decide

/-- Every instruction has a row, or is PUSH or PUSH16 (R96). -/
theorem encode_cases (i : Instr) :
    (∃ op, encode i = [op] ∧ (op, i) ∈ bareRows) ∨ (∃ v, i = .push v) ∨ ∃ v, i = .push16 v := by
  cases i with
  | push v => exact .inr (.inl ⟨v, rfl⟩)
  | push16 v => exact .inr (.inr ⟨v, rfl⟩)
  | _ => exact .inl ⟨_, rfl, by decide⟩

/-! ### The decoder -/

theorem decode_push (v : Octet) (rest : List Octet) : decode (pushOpcode :: v :: rest) = .ok (.push v, rest) := rfl

theorem decode_push16 (h l : Octet) (rest : List Octet) :
    decode (push16Opcode :: h :: l :: rest) = .ok (.push16 (joinOctets h l), rest) := rfl

/-- Any other opcode is searched among the rows, and an opcode without a row is illegal (R97). -/
theorem decode_not_push {op : Octet} (hpush : op ≠ pushOpcode) (hpush16 : op ≠ push16Opcode) (rest : List Octet) :
    decode (op :: rest) = (findRow op bareRows).elim (.error (.illegalOpcode op)) fun i => .ok (i, rest) := by
  simp only [decode, if_neg hpush, if_neg hpush16]
  cases findRow op bareRows <;> rfl

theorem decode_row {op : Octet} {i : Instr} (h : (op, i) ∈ bareRows) (rest : List Octet) :
    decode (op :: rest) = .ok (i, rest) := by
  obtain ⟨hpush, hpush16⟩ := bareRows_not_push _ h
  rw [decode_not_push hpush hpush16, findRow_of_mem bareRows_nodup h, Option.elim_some]

/-- What the decoder accepts: a row's opcode, or the opcode of PUSH or PUSH16 with its immediate (R90 to R93). -/
theorem decode_cases {octets rest : List Octet} {i : Instr} (h : decode octets = .ok (i, rest)) :
    (∃ op, octets = op :: rest ∧ (op, i) ∈ bareRows) ∨ (∃ v, octets = pushOpcode :: v :: rest ∧ i = .push v) ∨
      ∃ x y, octets = push16Opcode :: x :: y :: rest ∧ i = .push16 (joinOctets x y) := by
  match octets with
  | [] => cases h
  | op :: tail =>
    by_cases hpush : op = pushOpcode
    · subst hpush
      match tail with
      | [] => cases h
      | v :: tail =>
        cases (decode_push v tail).symm.trans h
        exact .inr (.inl ⟨v, rfl, rfl⟩)
    by_cases hpush16 : op = push16Opcode
    · subst hpush16
      match tail with
      | [] | [_] => cases h
      | x :: y :: tail =>
        cases (decode_push16 x y tail).symm.trans h
        exact .inr (.inr ⟨x, y, rfl, rfl⟩)
    rw [decode_not_push hpush hpush16] at h
    cases hrow : findRow op bareRows with
    | none => rw [hrow] at h; cases h
    | some j =>
      rw [hrow] at h
      cases h
      exact .inl ⟨op, rfl, mem_of_findRow hrow⟩

/-- Decoding undoes encoding (R98: every instruction is well-formed). -/
theorem decode_encode (i : Instr) (rest : List Octet) : decode (encode i ++ rest) = .ok (i, rest) := by
  rcases encode_cases i with ⟨op, he, hrow⟩ | ⟨v, rfl⟩ | ⟨v, rfl⟩
  · rw [he]; exact decode_row hrow rest
  · exact decode_push v rest
  · exact (decode_push16 _ _ rest).trans (by rw [Machine.joinOctets_halves])

/-- Settles O1, by the rows of the opcode table and the two instructions with an immediate. -/
theorem decodeOfEncode : Obligations.DecodeOfEncode := fun i rest _ => decode_encode i rest

/-- Settles O2: each of the three things the decoder accepts is what the encoder writes. -/
theorem encodeOfDecode : Obligations.EncodeOfDecode := by
  intro octets rest i h
  rcases decode_cases h with ⟨op, rfl, hrow⟩ | ⟨v, rfl, rfl⟩ | ⟨x, y, rfl, rfl⟩
  · rw [encode_of_row _ hrow]; rfl
  · rfl
  · rw [encode, Machine.highOctet_joinOctets, Machine.lowOctet_joinOctets]; rfl

/-- Settles O3: what decodes is decoded from its encoding. -/
theorem sampleEncodings : Obligations.SampleEncodings :=
  ⟨decode_encode .halt [], decode_encode .fromr [], decode_encode .shr16 [], decode_encode .call [],
    decode_encode (.push 0x41) [], decode_encode (.push16 0x1234) [], decode_encode .store16 [], rfl, rfl⟩

/-! ### The length of an encoding, and illegal opcodes -/

theorem immediateOctets_row {op : Octet} {i : Instr} (h : (op, i) ∈ bareRows) : immediateOctets op = some 0 := by
  obtain ⟨hpush, hpush16⟩ := bareRows_not_push _ h
  rw [immediateOctets, if_neg hpush, if_neg hpush16, findRow_of_mem bareRows_nodup h, Option.map_some]

/-- The opcode octet alone says how many octets follow it, for every instruction (R92). -/
theorem encode_length_of_opcode (i : Instr) : Laws.Length.Statement i := by
  rcases encode_cases i with ⟨op, he, hrow⟩ | ⟨v, rfl⟩ | ⟨v, rfl⟩
  · exact ⟨op, [], he, immediateOctets_row hrow⟩
  · exact Laws.Length.push v
  · exact Laws.Length.push16 v

theorem immediateOctets_eq_none_iff {op : Octet} :
    immediateOctets op = none ↔ op ≠ pushOpcode ∧ op ≠ push16Opcode ∧ findRow op bareRows = none := by
  unfold immediateOctets
  split
  · next h => simp [h]
  · split
    · next h => simp [h]
    · next hpush hpush16 => simp [hpush, hpush16]

/-- The decoder rejects as illegal exactly the octets that have no length, whatever follows them. -/
theorem decode_eq_illegalOpcode_iff {op : Octet} {rest : List Octet} :
    decode (op :: rest) = .error (.illegalOpcode op) ↔ immediateOctets op = none := by
  by_cases hpush : op = pushOpcode
  · subst hpush
    cases rest <;> exact iff_of_false nofun nofun
  by_cases hpush16 : op = push16Opcode
  · subst hpush16
    match rest with
    | [] | [_] | _ :: _ :: _ => exact iff_of_false nofun nofun
  rw [immediateOctets_eq_none_iff, decode_not_push hpush hpush16]
  cases findRow op bareRows <;> simp [hpush, hpush16]

/-- The illegal octets are those between the blocks of the opcode table and after the last (R97). -/
theorem immediateOctets_eq_none_iff_ranges {op : Octet} :
    immediateOctets op = none ↔ (0x0C ≤ op.toNat ∧ op.toNat ≤ 0x0F) ∨ (0x26 ≤ op.toNat ∧ op.toNat ≤ 0x3F) ∨
      (0x4C ≤ op.toNat ∧ op.toNat ≤ 0x4F) ∨ 0x56 ≤ op.toNat := by
  have hpush : op = pushOpcode ↔ op.toNat = 0x50 := BitVec.toNat_inj.symm
  have hpush16 : op = push16Opcode ↔ op.toNat = 0x51 := BitVec.toNat_inj.symm
  rw [immediateOctets_eq_none_iff, findRow_eq_none_iff, bareRows_opcodes]
  simp only [List.mem_append, mem_octetRange, ne_eq, hpush, hpush16, Nat.reduceAdd, Nat.reduceLeDiff]
  omega

/-- How many octets the ranges leave illegal (R97). -/
theorem illegalOpcodes_count :
    ((List.range 256).filter fun n => (immediateOctets (BitVec.ofNat 8 n)).isNone).length = 204 := by
  decide +kernel

end Sys2Proof
end

section
/-! The fetch, and the step at a boundary: a core that may fetch runs the instruction that stands at `pc`. -/

namespace Sys2Proof.Machine

/-! ### Octets where no device answers -/

theorem read_plain {s : State} (h : s.undisturbed) {a : Word} (hn : NoDevice s a) :
    (read a).run s = .ok (plainRead s.mem a) s := read_noDevice (m := s.mem) (e := s.env) h hn

/-- The octets stand from `a` on, wrapping at the top, where no device answers (R58, R62). -/
def OctetsAt (s : State) (a : Word) (octets : List Octet) : Prop :=
  ∀ k < octets.length, NoDevice s (a + BitVec.ofNat 16 k) ∧
    octets[k]? = some (plainRead s.mem (a + BitVec.ofNat 16 k))

theorem octetsAt_cons {s : State} {a : Word} {v : Octet} {octets : List Octet} (h : OctetsAt s a (v :: octets)) :
    NoDevice s a ∧ plainRead s.mem a = v ∧ OctetsAt s (a + 1) octets := by
  obtain ⟨hn, hv⟩ := h 0 (Nat.zero_lt_succ _)
  rw [BitVec.add_zero] at hn hv
  refine ⟨hn, (Option.some.inj hv).symm, fun k hk => ?_⟩
  have hnext := h (k + 1) (Nat.succ_lt_succ hk)
  rwa [show a + BitVec.ofNat 16 (k + 1) = a + 1 + BitVec.ofNat 16 k by
    rw [Nat.add_comm, BitVec.ofNat_add, ← BitVec.add_assoc]; rfl] at hnext

theorem readOctets_of_octetsAt {s : State} (h : s.undisturbed) {octets : List Octet} {a : Word}
    (hat : OctetsAt s a octets) : (readOctets a octets.length).run s = .ok octets s := by
  induction octets generalizing a with
  | nil => rfl
  | cons v octets ih =>
    obtain ⟨hn, hv, hat⟩ := octetsAt_cons hat
    rw [List.length_cons, readOctets, bind_ok (read_plain h hn), bind_ok (ih hat), hv, EStateM.run_pure]

theorem readOctets_peripheral (a : Word) (n : Nat) : Micro.Peripheral (readOctets a n) := by
  induction n generalizing a with
  | zero => exact .pure _
  | succ n ih => exact (read_peripheral a).bind fun _ => (ih _).bind fun _ => .pure _

/-! ### The fetch -/

/-- The fetch of an illegal opcode takes ILLEGAL_OP (R97). -/
theorem fetchInstr_illegal {s t : State} {op : Octet} (h : (read s.pc).run s = .ok op t)
    (hop : immediateOctets op = none) : fetchInstr.run s = (takeFault .illegalOp).run t := by
  rw [fetchInstr, bind_ok (fetchOf_run _ _), bind_ok h, hop]

/-- The fetch of an opcode with its immediate, in any surroundings (R91 to R93). -/
theorem fetchInstr_of_reads {s t u : State} {op : Octet} {imm rest : List Octet} {i : Instr}
    (hop : (read s.pc).run s = .ok op t) (hlen : immediateOctets op = some imm.length)
    (himm : (readOctets (s.pc + 1) imm.length).run t = .ok imm u) (hdec : decode (op :: imm) = .ok (i, rest)) :
    fetchInstr.run s = .ok i u := by
  rw [fetchInstr, bind_ok (fetchOf_run _ _), bind_ok hop, hlen]
  exact (bind_ok himm).trans (by rw [hdec, EStateM.run_pure])

/-- A fetch that completes is the read of an opcode and the reads of its immediate. -/
theorem reads_of_fetchInstr {s u : State} {i : Instr} (h : fetchInstr.run s = .ok i u) :
    ∃ op t n imm, (read s.pc).run s = .ok op t ∧ (readOctets (s.pc + 1) n).run t = .ok imm u := by
  obtain ⟨pc, s', hpc, h⟩ := bind_eq_ok.1 h
  cases hpc
  obtain ⟨op, t, hop, h⟩ := bind_eq_ok.1 h
  split at h
  · exact absurd h (takeFault_ne_ok _ _ _ _)
  · next n _ =>
    obtain ⟨imm, w, himm, h⟩ := bind_eq_ok.1 h
    split at h
    · cases h; exact ⟨op, t, n, imm, hop, himm⟩
    · exact absurd h (takeFault_ne_ok _ _ _ _)

/-- A fetch that completes leaves the registers of the core, `pc` among them, as they were (R91). -/
theorem withCoreOf_of_fetchInstr {s u : State} {i : Instr} (h : fetchInstr.run s = .ok i u) : u.withCoreOf s = u := by
  obtain ⟨op, t, n, imm, hop, himm⟩ := reads_of_fetchInstr h
  have ht := (read_peripheral _).withCoreOf_of_ok hop
  have hu := (readOctets_peripheral _ _).withCoreOf_of_ok himm
  rw [← hu, ← ht]; rfl

/-- The fetch where an instruction's encoding stands at `pc`. -/
theorem fetchInstr_of_octetsAt {s : State} (h : s.undisturbed) {i : Instr} (hat : OctetsAt s s.pc (encode i)) :
    fetchInstr.run s = .ok i s := by
  obtain ⟨op, imm, he, hlen⟩ := encode_length_of_opcode i
  have hdec : decode (op :: imm) = .ok (i, []) := by rw [← he, ← List.append_nil (encode i), decode_encode]
  rw [he] at hat
  obtain ⟨hn, rfl, himm⟩ := octetsAt_cons hat
  exact fetchInstr_of_reads (read_plain h hn) hlen (readOctets_of_octetsAt h himm) hdec

/-! ### The step at a boundary -/

/-- A running core that finds no stop request and no fault bit fetches and executes (R233). -/
theorem step_fetches {s t : State} {f : Octet} (hrun : s.runState = .running) (hin : s.env.inputs = [])
    (hstop : s.stopReq = false) (hf : (read flagsAddr).run s = .ok f t) (hfault : faultPresent f = false) :
    step s = settle (fetchInstr.run t) exec := by
  rw [step_core hin, coreMove, hrun]
  show runBoundary s = _
  simp only [runBoundary, hstop, settle_ok hf, hfault, Bool.false_eq_true, if_false]

/-- At a boundary that lets it fetch, an undisturbed core fetches from the state as it stands. -/
theorem step_ready {s : State} (hr : s.ready) (h : s.undisturbed) : step s = settle (fetchInstr.run s) exec := by
  obtain ⟨hrun, hin, hstop, hfault⟩ := hr
  exact step_fetches hrun hin hstop (read_storage h flagsAddr_outside) hfault

/-- Settles O4: the illegal octets by the blocks of the opcode table, and the fault by the fetch that takes it. -/
theorem illegalOpcodesFault : Obligations.IllegalOpcodesFault := by
  refine ⟨fun op rest => decode_eq_illegalOpcode_iff.trans immediateOctets_eq_none_iff_ranges, illegalOpcodes_count,
    fun s t op hread hdec => fetchInstr_illegal hread (decode_eq_illegalOpcode_iff.1 hdec), ?_⟩
  intro s hr h hn hdec
  have hfetch := fetchInstr_illegal (read_plain h hn) (decode_eq_illegalOpcode_iff.1 hdec)
  rw [takeFault_undisturbed h] at hfetch
  refine ⟨_, (step_ready hr h).trans (settle_eq_next.2 (.inr hfetch)), rfl, rfl, Memory.peek_poke_same _ _ _, ?_⟩
  exact ⟨rfl, rfl, rfl, rfl, fun a ha => Memory.peek_poke_other _ _ ha⟩

/-- Settles O5: the fetch changes no register of the core, and where nothing disturbs it, nothing at all. -/
theorem stepRunsTheFetchedInstruction : Obligations.StepRunsTheFetchedInstruction := by
  constructor
  · intro s i hr h _ hat
    have hfetch := fetchInstr_of_octetsAt h hat
    exact ⟨hfetch, (step_ready hr h).trans (settle_ok hfetch)⟩
  · intro s t u f i hrun hin hstop hf hfault hfetch
    have ht := (read_peripheral _).withCoreOf_of_ok hf
    have hu := withCoreOf_of_fetchInstr hfetch
    refine ⟨(step_fetches hrun hin hstop hf hfault).trans (settle_ok hfetch), ?_, ?_⟩
    · rw [← hu, ← ht]; rfl
    · rw [← hu, ← ht]; exact hrun

end Sys2Proof.Machine
end

section
/-! Both stacks as lists: what the octet and word primitives of an undisturbed machine make of a stack, and what they leave
alone. -/

namespace Sys2Proof.Machine

/-! ### What is left alone -/

theorem Kept.mono {s t : State} {p q : Nat → Prop} (h : Kept s t p) (hpq : ∀ a, p a → q a) : Kept s t q :=
  ⟨h.stopReq, h.trace, h.slots, h.env, fun a ha => h.mem a (mt (hpq a) ha)⟩

theorem Kept.trans {s t u : State} {p : Nat → Prop} (h : Kept s t p) (h' : Kept t u p) : Kept s u p :=
  ⟨h'.stopReq.trans h.stopReq, h'.trace.trans h.trace, h'.slots.trans h.slots, h'.env.trans h.env,
    fun a ha => (h'.mem a ha).trans (h.mem a ha)⟩

theorem Kept.setPc {s t : State} {p : Nat → Prop} (h : Kept s t p) (v : Word) : Kept s (t.setPc v) p :=
  ⟨h.stopReq, h.trace, h.slots, h.env, h.mem⟩

/-- The state differs in storage only, and there only at the addresses that `touched` names. -/
structure Rewritten (s t : State) (touched : Nat → Prop) : Prop where
  pc : t.pc = s.pc
  runState : t.runState = s.runState
  kept : Kept s t touched

theorem rewritten_setMem {s : State} {m : Memory} {p : Nat → Prop} (h : ∀ a, ¬ p a → m.peek a = s.mem.peek a) :
    Rewritten s (s.setMem m) p := ⟨rfl, rfl, rfl, rfl, rfl, rfl, h⟩

theorem Rewritten.refl (s : State) (p : Nat → Prop) : Rewritten s s p := rewritten_setMem fun _ _ => rfl

theorem Rewritten.mono {s t : State} {p q : Nat → Prop} (h : Rewritten s t p) (hpq : ∀ a, p a → q a) :
    Rewritten s t q := ⟨h.pc, h.runState, h.kept.mono hpq⟩

theorem Rewritten.trans {s t u : State} {p : Nat → Prop} (h : Rewritten s t p) (h' : Rewritten t u p) :
    Rewritten s u p := ⟨h'.pc.trans h.pc, h'.runState.trans h.runState, h.kept.trans h'.kept⟩

theorem Rewritten.undisturbed {s t : State} {p : Nat → Prop} (h : Rewritten s t p) (hs : s.undisturbed) :
    t.undisturbed := (congrArg Env.foreign h.kept.env).trans hs

/-- The fault `c` has been taken, and storage rewritten besides at the addresses that `touched` names (R231). -/
structure Trapped (s t : State) (c : Cause) (touched : Nat → Prop) : Prop where
  pc : t.pc = s.pc
  runState : t.runState = .faulted
  flags : t.flags = withFault s.flags c
  kept : Kept s t fun a => a = flagsAddr.toNat ∨ touched a

theorem Trapped.mono {s t : State} {c : Cause} {p q : Nat → Prop} (h : Trapped s t c p) (hpq : ∀ a, p a → q a) :
    Trapped s t c q := ⟨h.pc, h.runState, h.flags, h.kept.mono fun a => Or.imp_right (hpq a)⟩

/-- A fault taken after storage has been rewritten elsewhere than in FLAGS. -/
theorem Rewritten.trans_trapped {s t u : State} {c : Cause} {p : Nat → Prop} (h : Rewritten s t p)
    (hp : ¬ p flagsAddr.toNat) (h' : Trapped t u c p) : Trapped s u c p :=
  ⟨h'.pc.trans h.pc, h'.runState, h'.flags.trans (congrArg (withFault · c) (h.kept.mem _ hp)),
    (h.kept.mono fun _ => .inr).trans h'.kept⟩

/-- Taking a fault writes FLAGS and nothing else (R231). -/
theorem takeFault_trapped {α : Type} {s : State} (h : s.undisturbed) (c : Cause) :
    ∃ t, (takeFault c : Micro α).run s = .error .taken t ∧ Trapped s t c fun _ => False :=
  ⟨_, takeFault_undisturbed h c, rfl, rfl, Memory.peek_poke_same _ _ _, rfl, rfl, rfl, rfl,
    fun _ ha => Memory.peek_poke_other _ _ fun e => ha (.inl e)⟩

/-! ### Where the stacks lie -/

theorem stackTouched_dataStack {low high a : Nat} :
    stackTouched dataStack low high a ↔ a = 2 ∨ 256 + low ≤ a ∧ a < 256 + high := .rfl

theorem stackTouched_returnStack {low high a : Nat} :
    stackTouched returnStack low high a ↔ a = 3 ∨ 512 + low ≤ a ∧ a < 512 + high := .rfl

theorem stackTouched_depthAddr (k : StackSpec) (low high : Nat) : stackTouched k low high k.depthAddr.toNat := .inl rfl

theorem stackTouched_mono {k : StackSpec} {low low' high high' a : Nat} (hlow : low' ≤ low) (hhigh : high ≤ high')
    (h : stackTouched k low high a) : stackTouched k low' high' a := by
  unfold stackTouched at *
  omega

/-- FLAGS is no octet of a stack. -/
theorem not_stackTouched_flagsAddr {k : StackSpec} (hk : k.isStack) (low high : Nat) :
    ¬ stackTouched k low high flagsAddr.toNat := by
  rw [show flagsAddr.toNat = 4 from rfl]
  rcases hk with rfl | rfl
  · rw [stackTouched_dataStack]; omega
  · rw [stackTouched_returnStack]; omega

/-- The two stacks have no octet in common. -/
theorem not_stackTouched_both {k k' : StackSpec} (hk : k.isStack) (hk' : k'.isStack) (hne : k ≠ k') {a : Nat}
    (h : stackTouched k 0 256 a) : ¬ stackTouched k' 0 256 a := by
  rcases hk with rfl | rfl <;> rcases hk' with rfl | rfl
  · exact absurd rfl hne
  · rw [stackTouched_dataStack] at h; rw [stackTouched_returnStack]; omega
  · rw [stackTouched_returnStack] at h; rw [stackTouched_dataStack]; omega
  · exact absurd rfl hne

/-- No slot of a stack is its depth octet. -/
theorem slot_ne_depthAddr {k : StackSpec} (hk : k.isStack) (i : Nat) : k.base.toNat + i ≠ k.depthAddr.toNat := by
  rcases hk with rfl | rfl
  · show 256 + i ≠ 2; omega
  · show 512 + i ≠ 3; omega

/-! ### A stack as a list -/

@[simp] theorem stack_length (s : State) (k : StackSpec) : (s.stack k).length = s.depth k :=
  Memory.peekList_length _ _ _

theorem depth_lt (s : State) (k : StackSpec) : s.depth k < 256 := BitVec.isLt _

theorem depth_of_stack {s : State} {k : StackSpec} {below ins : List Octet} (h : s.stack k = below ++ ins) :
    s.depth k = below.length + ins.length := by
  rw [← stack_length, h, List.length_append]

/-- A stack is read from its depth octet and its slots. -/
theorem Kept.stack_eq {s t : State} {p : Nat → Prop} (h : Kept s t p) {k : StackSpec}
    (hp : ∀ a, stackTouched k 0 256 a → ¬ p a) : t.stack k = s.stack k := by
  have hdepth : t.depth k = s.depth k := congrArg BitVec.toNat (h.mem _ (hp _ (stackTouched_depthAddr k 0 256)))
  have hlt := depth_lt s k
  unfold State.stack
  rw [hdepth]
  exact Memory.peekList_congr _ _ _ _ fun i hi => h.mem _ (hp _ (.inr (by omega)))

/-- Rewriting FLAGS and octets of one stack leaves the other. -/
theorem Kept.other_stack {s t : State} {p : Nat → Prop} (h : Kept s t p) {k k' : StackSpec} (hk : k.isStack)
    (hk' : k'.isStack) (hne : k ≠ k') (hp : ∀ a, p a → a = flagsAddr.toNat ∨ stackTouched k 0 256 a) :
    t.stack k' = s.stack k' := by
  refine h.stack_eq fun a ha hpa => ?_
  rcases hp a hpa with rfl | hka
  · exact not_stackTouched_flagsAddr hk' 0 256 ha
  · exact not_stackTouched_both hk hk' hne hka ha

/-- A fault alone leaves both stacks. -/
theorem Trapped.stack_eq {s t : State} {c : Cause} (h : Trapped s t c fun _ => False) {k : StackSpec}
    (hk : k.isStack) : t.stack k = s.stack k := by
  refine h.kept.stack_eq fun a ha => ?_
  rintro (rfl | hf)
  · exact not_stackTouched_flagsAddr hk 0 256 ha
  · exact hf

/-- The depth octet set lower takes the top of the stack off. -/
theorem stack_lower {k : StackSpec} (hk : k.isStack) {s : State} {below ins : List Octet}
    (h : s.stack k = below ++ ins) :
    (s.setMem (s.mem.poke k.depthAddr.toNat (BitVec.ofNat 8 below.length))).stack k = below := by
  have hlt := depth_lt s k
  have hlen := depth_of_stack h
  have hdepth : (s.setMem (s.mem.poke k.depthAddr.toNat (BitVec.ofNat 8 below.length))).depth k = below.length := by
    rw [State.depth, State.setMem_mem, Memory.peek_poke_same, BitVec.toNat_ofNat, Nat.mod_eq_of_lt (by omega)]
  rw [State.stack, hlen, Memory.peekList_append] at h
  rw [State.stack, hdepth]
  exact (Memory.peekList_congr _ _ _ _ fun i _ => Memory.peek_poke_other _ _ (slot_ne_depthAddr hk i)).trans
    (List.append_inj h (Memory.peekList_length _ _ _)).1

/-- The next free slot written and the depth octet raised put an octet on top. -/
theorem stack_push {k : StackSpec} (hk : k.isStack) {s : State} (hd : s.depth k < stackMax) (v : Octet) :
    (s.setMem ((s.mem.poke (k.base.toNat + s.depth k) v).poke k.depthAddr.toNat
      (s.mem.peek k.depthAddr.toNat + 1))).stack k = s.stack k ++ [v] := by
  have hdepth : (s.setMem ((s.mem.poke (k.base.toNat + s.depth k) v).poke k.depthAddr.toNat
      (s.mem.peek k.depthAddr.toNat + 1))).depth k = s.depth k + 1 := by
    unfold State.depth stackMax at *
    rw [State.setMem_mem, Memory.peek_poke_same]
    bv_omega
  rw [State.stack, hdepth, Memory.peekList_append, State.setMem_mem]
  congr 1
  · refine Memory.peekList_congr _ _ _ _ fun i hi => ?_
    rw [Memory.peek_poke_other _ _ (slot_ne_depthAddr hk i), Memory.peek_poke_other _ _ (by omega)]
  · rw [Memory.peekList, Memory.peek_poke_other _ _ (slot_ne_depthAddr hk _), Memory.peek_poke_same, Memory.peekList]

/-! ### The octet primitives -/

section
variable {k : StackSpec} (hk : k.isStack) {s : State} (h : s.undisturbed)
include hk h

/-- A push with room for it (R120, R124). -/
theorem pushOctet_room (hd : s.depth k < stackMax) (v : Octet) :
    ∃ t, (pushOctet k v).run s = .ok () t ∧ t.stack k = s.stack k ++ [v] ∧
      Rewritten s t (stackTouched k (s.depth k) (s.depth k + 1)) := by
  refine ⟨_, pushOctet_undisturbed hk h hd v, stack_push hk hd v, rewritten_setMem fun a ha => ?_⟩
  unfold stackTouched at ha
  rw [Memory.peek_poke_other _ _ (by omega), Memory.peek_poke_other _ _ (by omega)]

/-- A push without room (R120, R124). -/
theorem pushOctet_overflow (hd : stackMax ≤ s.depth k) (v : Octet) :
    ∃ t, (pushOctet k v).run s = .error .taken t ∧ t.stack k = s.stack k ∧
      Trapped s t k.overflow fun _ => False := by
  obtain ⟨t, hrun, htrap⟩ := takeFault_trapped (α := Unit) h k.overflow
  exact ⟨t, (pushOctet_full hk h hd v).trans hrun, htrap.stack_eq hk, htrap⟩

/-- A pop of a stack that is not empty (R121, R125). -/
theorem popOctet_top {below : List Octet} {v : Octet} (hs : s.stack k = below ++ [v]) :
    ∃ t, (popOctet k).run s = .ok v t ∧ t.stack k = below ∧ Rewritten s t fun a => a = k.depthAddr.toNat := by
  have hlen : s.depth k = below.length + 1 := depth_of_stack hs
  have htop : s.mem.peek (k.base.toNat + (s.depth k - 1)) = v := by
    have hget : (s.stack k)[below.length]? = some v := by rw [hs]; simp
    rw [State.stack, Memory.peekList_getElem? _ _ _ _ (by omega)] at hget
    rw [hlen]
    exact Option.some.inj hget
  have hoctet : s.mem.peek k.depthAddr.toNat - 1 = BitVec.ofNat 8 below.length := by
    unfold State.depth at hlen
    bv_omega
  have hrun := popOctet_undisturbed hk h (by omega)
  rw [htop, hoctet] at hrun
  exact ⟨_, hrun, stack_lower hk hs, rewritten_setMem fun a ha => Memory.peek_poke_other _ _ ha⟩

/-- A pop of an empty stack (R121, R125). -/
theorem popOctet_underflow (hd : s.depth k = 0) :
    ∃ t, (popOctet k).run s = .error .taken t ∧ t.stack k = [] ∧ Trapped s t k.underflow fun _ => False := by
  obtain ⟨t, hrun, htrap⟩ := takeFault_trapped (α := Octet) h k.underflow
  refine ⟨t, (popOctet_empty hk h hd).trans hrun, ?_, htrap⟩
  rw [htrap.stack_eq hk, ← List.length_eq_zero_iff, stack_length, hd]

end

/-- Settles O15: the two cases of a push. -/
theorem octetPushes : Obligations.OctetPushes := by
  intro k s v hk h
  refine ⟨fun hd => ?_, fun hd => ?_⟩
  · obtain ⟨t, hrun, hstack, ht⟩ := pushOctet_room hk h hd v
    refine ⟨t, hrun, hstack, ht.pc, ht.runState, ht.kept.mono fun a ha => ?_⟩
    unfold stackTouched at ha
    omega
  · obtain ⟨t, hrun, hstack, ht⟩ := pushOctet_overflow hk h hd v
    exact ⟨t, hrun, hstack, ht.pc, ht.runState, ht.flags, ht.kept.mono fun a ha => ha.resolve_right id⟩

/-- Settles O16: the two cases of a pop. -/
theorem octetPops : Obligations.OctetPops := by
  intro k s hk h
  refine ⟨fun below v hs => ?_, fun hs => ?_⟩
  · obtain ⟨t, hrun, hstack, ht⟩ := popOctet_top hk h hs
    exact ⟨t, hrun, hstack, ht.pc, ht.runState, ht.kept⟩
  · have hd : s.depth k = 0 := by rw [← stack_length, hs, List.length_nil]
    obtain ⟨t, hrun, hstack, ht⟩ := popOctet_underflow hk h hd
    exact ⟨t, hrun, hstack, ht.pc, ht.runState, ht.flags, ht.kept.mono fun a ha => ha.resolve_right id⟩

end Sys2Proof.Machine
end

section
/-! Pops followed by pushes, on either stack: how far a sequence gets on the octets that a stack holds and on the room that
it has. -/

namespace Sys2Proof.Machine

/-! ### Pops -/

/-- With `ins` on top of the stack, `m` pops them and goes on as `m'`. -/
def PopsTo {α : Type} (k : StackSpec) (m : Micro α) (ins : List Octet) (m' : Micro α) : Prop :=
  ∀ (s : State) (below : List Octet), s.undisturbed → s.stack k = below ++ ins →
    ∃ t, m.run s = m'.run t ∧ t.stack k = below ∧ Rewritten s t fun a => a = k.depthAddr.toNat

/-- With fewer than `n` octets on the stack, `m` pops them all and takes the underflow fault. -/
def Underflows {α : Type} (k : StackSpec) (m : Micro α) (n : Nat) : Prop :=
  ∀ s : State, s.undisturbed → s.depth k < n →
    ∃ t, m.run s = .error .taken t ∧ t.stack k = [] ∧ Trapped s t k.underflow fun a => a = k.depthAddr.toNat

/-- The 16-bit pop written out in front of what follows it (R123, R127). -/
theorem popWord_bind {α : Type} (k : StackSpec) (f : Word → Micro α) :
    (popWord k >>= f) = popOctet k >>= fun l => popOctet k >>= fun h => f (joinOctets h l) := by
  simp [popWord]

theorem depthAddr_ne_flagsAddr {k : StackSpec} (hk : k.isStack) : flagsAddr.toNat ≠ k.depthAddr.toNat := fun e =>
  not_stackTouched_flagsAddr hk 0 0 (.inl e)

section
variable {α : Type} {k : StackSpec}

theorem PopsTo.none (m : Micro α) : PopsTo k m [] m := fun s below _ hs =>
  ⟨s, rfl, by rw [hs, List.append_nil], .refl s _⟩

theorem PopsTo.octet (hk : k.isStack) {f : Octet → Micro α} {ins : List Octet} {m' : Micro α} (v : Octet)
    (h : PopsTo k (f v) ins m') : PopsTo k (popOctet k >>= f) (ins ++ [v]) m' := by
  intro s below hu hs
  rw [← List.append_assoc] at hs
  obtain ⟨t, hrun, ht, hst⟩ := popOctet_top hk hu hs
  obtain ⟨u, hrun', hu', htu⟩ := h t below (hst.undisturbed hu) ht
  exact ⟨u, (bind_ok hrun).trans hrun', hu', hst.trans htu⟩

theorem PopsTo.word (hk : k.isStack) {f : Word → Micro α} {ins : List Octet} {m' : Micro α} (w : Word)
    (h : PopsTo k (f w) ins m') : PopsTo k (popWord k >>= f) (ins ++ wordOctets w) m' := by
  have hhigh : PopsTo k (popOctet k >>= fun h => f (joinOctets h (lowOctet w))) (ins ++ [highOctet w]) m' :=
    .octet hk _ (by rwa [joinOctets_halves])
  have hlow := PopsTo.octet hk (f := fun l => popOctet k >>= fun h => f (joinOctets h l)) (lowOctet w) hhigh
  rw [List.append_assoc] at hlow
  rwa [popWord_bind]

theorem Underflows.none (m : Micro α) : Underflows k m 0 := fun _ _ hd => absurd hd (Nat.not_lt_zero _)

theorem Underflows.octet (hk : k.isStack) {f : Octet → Micro α} {n : Nat} (h : ∀ v, Underflows k (f v) n) :
    Underflows k (popOctet k >>= f) (n + 1) := by
  intro s hu hd
  rcases List.eq_nil_or_concat (s.stack k) with hs | ⟨below, v, hs⟩
  · have hd : s.depth k = 0 := by rw [← stack_length, hs, List.length_nil]
    obtain ⟨t, hrun, ht, htrap⟩ := popOctet_underflow hk hu hd
    exact ⟨t, bind_error hrun, ht, htrap.mono fun _ => False.elim⟩
  · rw [List.concat_eq_append] at hs
    have hlen := depth_of_stack hs
    obtain ⟨t, hrun, ht, hst⟩ := popOctet_top hk hu hs
    have hd' : t.depth k < n := by
      rw [← stack_length, ht]
      rw [List.length_singleton] at hlen
      omega
    obtain ⟨u, hrun', hu', htu⟩ := h v t (hst.undisturbed hu) hd'
    exact ⟨u, (bind_ok hrun).trans hrun', hu', hst.trans_trapped (depthAddr_ne_flagsAddr hk) htu⟩

theorem Underflows.word (hk : k.isStack) {f : Word → Micro α} {n : Nat} (h : ∀ w, Underflows k (f w) n) :
    Underflows k (popWord k >>= f) (n + 2) := by
  rw [popWord_bind]
  exact .octet hk fun _ => .octet hk fun _ => h _

end

/-! ### Pushes -/

/-- `Push8` of one octet after the other. -/
def pushOctets (k : StackSpec) : List Octet → Micro Unit
  | [] => pure ()
  | v :: vs => do
    pushOctet k v
    pushOctets k vs

theorem pushOctets_append (k : StackSpec) (vs ws : List Octet) :
    pushOctets k (vs ++ ws) = pushOctets k vs >>= fun _ => pushOctets k ws := by
  induction vs with
  | nil => simp [pushOctets]
  | cons v vs ih => simp [pushOctets, ih]

/-- A 16-bit push is the push of its two octets, high octet first (R122, R126). -/
theorem pushWord_eq_pushOctets (k : StackSpec) (w : Word) : pushWord k w = pushOctets k (wordOctets w) := by
  simp [pushWord, pushOctets, wordOctets]

section
variable {k : StackSpec} (hk : k.isStack) {s : State} (h : s.undisturbed)
include hk h

/-- Pushes with room for all of them. -/
theorem pushOctets_room {outs : List Octet} (hd : s.depth k + outs.length ≤ stackMax) :
    ∃ t, (pushOctets k outs).run s = .ok () t ∧ t.stack k = s.stack k ++ outs ∧
      Rewritten s t (stackTouched k (s.depth k) (s.depth k + outs.length)) := by
  induction outs generalizing s with
  | nil => exact ⟨s, rfl, (List.append_nil _).symm, .refl s _⟩
  | cons v vs ih =>
    rw [List.length_cons] at hd ⊢
    obtain ⟨t, hrun, hstack, hst⟩ := pushOctet_room hk h (by omega) v
    have hdepth : t.depth k = s.depth k + 1 := by rw [depth_of_stack hstack, stack_length, List.length_singleton]
    obtain ⟨u, hrun', hstack', htu⟩ := ih (hst.undisturbed h) (by omega)
    rw [hdepth] at htu
    refine ⟨u, (bind_ok hrun).trans hrun', ?_, ?_⟩
    · rw [hstack', hstack, List.append_assoc, List.singleton_append]
    · exact (hst.mono fun _ => stackTouched_mono le_rfl (by omega)).trans
        (htu.mono fun _ => stackTouched_mono (by omega) (by omega))

/-- Pushes without room for all of them: those that find room stay done (R122, R126). -/
theorem pushOctets_overflow {outs : List Octet} (hne : outs ≠ []) (hd : stackMax < s.depth k + outs.length) :
    ∃ t, (pushOctets k outs).run s = .error .taken t ∧
      t.stack k = s.stack k ++ outs.take (stackMax - s.depth k) ∧
      Trapped s t k.overflow (stackTouched k (s.depth k) stackMax) := by
  induction outs generalizing s with
  | nil => exact absurd rfl hne
  | cons v vs ih =>
    rw [List.length_cons] at hd
    rcases Nat.lt_or_ge (s.depth k) stackMax with hroom | hfull
    · obtain ⟨t, hrun, hstack, hst⟩ := pushOctet_room hk h hroom v
      have hdepth : t.depth k = s.depth k + 1 := by rw [depth_of_stack hstack, stack_length, List.length_singleton]
      have hvs : vs ≠ [] := by rintro rfl; rw [List.length_nil] at hd; omega
      obtain ⟨u, hrun', hstack', htu⟩ := ih (hst.undisturbed h) hvs (by omega)
      rw [hdepth] at hstack' htu
      refine ⟨u, (bind_ok hrun).trans hrun', ?_, ?_⟩
      · rw [hstack', hstack, List.append_assoc, List.singleton_append,
          show stackMax - s.depth k = stackMax - (s.depth k + 1) + 1 by omega, List.take_succ_cons]
      · exact (hst.mono fun _ => stackTouched_mono le_rfl hroom).trans_trapped (not_stackTouched_flagsAddr hk _ _)
          (htu.mono fun _ => stackTouched_mono (by omega) le_rfl)
    · obtain ⟨t, hrun, hstack, htrap⟩ := pushOctet_overflow hk h hfull v
      refine ⟨t, bind_error hrun, ?_, htrap.mono fun _ => False.elim⟩
      rw [hstack, Nat.sub_eq_zero_of_le hfull, List.take_zero, List.append_nil]

end

/-- Settles O17: the 16-bit push as the push of its two octets. -/
theorem wordPushes : Obligations.WordPushes := by
  intro k s v hk h
  refine ⟨fun hd => ?_, fun hd => ?_, fun hd => ?_⟩
  · obtain ⟨t, hrun, hstack, ht⟩ := pushOctets_room hk h (outs := wordOctets v) hd
    rw [← pushWord_eq_pushOctets] at hrun
    exact ⟨t, hrun, hstack, ht.pc, ht.runState, ht.kept⟩
  · have hfull : stackMax < s.depth k + (wordOctets v).length := by rw [hd]; exact (by decide : 254 < 253 + 2)
    obtain ⟨t, hrun, hstack, ht⟩ := pushOctets_overflow hk h (outs := wordOctets v) (List.cons_ne_nil _ _) hfull
    rw [← pushWord_eq_pushOctets] at hrun
    rw [hd] at hstack ht
    exact ⟨t, hrun, hstack, ht.runState, ht.pc, ht.flags, ht.kept⟩
  · obtain ⟨t, hrun, hstack, ht⟩ := pushOctet_overflow hk h hd (highOctet v)
    exact ⟨t, bind_error hrun, hstack, ht.runState, ht.pc, ht.flags, ht.kept.mono fun a ha => ha.resolve_right id⟩

/-- Settles O18: the 16-bit pop as two octet pops, the second of which may find the stack empty. -/
theorem wordPops : Obligations.WordPops := by
  intro k s hk h
  refine ⟨fun below x y hs => ?_, fun hd => ?_⟩
  · have pops : PopsTo k (popWord k) ([x] ++ [y]) (pure (joinOctets x y)) := .octet hk y (.octet hk x (.none _))
    obtain ⟨t, hrun, hstack, ht⟩ := pops s below h hs
    exact ⟨t, hrun, hstack, ht.pc, ht.runState, ht.kept⟩
  · obtain ⟨t, hrun, hstack, ht⟩ := Underflows.octet hk (fun _ => .octet hk fun _ => .none _) s h hd
    exact ⟨t, hrun, hstack, ht.pc, ht.runState, ht.flags, ht.kept⟩

end Sys2Proof.Machine
end

section
/-! The stack and system family, opcodes 0x00 to 0x0B: each instruction is some pops, some pushes, and `pc + 1`. -/

namespace Sys2Proof.Machine

/-! ### HALT and YIELD -/

/-- An instruction that rewrites FLAGS, advances and enters a run state. -/
theorem finish_flags {s : State} (h : s.undisturbed) (g : Octet → Octet) (r : RunState) :
    ∃ t, finish (do
        let f ← read flagsAddr
        write flagsAddr (g f)
        advance 1
        enter r) s = .next t ∧
      t.runState = r ∧ t.pc = s.pc + 1 ∧ t.flags = g s.flags ∧ Kept s t fun a => a = flagsAddr.toNat := by
  refine ⟨((s.setMem (s.mem.poke flagsAddr.toNat (g s.flags))).setPc (s.pc + 1)).setRunState r, finish_ok ?_, rfl, rfl,
    Memory.peek_poke_same _ _ _, rfl, rfl, rfl, rfl, fun _ ha => Memory.peek_poke_other _ _ ha⟩
  rw [bind_ok (read_storage h flagsAddr_outside), bind_ok (write_storage h flagsAddr_outside _),
    bind_ok (advance_run _ _), enter_run]
  rfl

/-- Settles O19: HALT clears the fault bits. -/
theorem haltStopsCleanly : Obligations.HaltStopsCleanly :=
  ⟨rfl, fun _ h => finish_flags h haltFlags .halted⟩

/-- Settles O20: YIELD sets WAITING. -/
theorem yieldParks : Obligations.YieldParks :=
  ⟨rfl, fun _ h => finish_flags h yieldFlags .waiting⟩

/-! ### Pops and pushes as an instruction -/

/-- A sequence that takes a fault is an instruction that does. -/
theorem Trapped.traps {i : Instr} {m : Micro Unit} {s t : State} {c : Cause} {p : Nat → Prop} {ds rs : List Octet}
    (h : Trapped s t c p) (he : exec i s = finish m s) (hrun : m.run s = .error .taken t) (hds : t.ds = ds)
    (hrs : t.rs = rs) : Traps i s c ds rs p :=
  ⟨t, he.trans (finish_taken hrun), h.runState, h.pc, h.flags, hds, hrs, h.kept⟩

/-- A stack's fault with fewer octets on it than the instruction's pops need, which come first: the octets that there are
are gone, and the other stack stays. -/
theorem Underflows.trapped {k k' : StackSpec} (hk : k.isStack) (hk' : k'.isStack) (hne : k ≠ k') {m : Micro Unit}
    {n : Nat} (hm : Underflows k m n) {s : State} (h : s.undisturbed) (hd : s.depth k < n) :
    ∃ t, m.run s = .error .taken t ∧ t.stack k = [] ∧ t.stack k' = s.stack k' ∧
      Trapped s t k.underflow (stackTouched k 0 0) := by
  obtain ⟨t, hrun, hstack, ht⟩ := hm s h hd
  refine ⟨t, hrun, hstack, ?_, ht.mono fun _ => .inl⟩
  exact ht.kept.other_stack hk hk' hne fun _ => Or.imp_right .inl

/-- The pops of an instruction come first, so they say how many octets it needs. -/
theorem needsOctets_of_underflows {i : Instr} {m : Micro Unit} {n : Nat} (he : ∀ s, exec i s = finish m s)
    (hm : Underflows dataStack m n) : NeedsOctets i n := by
  intro s h hd
  obtain ⟨t, hrun, hds, hrs, ht⟩ := hm.trapped dataStack_isStack returnStack_isStack (by decide) h hd
  exact ht.traps (he s) hrun hds hrs

section
variable {k : StackSpec} (hk : k.isStack) {m : Micro Unit} {ins outs : List Octet} {n : Word}
  (hm : PopsTo k m ins (pushOctets k outs >>= fun _ => advance n)) {s : State} (h : s.undisturbed)
  {below : List Octet} (hs : s.stack k = below ++ ins)
include hk hm h hs

/-- Octets replaced on top of a stack, where there is room. -/
theorem PopsTo.back_room (hroom : below.length + outs.length ≤ stackMax) :
    ∃ t, m.run s = .ok () t ∧ t.stack k = below ++ outs ∧ t.pc = s.pc + n ∧ t.runState = s.runState ∧
      Kept s t (stackTouched k below.length (below.length + outs.length)) := by
  obtain ⟨t, hpop, ht, hst⟩ := hm s below h hs
  have hlow : t.depth k = below.length := by rw [← stack_length, ht]
  rw [← hlow] at hroom
  obtain ⟨u, hrun, hstack, htu⟩ := pushOctets_room hk (hst.undisturbed h) hroom
  rw [ht] at hstack
  rw [hlow] at htu
  have hsu := (hst.mono fun _ => .inl).trans htu
  refine ⟨u.setPc (u.pc + n), hpop.trans (bind_ok hrun), hstack, ?_, hsu.runState, hsu.kept.setPc _⟩
  rw [State.setPc_pc, hsu.pc]

/-- Octets replaced on top of a stack, where there is no room: those that find room are pushed. -/
theorem PopsTo.back_overflow (houts : outs ≠ []) (hfull : stackMax < below.length + outs.length) :
    ∃ t, m.run s = .error .taken t ∧ t.stack k = below ++ outs.take (stackMax - below.length) ∧
      Trapped s t k.overflow (stackTouched k below.length stackMax) := by
  obtain ⟨t, hpop, ht, hst⟩ := hm s below h hs
  have hlow : t.depth k = below.length := by rw [← stack_length, ht]
  rw [← hlow] at hfull
  obtain ⟨u, hrun, hstack, htu⟩ := pushOctets_overflow hk (hst.undisturbed h) houts hfull
  rw [ht, hlow] at hstack
  rw [hlow] at htu
  exact ⟨u, hpop.trans (bind_error hrun), hstack,
    (hst.mono fun _ => .inl).trans_trapped (not_stackTouched_flagsAddr hk _ _) htu⟩

end

/-- Only an instruction that pushes runs out of room: the octets below what another pops are at most 254. -/
theorem outs_ne_nil_of_full {s : State} {k : StackSpec} {below ins outs : List Octet} (hs : s.stack k = below ++ ins)
    (hne : ins ++ outs ≠ []) (hfull : stackMax < below.length + outs.length) : outs ≠ [] := by
  rintro rfl
  have hlen := depth_of_stack hs
  have hlt := depth_lt s k
  have hins : 0 < ins.length := List.length_pos_iff.2 (by simpa using hne)
  unfold stackMax at hfull
  rw [List.length_nil] at hfull
  omega

/-- An instruction that pops `ins` and pushes `outs` turns the one into the other. -/
theorem turns_of_popsTo {i : Instr} {m m' : Micro Unit} {n : Word} {ins ins' outs : List Octet}
    (he : ∀ s, exec i s = finish m s) (hm : PopsTo dataStack m ins' m') (hins : ins' = ins)
    (hpush : m' = pushOctets dataStack outs >>= fun _ => advance n) (hne : ins ++ outs ≠ []) : Turns i n ins outs := by
  subst hins hpush
  intro s below h hs
  refine ⟨fun hroom => ?_, fun hfull => ?_⟩
  · obtain ⟨t, hrun, hrest⟩ := hm.back_room dataStack_isStack h hs hroom
    exact ⟨t, (he s).trans (finish_ok hrun), hrest⟩
  · obtain ⟨t, hrun, hds, ht⟩ :=
      hm.back_overflow dataStack_isStack h hs (outs_ne_nil_of_full hs hne hfull) hfull
    refine ht.traps (he s) hrun hds ?_
    exact ht.kept.other_stack dataStack_isStack returnStack_isStack (by decide) fun _ =>
      Or.imp_right (stackTouched_mono (Nat.zero_le _) (by decide))

section
variable {f : Octet → Micro Unit} {g : Word → Micro Unit} {n : Nat} {ins : List Octet} {m : Micro Unit}

theorem Underflows.pop8 (h : ∀ v, Underflows dataStack (f v) n) : Underflows dataStack (pop8 >>= f) (n + 1) :=
  .octet dataStack_isStack h

theorem Underflows.pop16 (h : ∀ w, Underflows dataStack (g w) n) : Underflows dataStack (pop16 >>= g) (n + 2) :=
  .word dataStack_isStack h

theorem PopsTo.pop8 (v : Octet) (h : PopsTo dataStack (f v) ins m) : PopsTo dataStack (pop8 >>= f) (ins ++ [v]) m :=
  .octet dataStack_isStack v h

theorem PopsTo.pop16 (w : Word) (h : PopsTo dataStack (g w) ins m) :
    PopsTo dataStack (pop16 >>= g) (ins ++ wordOctets w) m :=
  .word dataStack_isStack w h

end

theorem push16_eq_pushOctets (w : Word) : push16 w = pushOctets dataStack (wordOctets w) := pushWord_eq_pushOctets _ w

/-! ### The octet instructions -/

section
variable (x y : Octet)

theorem turns_drop : Turns .drop 1 [x] [] :=
  turns_of_popsTo (fun _ => rfl) (.pop8 x (.none _)) rfl (by simp [pushOctets]) (by simp)

theorem turns_dup : Turns .dup 1 [x] [x, x] :=
  turns_of_popsTo (fun _ => rfl) (.pop8 x (.none _)) rfl (by simp [push8, pushOctets]) (by simp)

theorem turns_swap : Turns .swap 1 [x, y] [y, x] :=
  turns_of_popsTo (fun _ => rfl) (.pop8 y (.pop8 x (.none _))) rfl (by simp [push8, pushOctets]) (by simp)

theorem turns_over8 : Turns .over8 1 [x, y] [x, y, x] :=
  turns_of_popsTo (fun _ => rfl) (.pop8 y (.pop8 x (.none _))) rfl (by simp [push8, pushOctets]) (by simp)

end

/-- Settles O21: what each of the four pops and pushes. -/
theorem octetStackInstructions : Obligations.OctetStackInstructions :=
  ⟨rfl, rfl, rfl, rfl,
    needsOctets_of_underflows (fun _ => rfl) (.pop8 fun _ => .none _),
    needsOctets_of_underflows (fun _ => rfl) (.pop8 fun _ => .none _),
    needsOctets_of_underflows (fun _ => rfl) (.pop8 fun _ => .pop8 fun _ => .none _),
    needsOctets_of_underflows (fun _ => rfl) (.pop8 fun _ => .pop8 fun _ => .none _),
    fun x y => ⟨turns_drop x, turns_dup x, turns_swap x y, turns_over8 x y⟩⟩

/-! ### The word instructions -/

section
variable (v w : Word)

theorem turns_drop16 : Turns .drop16 1 (wordOctets w) [] :=
  turns_of_popsTo (fun _ => rfl) (.pop16 w (.none _)) rfl (by simp [pushOctets]) (by simp [wordOctets])

theorem turns_dup16 : Turns .dup16 1 (wordOctets w) (wordOctets w ++ wordOctets w) :=
  turns_of_popsTo (fun _ => rfl) (.pop16 w (.none _)) rfl (by simp [push16_eq_pushOctets, pushOctets_append])
    (by simp [wordOctets])

theorem turns_swap16 : Turns .swap16 1 (wordOctets v ++ wordOctets w) (wordOctets w ++ wordOctets v) :=
  turns_of_popsTo (fun _ => rfl) (.pop16 w (.pop16 v (.none _))) rfl
    (by simp [push16_eq_pushOctets, pushOctets_append]) (by simp [wordOctets])

theorem turns_over16 :
    Turns .over16 1 (wordOctets v ++ wordOctets w) (wordOctets v ++ wordOctets w ++ wordOctets v) :=
  turns_of_popsTo (fun _ => rfl) (.pop16 w (.pop16 v (.none _))) rfl
    (by simp [push16_eq_pushOctets, pushOctets_append]) (by simp [wordOctets])

end

/-- Settles O22: what each of the four pops and pushes. -/
theorem wordStackInstructions : Obligations.WordStackInstructions :=
  ⟨rfl, rfl, rfl, rfl,
    needsOctets_of_underflows (fun _ => rfl) (.pop16 fun _ => .none _),
    needsOctets_of_underflows (fun _ => rfl) (.pop16 fun _ => .none _),
    needsOctets_of_underflows (fun _ => rfl) (.pop16 fun _ => .pop16 fun _ => .none _),
    needsOctets_of_underflows (fun _ => rfl) (.pop16 fun _ => .pop16 fun _ => .none _),
    fun v w => ⟨turns_drop16 w, turns_dup16 w, turns_swap16 v w, turns_over16 v w⟩⟩

/-! ### From one stack to the other -/

section
variable {k k' : StackSpec} (hk : k.isStack) (hk' : k'.isStack) (hne : k ≠ k') {m : Micro Unit} {ins outs : List Octet}
  {n : Word} (hm : PopsTo k m ins (pushOctets k' outs >>= fun _ => advance n)) {s : State} (h : s.undisturbed)
  {below : List Octet} (hs : s.stack k = below ++ ins)
include hk hk' hne hm h hs

/-- What is popped off one stack leaves the other, and the pushes come next. -/
theorem PopsTo.across :
    ∃ t, m.run s = (pushOctets k' outs >>= fun _ => advance n).run t ∧ t.undisturbed ∧ t.stack k = below ∧
      t.stack k' = s.stack k' ∧ t.depth k' = s.depth k' ∧
      ∀ p : Nat → Prop, Rewritten s t fun a => a = k.depthAddr.toNat ∨ p a := by
  obtain ⟨t, hrun, ht, hst⟩ := hm s below h hs
  have hother : t.stack k' = s.stack k' := hst.kept.other_stack hk hk' hne fun _ ha => .inr (.inl ha)
  refine ⟨t, hrun, hst.undisturbed h, ht, hother, ?_, fun p => hst.mono fun _ => .inl⟩
  rw [← stack_length, hother, stack_length]

/-- Octets moved from one stack to the other, where there is room. -/
theorem PopsTo.across_room (hroom : s.depth k' + outs.length ≤ stackMax) :
    ∃ t, m.run s = .ok () t ∧ t.stack k = below ∧ t.stack k' = s.stack k' ++ outs ∧ t.pc = s.pc + n ∧
      t.runState = s.runState ∧
      Kept s t fun a => a = k.depthAddr.toNat ∨ stackTouched k' (s.depth k') (s.depth k' + outs.length) a := by
  obtain ⟨t, hpop, hu, ht, ht', hdepth, hst⟩ := hm.across hk hk' hne h hs
  rw [← hdepth] at hroom
  obtain ⟨u, hrun, hstack, htu⟩ := pushOctets_room hk' hu hroom
  have hother : u.stack k = t.stack k := htu.kept.other_stack hk' hk hne.symm fun _ =>
    .inr ∘ stackTouched_mono (Nat.zero_le _) (hroom.trans (by decide))
  rw [hdepth] at htu
  have hsu := (hst _).trans (htu.mono fun _ => .inr)
  refine ⟨u.setPc (u.pc + n), hpop.trans (bind_ok hrun), hother.trans ht, ?_, ?_, hsu.runState, hsu.kept.setPc _⟩
  · exact hstack.trans (by rw [ht'])
  · rw [State.setPc_pc, hsu.pc]

/-- Octets moved from one stack to the other, where there is no room: they are gone from the one, and those that find
room are on the other. -/
theorem PopsTo.across_overflow (houts : outs ≠ []) (hfull : stackMax < s.depth k' + outs.length) :
    ∃ t, m.run s = .error .taken t ∧ t.stack k = below ∧
      t.stack k' = s.stack k' ++ outs.take (stackMax - s.depth k') ∧
      Trapped s t k'.overflow fun a => a = k.depthAddr.toNat ∨ stackTouched k' (s.depth k') stackMax a := by
  obtain ⟨t, hpop, hu, ht, ht', hdepth, hst⟩ := hm.across hk hk' hne h hs
  rw [← hdepth] at hfull
  obtain ⟨u, hrun, hstack, htu⟩ := pushOctets_overflow hk' hu houts hfull
  have hother : u.stack k = t.stack k := htu.kept.other_stack hk' hk hne.symm fun _ =>
    Or.imp_right (stackTouched_mono (Nat.zero_le _) (by decide))
  rw [ht', hdepth] at hstack
  rw [hdepth] at htu
  refine ⟨u, hpop.trans (bind_error hrun), hother.trans ht, hstack, (hst _).trans_trapped ?_ (htu.mono fun _ => .inr)⟩
  exact fun hf => hf.elim (depthAddr_ne_flagsAddr hk) (not_stackTouched_flagsAddr hk' _ _)

end

/-- TOR pops a word off the data stack and pushes it on the return stack (R138). -/
theorem popsTo_tor (w : Word) :
    PopsTo dataStack (pop16 >>= fun v => rpush16 v >>= fun _ => advance 1) (wordOctets w)
      (pushOctets returnStack (wordOctets w) >>= fun _ => advance 1) := by
  rw [← pushWord_eq_pushOctets]
  exact .pop16 w (.none _)

/-- FROMR pops a word off the return stack and pushes it on the data stack (R139). -/
theorem popsTo_fromr (w : Word) :
    PopsTo returnStack (rpop16 >>= fun v => push16 v >>= fun _ => advance 1) (wordOctets w)
      (pushOctets dataStack (wordOctets w) >>= fun _ => advance 1) := by
  rw [← pushWord_eq_pushOctets]
  exact .word returnStack_isStack w (.none _)

/-- Settles O23: a word popped off the data stack is pushed on the return stack, with or without room there. -/
theorem torMovesToReturnStack : Obligations.TorMovesToReturnStack := by
  refine ⟨rfl, needsOctets_of_underflows (fun _ => rfl) (.pop16 fun _ => .none _), fun s below w h hs => ?_⟩
  have hne : dataStack ≠ returnStack := by decide
  refine ⟨fun hroom => ?_, fun hfull => ?_⟩
  · obtain ⟨t, hrun, hstacks⟩ := (popsTo_tor w).across_room dataStack_isStack returnStack_isStack hne h hs hroom
    exact ⟨t, finish_ok hrun, hstacks⟩
  · obtain ⟨t, hrun, hds, hrs, ht⟩ := (popsTo_tor w).across_overflow dataStack_isStack returnStack_isStack hne h hs
      (List.cons_ne_nil _ _) hfull
    exact ht.traps rfl hrun hds hrs

/-- Settles O24: a word popped off the return stack is pushed on the data stack, with or without room there. -/
theorem fromrMovesToDataStack : Obligations.FromrMovesToDataStack := by
  have hne : returnStack ≠ dataStack := by decide
  refine ⟨rfl, fun s h hd => ?_, fun s below w h hs => ⟨fun hroom => ?_, fun hfull => ?_⟩⟩
  · have hm : Underflows returnStack (rpop16 >>= fun v => push16 v >>= fun _ => advance 1) 2 :=
      .word returnStack_isStack fun _ => .none _
    obtain ⟨t, hrun, hrs, hds, ht⟩ := hm.trapped returnStack_isStack dataStack_isStack hne h hd
    exact ht.traps rfl hrun hds hrs
  · obtain ⟨t, hrun, hrs, hds, hrest⟩ :=
      (popsTo_fromr w).across_room returnStack_isStack dataStack_isStack hne h hs hroom
    exact ⟨t, finish_ok hrun, hds, hrs, hrest⟩
  · obtain ⟨t, hrun, hrs, hds, ht⟩ :=
      (popsTo_fromr w).across_overflow returnStack_isStack dataStack_isStack hne h hs (List.cons_ne_nil _ _) hfull
    exact ht.traps rfl hrun hds hrs

end Sys2Proof.Machine
end

section
/-! The arithmetic, logic and shift family, opcodes 0x10 to 0x25: the model's bit-vector operations as the exact results
of R150 cut to the width, and the shapes of the family as pops and pushes. -/

namespace Sys2Proof.Machine

/-! ### The operations as exact results cut to the width -/

section
variable {w : Nat}

theorem eq_ofNat_of_toNat_eq {x : BitVec w} {n : Nat} (h : x.toNat = n) : x = BitVec.ofNat w n := by
  rw [← h, BitVec.ofNat_toNat, BitVec.setWidth_eq]

theorem sub_eq_ofInt (b a : BitVec w) : b - a = BitVec.ofInt w ((b.toNat : Int) - (a.toNat : Int)) := by
  apply BitVec.eq_of_toInt_eq
  rw [BitVec.toInt_sub, BitVec.toInt_ofInt, BitVec.toInt_eq_toNat_bmod, BitVec.toInt_eq_toNat_bmod]
  simp

theorem mul_eq_ofNat (b a : BitVec w) : b * a = BitVec.ofNat w (b.toNat * a.toNat) :=
  BitVec.eq_of_toNat_eq (BitVec.toNat_mul b a)

/-- Quotient and remainder are the naturals that R152 calls unique. -/
theorem udiv_umod_eq_ofNat {b a : BitVec w} {q r : Nat} (hb : b.toNat = q * a.toNat + r) (hr : r < a.toNat) :
    b / a = BitVec.ofNat w q ∧ b % a = BitVec.ofNat w r := by
  have hsum : r + a.toNat * q = b.toNat := by rw [hb, Nat.mul_comm, Nat.add_comm]
  obtain ⟨hdiv, hmod⟩ := (Nat.div_mod_unique (Nat.zero_lt_of_lt hr)).2 ⟨hsum, hr⟩
  exact ⟨eq_ofNat_of_toNat_eq (BitVec.toNat_udiv.trans hdiv), eq_ofNat_of_toNat_eq (BitVec.toNat_umod.trans hmod)⟩

theorem shiftLeft_eq_ofNat (b : BitVec w) (n : Nat) : b <<< n = BitVec.ofNat w (b.toNat * 2 ^ n) := by
  apply BitVec.eq_of_toNat_eq
  rw [BitVec.toNat_shiftLeft, BitVec.toNat_ofNat, Nat.shiftLeft_eq]

theorem ushiftRight_eq_ofNat (b : BitVec w) (n : Nat) : b >>> n = BitVec.ofNat w (b.toNat / 2 ^ n) :=
  eq_ofNat_of_toNat_eq (by rw [BitVec.toNat_ushiftRight, Nat.shiftRight_eq_div_pow])

/-- A shift that gives 0 from the width on is the exact shift (R175). -/
theorem ite_shiftLeft_eq_ofNat (b : BitVec w) (n : Nat) :
    (if w ≤ n then 0 else b <<< n) = BitVec.ofNat w (b.toNat * 2 ^ n) := by
  rw [← shiftLeft_eq_ofNat, ite_eq_right_iff]
  exact fun h => (BitVec.shiftLeft_eq_zero h).symm

/-- A shift that gives 0 from the width on is the exact shift (R175). -/
theorem ite_ushiftRight_eq_ofNat (b : BitVec w) (n : Nat) :
    (if w ≤ n then 0 else b >>> n) = BitVec.ofNat w (b.toNat / 2 ^ n) := by
  rw [← ushiftRight_eq_ofNat, ite_eq_right_iff]
  exact fun h => (BitVec.ushiftRight_eq_zero h).symm

end

theorem shiftLeft8_eq_ofNat (b a : Octet) : shiftLeft8 b a = BitVec.ofNat 8 (b.toNat * 2 ^ a.toNat) :=
  ite_shiftLeft_eq_ofNat b a.toNat

theorem shiftRight8_eq_ofNat (b a : Octet) : shiftRight8 b a = BitVec.ofNat 8 (b.toNat / 2 ^ a.toNat) :=
  ite_ushiftRight_eq_ofNat b a.toNat

theorem shiftLeft16_eq_ofNat (b : Word) (a : Octet) : shiftLeft16 b a = BitVec.ofNat 16 (b.toNat * 2 ^ a.toNat) :=
  ite_shiftLeft_eq_ofNat b a.toNat

theorem shiftRight16_eq_ofNat (b : Word) (a : Octet) : shiftRight16 b a = BitVec.ofNat 16 (b.toNat / 2 ^ a.toNat) :=
  ite_ushiftRight_eq_ofNat b a.toNat

/-! ### A result pushed, and a fault taken, after the pops -/

section
variable {i : Instr} {m : Micro Unit} {n : Word} {ins : List Octet} (he : ∀ s, exec i s = finish m s)
include he

/-- An instruction that pops `ins` and pushes one octet. -/
theorem turns_of_popsTo_push8 {v r : Octet} (hm : PopsTo dataStack m ins (push8 v >>= fun _ => advance n))
    (hv : v = r) : Turns i n ins [r] :=
  turns_of_popsTo he hm rfl (by simp [push8, pushOctets, hv]) (by simp)

/-- An instruction that pops `ins` and pushes one word. -/
theorem turns_of_popsTo_push16 {v r : Word} (hm : PopsTo dataStack m ins (push16 v >>= fun _ => advance n))
    (hv : v = r) : Turns i n ins (wordOctets r) :=
  turns_of_popsTo he hm rfl (by rw [push16_eq_pushOctets, hv]) (by simp [wordOctets])

/-- An instruction that pops `ins` and takes a fault leaves both stacks without them. -/
theorem traps_of_popsTo_takeFault {c : Cause} (hm : PopsTo dataStack m ins (takeFault c)) {s : State}
    (h : s.undisturbed) {below : List Octet} (hs : s.ds = below ++ ins) :
    Traps i s c below s.rs (stackTouched dataStack 0 0) := by
  obtain ⟨t, hpop, ht, hst⟩ := hm s below h hs
  obtain ⟨u, hrun, htu⟩ := takeFault_trapped (α := Unit) (hst.undisturbed h) c
  have hrs : t.rs = s.rs :=
    hst.kept.other_stack dataStack_isStack returnStack_isStack (by decide) fun _ ha => .inr (.inl ha)
  have hsu : Trapped s u c (stackTouched dataStack 0 0) :=
    (hst.mono fun _ => .inl).trans_trapped (not_stackTouched_flagsAddr dataStack_isStack 0 0)
      (htu.mono fun _ => False.elim)
  exact hsu.traps (he s) (hpop.trans hrun) ((htu.stack_eq dataStack_isStack).trans ht)
    ((htu.stack_eq returnStack_isStack).trans hrs)

end

/-! ### The shapes of the family -/

section
variable {i : Instr}

section
variable {f : Octet → Octet → Octet}

theorem needsOctets_binary8 (he : ∀ s, exec i s = finish (binary8 f) s) : NeedsOctets i 2 :=
  needsOctets_of_underflows he (.pop8 fun _ => .pop8 fun _ => .none _)

theorem turns_binary8 (he : ∀ s, exec i s = finish (binary8 f) s) {b a r : Octet} (hr : f b a = r) :
    Turns i 1 [b, a] [r] :=
  turns_of_popsTo_push8 he (.pop8 (ins := [b]) a (.pop8 (ins := []) b (.none _))) hr

theorem needsOctets_divide8 (he : ∀ s, exec i s = finish (divide8 f) s) : NeedsOctets i 2 :=
  needsOctets_of_underflows he (.pop8 fun _ => .pop8 fun _ => .none _)

/-- Both operands are popped before the divisor is looked at (R152). -/
theorem popsTo_divide8 (f : Octet → Octet → Octet) (b a : Octet) : PopsTo dataStack (divide8 f) [b, a]
    (if a = 0 then takeFault .div0 else push8 (f b a) >>= fun _ => advance 1) :=
  .pop8 (ins := [b]) a (.pop8 (ins := []) b (.none _))

theorem turns_divide8 (he : ∀ s, exec i s = finish (divide8 f) s) {b a r : Octet} (ha : a ≠ 0) (hr : f b a = r) :
    Turns i 1 [b, a] [r] := by
  have hm := popsTo_divide8 f b a
  rw [if_neg ha] at hm
  exact turns_of_popsTo_push8 he hm hr

theorem traps_divide8 (he : ∀ s, exec i s = finish (divide8 f) s) {s : State} (h : s.undisturbed)
    {below : List Octet} {b : Octet} (hs : s.ds = below ++ [b, 0]) :
    Traps i s .div0 below s.rs (stackTouched dataStack 0 0) :=
  traps_of_popsTo_takeFault he (popsTo_divide8 f b 0) h hs

end

section
variable {f : Word → Word → Word}

theorem needsOctets_binary16 (he : ∀ s, exec i s = finish (binary16 f) s) : NeedsOctets i 4 :=
  needsOctets_of_underflows he (.pop16 fun _ => .pop16 fun _ => .none _)

theorem turns_binary16 (he : ∀ s, exec i s = finish (binary16 f) s) {b a r : Word} (hr : f b a = r) :
    Turns i 1 (wordOctets b ++ wordOctets a) (wordOctets r) :=
  turns_of_popsTo_push16 he (.pop16 a (.pop16 b (.none _))) hr

theorem needsOctets_divide16 (he : ∀ s, exec i s = finish (divide16 f) s) : NeedsOctets i 4 :=
  needsOctets_of_underflows he (.pop16 fun _ => .pop16 fun _ => .none _)

/-- Both operands are popped before the divisor is looked at (R152). -/
theorem popsTo_divide16 (f : Word → Word → Word) (b a : Word) :
    PopsTo dataStack (divide16 f) (wordOctets b ++ wordOctets a)
      (if a = 0 then takeFault .div0 else push16 (f b a) >>= fun _ => advance 1) :=
  .pop16 a (.pop16 b (.none _))

theorem turns_divide16 (he : ∀ s, exec i s = finish (divide16 f) s) {b a r : Word} (ha : a ≠ 0) (hr : f b a = r) :
    Turns i 1 (wordOctets b ++ wordOctets a) (wordOctets r) := by
  have hm := popsTo_divide16 f b a
  rw [if_neg ha] at hm
  exact turns_of_popsTo_push16 he hm hr

theorem traps_divide16 (he : ∀ s, exec i s = finish (divide16 f) s) {s : State} (h : s.undisturbed)
    {below : List Octet} {b : Word} (hs : s.ds = below ++ wordOctets b ++ wordOctets 0) :
    Traps i s .div0 below s.rs (stackTouched dataStack 0 0) :=
  traps_of_popsTo_takeFault he (popsTo_divide16 f b 0) h (by rw [hs, List.append_assoc])

end

section
variable {f : Word → Octet → Word}

theorem needsOctets_shiftWord (he : ∀ s, exec i s = finish (shiftWord f) s) : NeedsOctets i 3 :=
  needsOctets_of_underflows he (.pop8 fun _ => .pop16 fun _ => .none _)

theorem turns_shiftWord (he : ∀ s, exec i s = finish (shiftWord f) s) {b r : Word} {a : Octet} (hr : f b a = r) :
    Turns i 1 (wordOctets b ++ [a]) (wordOctets r) :=
  turns_of_popsTo_push16 he (.pop8 a (.pop16 b (.none _))) hr

end

end

/-- The complement is the exclusive or with ones (R169). -/
theorem turns_not (a : Octet) : Turns .not 1 [a] [~~~a] :=
  turns_of_popsTo_push8 (fun _ => rfl) (.pop8 a (.none _)) BitVec.xor_allOnes

/-- As `turns_not` on a word (R170). -/
theorem turns_not16 (a : Word) : Turns .not16 1 (wordOctets a) (wordOctets (~~~a)) :=
  turns_of_popsTo_push16 (fun _ => rfl) (.pop16 a (.none _)) BitVec.xor_allOnes

/-- A divisor above some remainder is not 0. -/
theorem ne_zero_of_lt_toNat {w : Nat} {a : BitVec w} {r : Nat} (h : r < a.toNat) : a ≠ 0 := by
  rintro rfl
  exact Nat.not_lt_zero r h

/-! ### The obligations -/

/-- Settles O25: each of the three pops two octets and pushes the exact result cut to 8 bits. -/
theorem octetArithmetic : Obligations.OctetArithmetic :=
  ⟨rfl, rfl, rfl, needsOctets_binary8 fun _ => rfl, needsOctets_binary8 fun _ => rfl,
    needsOctets_binary8 fun _ => rfl,
    fun b a =>
      ⟨turns_binary8 (fun _ => rfl) (BitVec.add_def b a), turns_binary8 (fun _ => rfl) (sub_eq_ofInt b a),
        turns_binary8 (fun _ => rfl) (mul_eq_ofNat b a)⟩⟩

/-- Settles O26: each of the three pops two words and pushes the exact result cut to 16 bits. -/
theorem wordArithmetic : Obligations.WordArithmetic :=
  ⟨rfl, rfl, rfl, needsOctets_binary16 fun _ => rfl, needsOctets_binary16 fun _ => rfl,
    needsOctets_binary16 fun _ => rfl,
    fun b a =>
      ⟨turns_binary16 (fun _ => rfl) (BitVec.add_def b a), turns_binary16 (fun _ => rfl) (sub_eq_ofInt b a),
        turns_binary16 (fun _ => rfl) (mul_eq_ofNat b a)⟩⟩

/-- Settles O27: the divisor 0 faults after both pops, and any other gives the quotient and the remainder. -/
theorem octetDivision : Obligations.OctetDivision := by
  refine ⟨rfl, rfl, needsOctets_divide8 fun _ => rfl, needsOctets_divide8 fun _ => rfl, fun b a q r hb hr => ?_,
    fun s below b h hs => ⟨traps_divide8 (fun _ => rfl) h hs, traps_divide8 (fun _ => rfl) h hs⟩⟩
  obtain ⟨hdiv, hmod⟩ := udiv_umod_eq_ofNat hb hr
  have ha := ne_zero_of_lt_toNat hr
  exact ⟨turns_divide8 (fun _ => rfl) ha hdiv, turns_divide8 (fun _ => rfl) ha hmod⟩

/-- Settles O28: as O27, on words. -/
theorem wordDivision : Obligations.WordDivision := by
  refine ⟨rfl, rfl, needsOctets_divide16 fun _ => rfl, needsOctets_divide16 fun _ => rfl, fun b a q r hb hr => ?_,
    fun s below b h hs => ⟨traps_divide16 (fun _ => rfl) h hs, traps_divide16 (fun _ => rfl) h hs⟩⟩
  obtain ⟨hdiv, hmod⟩ := udiv_umod_eq_ofNat hb hr
  have ha := ne_zero_of_lt_toNat hr
  exact ⟨turns_divide16 (fun _ => rfl) ha hdiv, turns_divide16 (fun _ => rfl) ha hmod⟩

/-- Settles O29: three pop two octets and push one, and NOT pops one and pushes one. -/
theorem octetLogic : Obligations.OctetLogic :=
  ⟨rfl, rfl, rfl, rfl, needsOctets_binary8 fun _ => rfl, needsOctets_binary8 fun _ => rfl,
    needsOctets_binary8 fun _ => rfl, needsOctets_of_underflows (fun _ => rfl) (.pop8 fun _ => .none _),
    fun _ a =>
      ⟨turns_binary8 (fun _ => rfl) rfl, turns_binary8 (fun _ => rfl) rfl, turns_binary8 (fun _ => rfl) rfl,
        turns_not a⟩⟩

/-- Settles O30: three pop two words and push one, and NOT16 pops one and pushes one. -/
theorem wordLogic : Obligations.WordLogic :=
  ⟨rfl, rfl, rfl, rfl, needsOctets_binary16 fun _ => rfl, needsOctets_binary16 fun _ => rfl,
    needsOctets_binary16 fun _ => rfl, needsOctets_of_underflows (fun _ => rfl) (.pop16 fun _ => .none _),
    fun _ a =>
      ⟨turns_binary16 (fun _ => rfl) rfl, turns_binary16 (fun _ => rfl) rfl, turns_binary16 (fun _ => rfl) rfl,
        turns_not16 a⟩⟩

/-- Settles O31: the amount on top is popped first, and the exact result is 0 from the width on. -/
theorem shifts : Obligations.Shifts :=
  ⟨rfl, rfl, rfl, rfl, needsOctets_binary8 fun _ => rfl, needsOctets_shiftWord fun _ => rfl,
    needsOctets_binary8 fun _ => rfl, needsOctets_shiftWord fun _ => rfl,
    fun b a w =>
      ⟨turns_binary8 (fun _ => rfl) (shiftLeft8_eq_ofNat b a),
        turns_shiftWord (fun _ => rfl) (shiftLeft16_eq_ofNat w a),
        turns_binary8 (fun _ => rfl) (shiftRight8_eq_ofNat b a),
        turns_shiftWord (fun _ => rfl) (shiftRight16_eq_ofNat w a)⟩⟩

end Sys2Proof.Machine
end

section
/-! The comparison and control family, opcodes 0x40 to 0x4B: the results of the comparisons as the relations of R190 on
naturals, and the transfers as pops that end in a new `pc`. -/

namespace Sys2Proof.Machine

/-! ### The results of the comparisons -/

section
variable {w : Nat} (b a : BitVec w)

theorem truthOctet_beq : truthOctet (b == a) = if b.toNat = a.toNat then 0x01 else 0x00 := by
  simp [truthOctet, BitVec.toNat_inj]

theorem truthOctet_bne : truthOctet (b != a) = if b.toNat = a.toNat then 0x00 else 0x01 := by
  simp [truthOctet, BitVec.toNat_inj]

end

theorem truthOctet_decide (p : Prop) [Decidable p] : truthOctet (decide p) = if p then 0x01 else 0x00 := by
  simp [truthOctet]

/-! ### The comparisons as pops and a push -/

section
variable {i : Instr} {r : Octet}

section
variable {rel : Octet → Octet → Bool} (he : ∀ s, exec i s = finish (compare8 rel) s)
include he

theorem needsOctets_compare8 : NeedsOctets i 2 :=
  needsOctets_of_underflows he (.pop8 fun _ => .pop8 fun _ => .none _)

theorem turns_compare8 {b a : Octet} (hr : truthOctet (rel b a) = r) : Turns i 1 [b, a] [r] :=
  turns_of_popsTo_push8 he (.pop8 (ins := [b]) a (.pop8 (ins := []) b (.none _))) hr

end

section
variable {rel : Word → Word → Bool} (he : ∀ s, exec i s = finish (compare16 rel) s)
include he

theorem needsOctets_compare16 : NeedsOctets i 4 :=
  needsOctets_of_underflows he (.pop16 fun _ => .pop16 fun _ => .none _)

theorem turns_compare16 {b a : Word} (hr : truthOctet (rel b a) = r) :
    Turns i 1 (wordOctets b ++ wordOctets a) [r] :=
  turns_of_popsTo_push8 he (.pop16 a (.pop16 b (.none _))) hr

end

end

/-- Settles O32: each of the four pops two octets and pushes whether the relation holds of them. -/
theorem octetComparisons : Obligations.OctetComparisons :=
  ⟨rfl, rfl, rfl, rfl, needsOctets_compare8 fun _ => rfl, needsOctets_compare8 fun _ => rfl,
    needsOctets_compare8 fun _ => rfl, needsOctets_compare8 fun _ => rfl,
    fun b a =>
      ⟨turns_compare8 (fun _ => rfl) (truthOctet_beq b a), turns_compare8 (fun _ => rfl) (truthOctet_bne b a),
        turns_compare8 (fun _ => rfl) (truthOctet_decide _), turns_compare8 (fun _ => rfl) (truthOctet_decide _)⟩⟩

/-- Settles O33: as O32 on words, which are compared whole. -/
theorem wordComparisons : Obligations.WordComparisons :=
  ⟨rfl, rfl, rfl, rfl, needsOctets_compare16 fun _ => rfl, needsOctets_compare16 fun _ => rfl,
    needsOctets_compare16 fun _ => rfl, needsOctets_compare16 fun _ => rfl,
    fun b a =>
      ⟨turns_compare16 (fun _ => rfl) (truthOctet_beq b a), turns_compare16 (fun _ => rfl) (truthOctet_bne b a),
        turns_compare16 (fun _ => rfl) (truthOctet_decide _), turns_compare16 (fun _ => rfl) (truthOctet_decide _)⟩⟩

/-! ### Pops that end in a new `pc` -/

/-- Popping one stack and then doing nothing but set `pc` leaves the other stack. -/
theorem PopsTo.sets_pc {k k' : StackSpec} (hk : k.isStack) (hk' : k'.isStack) (hne : k ≠ k') {m m' : Micro Unit}
    {ins : List Octet} (hm : PopsTo k m ins m') {s : State} (h : s.undisturbed) {below : List Octet}
    (hs : s.stack k = below ++ ins) {pc : Word} (hend : ∀ t, t.pc = s.pc → m'.run t = .ok () (t.setPc pc)) :
    ∃ t, m.run s = .ok () t ∧ t.stack k = below ∧ t.stack k' = s.stack k' ∧ t.pc = pc ∧ t.runState = s.runState ∧
      Kept s t fun a => a = k.depthAddr.toNat := by
  obtain ⟨t, hpop, ht, hst⟩ := hm s below h hs
  exact ⟨t.setPc pc, hpop.trans (hend t hst.pc), ht, hst.kept.other_stack hk hk' hne fun _ ha => .inr (.inl ha), rfl,
    hst.runState, hst.kept.setPc pc⟩

/-! ### The conditional jumps -/

/-- A jump that is not taken goes on behind the instruction (R199, R200). -/
theorem jump_or_advance_run (p : Prop) [Decidable p] (t : Word) (s : State) :
    (if p then jump t else advance 1).run s = .ok () (s.setPc (if p then t else s.pc + 1)) := by
  split
  · exact jump_run t s
  · exact advance_run 1 s

section
variable {i : Instr} {taken : Octet → Bool} (he : ∀ s, exec i s = finish (jumpIf taken) s)
include he

theorem needsOctets_jumpIf : NeedsOctets i 3 :=
  needsOctets_of_underflows he (.pop8 fun _ => .pop16 fun _ => .none _)

/-- Condition and target are popped, whichever way `pc` goes (R199, R200). -/
theorem leaves_jumpIf {s : State} (h : s.undisturbed) {below : List Octet} {t : Word} {c : Octet}
    (hs : s.ds = below ++ wordOctets t ++ [c]) {pc : Word} (hpc : (if taken c then t else s.pc + 1) = pc) :
    Leaves i s below [] pc := by
  have hm : PopsTo dataStack (jumpIf taken) (wordOctets t ++ [c]) (if taken c then jump t else advance 1) :=
    .pop8 c (.pop16 (ins := []) t (.none _))
  have hend : ∀ u : State, u.pc = s.pc →
      (if taken c then jump t else advance 1).run u = .ok () (u.setPc pc) := fun u hu => by
    rw [jump_or_advance_run, hu, hpc]
  rw [List.append_assoc] at hs
  obtain ⟨u, hrun, hds, -, hupc, hrunState, hkept⟩ :=
    hm.sets_pc dataStack_isStack returnStack_isStack (by decide) h hs hend
  exact ⟨u, (he s).trans (finish_ok hrun), hds.trans (List.append_nil below).symm, hupc, hrunState,
    hkept.mono fun _ => .inl⟩

end

/-- Settles O34: the two jumps are taken on opposite conditions. -/
theorem conditionalJumps : Obligations.ConditionalJumps := by
  refine ⟨rfl, rfl, needsOctets_jumpIf fun _ => rfl, needsOctets_jumpIf fun _ => rfl, fun s below t c h hs => ?_⟩
  have hzero : c = 0 ↔ c.toNat = 0 := BitVec.toNat_eq
  exact ⟨leaves_jumpIf (fun _ => rfl) h hs (by simp only [beq_iff_eq, hzero]),
    leaves_jumpIf (fun _ => rfl) h hs (by simp only [bne_iff_ne, ne_eq, hzero, ite_not])⟩

/-! ### CALL and RET -/

theorem finish_congr {m m' : Micro Unit} {s t : State} (h : m.run s = m'.run t) : finish m s = finish m' t := by
  unfold finish
  rw [h]

/-- CALL pops the target and then pushes the address after itself: its pops have left `pc` as it was (R201). -/
theorem call_pushes {s : State} (h : s.undisturbed) {below : List Octet} {target : Word}
    (hs : s.ds = below ++ wordOctets target) :
    ∃ t, exec .call s = finish (pushOctets returnStack (wordOctets (s.pc + 1)) >>= fun _ => jump target) t ∧
      t.undisturbed ∧ t.ds = below ∧ t.rs = s.rs ∧ t.depth returnStack = s.depth returnStack ∧
      ∀ p : Nat → Prop, Rewritten s t fun a => a = dspAddr.toNat ∨ p a := by
  have hm : PopsTo dataStack (pop16 >>= fun w => fetchOf State.pc >>= fun pc => rpush16 (pc + 1) >>= fun _ => jump w)
      (wordOctets target) (fetchOf State.pc >>= fun pc => rpush16 (pc + 1) >>= fun _ => jump target) :=
    .pop16 (ins := []) target (.none _)
  obtain ⟨t, hpop, ht, hst⟩ := hm s below h hs
  have hrs : t.stack returnStack = s.stack returnStack :=
    hst.kept.other_stack dataStack_isStack returnStack_isStack (by decide) fun _ ha => .inr (.inl ha)
  have hpush : rpush16 (t.pc + 1) = pushOctets returnStack (wordOctets (s.pc + 1)) := by
    rw [hst.pc]
    exact pushWord_eq_pushOctets _ _
  refine ⟨t, finish_congr (hpop.trans ?_), hst.undisturbed h, ht, hrs, ?_, fun p => hst.mono fun _ => .inl⟩
  · rw [bind_ok (fetchOf_run State.pc t), hpush]
  · rw [← stack_length, hrs, stack_length]

section
variable {s : State} (h : s.undisturbed) {below : List Octet} {target : Word}
  (hs : s.ds = below ++ wordOctets target)
include h hs

/-- CALL with room for the return address. -/
theorem call_room (hroom : s.depth returnStack + 2 ≤ stackMax) :
    ∃ t, exec .call s = .next t ∧ t.ds = below ∧ t.rs = s.rs ++ wordOctets (s.pc + 1) ∧ t.pc = target ∧
      t.runState = s.runState ∧
      Kept s t fun a => a = dspAddr.toNat ∨
        stackTouched returnStack (s.depth returnStack) (s.depth returnStack + 2) a := by
  obtain ⟨t, hcall, hu, hds, hrs, hdepth, hst⟩ := call_pushes h hs
  rw [← hdepth] at hroom
  obtain ⟨u, hrun, hstack, htu⟩ :=
    pushOctets_room returnStack_isStack hu (outs := wordOctets (s.pc + 1)) hroom
  have hother : u.ds = t.ds := htu.kept.other_stack returnStack_isStack dataStack_isStack (by decide) fun _ =>
    .inr ∘ stackTouched_mono (Nat.zero_le _) (hroom.trans (by decide))
  rw [hdepth] at htu
  have hsu := (hst _).trans (htu.mono fun _ => .inr)
  exact ⟨u.setPc target, hcall.trans (finish_ok (bind_ok hrun)), hother.trans hds,
    hstack.trans (congrArg (· ++ _) hrs), rfl, hsu.runState, hsu.kept.setPc target⟩

/-- CALL without room for the whole return address: the target is popped, and an octet that finds room is pushed. -/
theorem call_overflow (hfull : stackMax < s.depth returnStack + 2) :
    Traps .call s .rsOvf below (s.rs ++ (wordOctets (s.pc + 1)).take (stackMax - s.depth returnStack)) fun a =>
      a = dspAddr.toNat ∨ stackTouched returnStack (s.depth returnStack) stackMax a := by
  obtain ⟨t, hcall, hu, hds, hrs, hdepth, hst⟩ := call_pushes h hs
  rw [← hdepth] at hfull
  obtain ⟨u, hrun, hstack, htu⟩ :=
    pushOctets_overflow returnStack_isStack hu (outs := wordOctets (s.pc + 1)) (List.cons_ne_nil _ _) hfull
  have hother : u.ds = t.ds := htu.kept.other_stack returnStack_isStack dataStack_isStack (by decide) fun _ =>
    Or.imp_right (stackTouched_mono (Nat.zero_le _) (by decide))
  rw [hdepth] at hstack htu
  have hflags := not_stackTouched_flagsAddr returnStack_isStack (s.depth returnStack) stackMax
  have hsu := (hst _).trans_trapped
    (fun hf => hf.elim (depthAddr_ne_flagsAddr dataStack_isStack) hflags) (htu.mono fun _ => .inr)
  exact ⟨u, hcall.trans (finish_taken (bind_error hrun)), hsu.runState, hsu.pc, hsu.flags, hother.trans hds,
    hstack.trans (congrArg (· ++ _) hrs), hsu.kept⟩

end

/-- Settles O35: a target popped off the data stack, and a return address pushed on the other, with or without room. -/
theorem callTransfers : Obligations.CallTransfers :=
  ⟨rfl, needsOctets_of_underflows (fun _ => rfl) (.pop16 fun _ => .none _), fun _ _ _ h hs =>
    ⟨call_room h hs, call_overflow h hs⟩⟩

/-- Settles O36: whatever word is on top of the return stack is popped into `pc`. -/
theorem retTransfers : Obligations.RetTransfers := by
  have hne : returnStack ≠ dataStack := by decide
  refine ⟨rfl, fun s h hd => ?_, fun s below target h hs => ?_⟩
  · have hm : Underflows returnStack (rpop16 >>= jump) 2 := .word returnStack_isStack fun _ => .none _
    obtain ⟨t, hrun, hrs, hds, ht⟩ := hm.trapped returnStack_isStack dataStack_isStack hne h hd
    exact ht.traps rfl hrun hds hrs
  · have hm : PopsTo returnStack (rpop16 >>= jump) (wordOctets target) (jump target) :=
      .word returnStack_isStack (ins := []) target (.none _)
    obtain ⟨t, hrun, hrs, hds, hrest⟩ :=
      hm.sets_pc returnStack_isStack dataStack_isStack hne h hs fun u _ => jump_run target u
    exact ⟨t, finish_ok hrun, hds, hrs, hrest⟩

end Sys2Proof.Machine
end

section
/-! The literal and memory family, opcodes 0x50 to 0x55, where no device answers: storage is followed access by access, so
the address may point anywhere, into the stacks and at FLAGS too. -/

namespace Sys2Proof.Machine

/-! ### Literals -/

/-- PUSH pops nothing and pushes its immediate (R210). -/
theorem turns_push (v : Octet) : Turns (.push v) 2 [] [v] :=
  turns_of_popsTo_push8 (fun _ => rfl) (.none _) rfl

/-- PUSH16 pops nothing and pushes its immediate, high octet deeper (R211). -/
theorem turns_push16 (w : Word) : Turns (.push16 w) 3 [] (wordOctets w) :=
  turns_of_popsTo_push16 (fun _ => rfl) (.none _) rfl

/-- Settles O37: both are a push of the immediate, without pops. -/
theorem literals : Obligations.Literals :=
  ⟨fun v => ⟨rfl, turns_push v⟩, fun w => ⟨rfl, turns_push16 w⟩⟩

/-! ### What the pushes leave alone -/

/-- Pushing writes the depth octet and the slots pushed into. -/
theorem peek_pushed_of_not_stackTouched (m : Memory) {d a : Nat} {outs : List Octet}
    (ha : ¬ stackTouched dataStack d (d + outs.length) a) : (pushed m d outs).peek a = m.peek a := by
  rw [stackTouched_dataStack] at ha
  rw [peek_pushed, if_neg (by omega), Memory.peek_pokeList, if_neg (by omega)]

/-- A routed read does not see a depth octet that the push has overwritten. -/
theorem plainRead_pushed_withDepth (m : Memory) (d e : Nat) (outs : List Octet) (a : Word) :
    plainRead (pushed (withDepth m d) e outs) a = plainRead (pushed m e outs) a := by
  unfold plainRead
  rw [peek_pushed_withDepth]

/-- An instruction that leaves the surroundings alone, and of storage all but what its pushes write. -/
theorem Exchanges.leaves {i : Instr} {s : State} {below outs : List Octet}
    (h : Exchanges i s (below ++ outs) s.env (pushed s.mem below.length outs)) : Leaves i s below outs (s.pc + 1) := by
  obtain ⟨t, hexec, hds, hpc, hrunState, hstop, htrace, hslots, henv, hmem⟩ := h
  exact ⟨t, hexec, hds, hpc, hrunState, hstop, htrace, hslots, henv,
    fun a ha => (hmem a).trans (peek_pushed_of_not_stackTouched s.mem ha)⟩

/-! ### LOAD -/

/-- Settles O38: the read comes between the pops and the push, and leaves the machine as it was. -/
theorem loadReadsOneOctet : Obligations.LoadReadsOneOctet := by
  refine ⟨rfl, needsOctets_of_underflows (fun _ => rfl) (.pop16 fun _ => .none _), fun s below a h hs hn => ?_⟩
  exact (exchanges_load h hs (read_noDevice h hn) h (ds_withDepth hs) fun _ => peek_pushed_withDepth _ _ _ _ _).leaves

/-! ### LOAD16 -/

section
variable {s : State} (h : s.undisturbed) {below : List Octet} {a : Word} (hs : s.ds = below ++ wordOctets a)
  (hn : NoDevice s a) (hn' : NoDevice s (a + 1))
include h hs hn hn'

/-- LOAD16 with room for both octets: the second read sees the first push (R213). -/
theorem leaves_load16 {x₀ x₁ : Octet} (hx₀ : x₀ = plainRead (withDepth s.mem below.length) a)
    (hx₁ : x₁ = plainRead (pushed s.mem below.length [x₀]) (a + 1)) (hroom : below.length + 2 ≤ stackMax) :
    Leaves .load16 s below [x₀, x₁] (s.pc + 1) := by
  have hex := exchanges_load16 h hs hroom (read_noDevice h hn) (read_noDevice h hn') h h
  rw [← hx₀, plainRead_pushed_withDepth, ← hx₁] at hex
  exact hex.leaves

/-- LOAD16 as far as its second push: the address is gone and the first octet is in its place (R213). -/
theorem load16_second_push {x₀ : Octet} (hx₀ : x₀ = plainRead (withDepth s.mem below.length) a) :
    ∃ t x₁, exec .load16 s = finish (push8 x₁ >>= fun _ => advance 1) t ∧ t.ds = below ++ [x₀] ∧
      Rewritten s t (stackTouched dataStack below.length (below.length + 1)) := by
  obtain ⟨hpush, hds⟩ := push8_midway (e := s.env) h (ds_withDepth hs) (room_of_ds hs) x₀
  have hread := read_noDevice (m := withDepth s.mem below.length) (e := s.env) h hn
  rw [← hx₀] at hread
  refine ⟨_, plainRead (pushed (withDepth s.mem below.length) below.length [x₀]) (a + 1), finish_congr ?_, hds,
    rewritten_setMem fun k hk => ?_⟩
  · rw [bind_ok (pop_of_load h hs), bind_ok hread, bind_ok hpush]
    exact bind_ok (read_noDevice (e := s.env) h hn')
  · exact (peek_pushed_withDepth _ _ _ _ _).trans (peek_pushed_of_not_stackTouched s.mem hk)

/-- LOAD16 with a stored depth of 255: the first octet finds room and the second does not (R213, R234). -/
theorem traps_load16 {x₀ : Octet} (hx₀ : x₀ = plainRead (withDepth s.mem below.length) a)
    (hfull : stackMax < below.length + 2) :
    Traps .load16 s .dsOvf (below ++ [x₀]) s.rs (stackTouched dataStack below.length stackMax) := by
  obtain ⟨t, x₁, hexec, hds, hst⟩ := load16_second_push h hs hn hn' hx₀
  have hdepth : t.depth dataStack = below.length + 1 := by
    rw [← ds_length, hds, List.length_append, List.length_singleton]
  obtain ⟨u, hrun, hstack, htu⟩ :=
    pushOctet_overflow dataStack_isStack (hst.undisturbed h) (by omega : stackMax ≤ t.depth dataStack) x₁
  have hsu : Trapped s u .dsOvf (stackTouched dataStack below.length stackMax) :=
    (hst.mono fun _ => stackTouched_mono le_rfl (room_of_ds hs)).trans_trapped
      (not_stackTouched_flagsAddr dataStack_isStack _ _) (htu.mono fun _ => False.elim)
  have hrs : u.rs = s.rs := hsu.kept.other_stack dataStack_isStack returnStack_isStack (by decide) fun _ =>
    Or.imp_right (stackTouched_mono (Nat.zero_le _) (by decide))
  exact ⟨u, hexec.trans (finish_taken (bind_error hrun)), hsu.runState, hsu.pc, hsu.flags, hstack.trans hds, hrs,
    hsu.kept⟩

end

/-- Settles O39: one read and one push, twice, with or without room for the second octet. -/
theorem load16ReadsTwoOctets : Obligations.Load16ReadsTwoOctets :=
  ⟨rfl, needsOctets_of_underflows (fun _ => rfl) (.pop16 fun _ => .none _),
    fun _ _ _ _ _ h hs hn hn' hx₀ hx₁ => ⟨leaves_load16 h hs hn hn' hx₀ hx₁, traps_load16 h hs hn hn' hx₀⟩⟩

/-! ### STORE and STORE16 -/

section
variable {s : State} (h : s.undisturbed) {below : List Octet} {a : Word} (hn : NoDevice s a)
include h hn

/-- STORE routes its octet once both operands are popped, and then `pc` moves (R214). -/
theorem exec_store_noDevice {v : Octet} (hs : s.ds = below ++ [v] ++ wordOctets a) :
    exec .store s = .next ((s.setMem (plainWrite (withDepth s.mem below.length) a v)).setPc (s.pc + 1)) := by
  obtain ⟨t, hpop₁, hpop₂⟩ := pops_of_store h hs
  refine finish_ok ?_
  rw [bind_ok hpop₁, bind_ok hpop₂, bind_ok (write_noDevice h hn v), advance_run]
  rfl

/-- STORE16 routes its two octets, the high one first, once both operands are popped, and then `pc` moves (R215). -/
theorem exec_store16_noDevice {v : Word} (hn' : NoDevice s (a + 1))
    (hs : s.ds = below ++ wordOctets v ++ wordOctets a) :
    exec .store16 s = .next ((s.setMem (plainWrite (plainWrite (withDepth s.mem below.length) a (highOctet v)) (a + 1)
      (lowOctet v))).setPc (s.pc + 1)) := by
  obtain ⟨t, hpop₁, hpop₂⟩ := pops_of_store16 h hs
  have hwrite := writeWord_eq_ok.2 ⟨_, write_noDevice (m := withDepth s.mem below.length) h hn (highOctet v),
    write_noDevice (e := s.env) h hn' (lowOctet v)⟩
  refine finish_ok ?_
  rw [bind_ok hpop₁, bind_ok hpop₂, bind_ok hwrite, advance_run]
  rfl

end

/-- A change of storage and of `pc` is no other change. -/
theorem became_setMem_setPc (s : State) (m : Memory) (v : Word) : Became s ((s.setMem m).setPc v) m :=
  ⟨rfl, rfl, rfl, rfl, fun _ => rfl⟩

/-- Settles O40: pops, one routed write, and `pc + 1`. -/
theorem storeWritesOneOctet : Obligations.StoreWritesOneOctet :=
  ⟨rfl, needsOctets_of_underflows (fun _ => rfl) (.pop16 fun _ => .pop8 fun _ => .none _),
    fun s _ _ _ h hs hn => ⟨_, exec_store_noDevice h hn hs, rfl, rfl, became_setMem_setPc s _ _⟩⟩

/-- Settles O41: pops, two routed writes, and `pc + 1`. -/
theorem store16WritesTwoOctets : Obligations.Store16WritesTwoOctets :=
  ⟨rfl, needsOctets_of_underflows (fun _ => rfl) (.pop16 fun _ => .pop16 fun _ => .none _),
    fun s _ _ _ h hs hn hn' => ⟨_, exec_store16_noDevice h hn hn' hs, rfl, rfl, became_setMem_setPc s _ _⟩⟩

end Sys2Proof.Machine
end

section
/-! Faults of an instruction: it moves `pc` only when no access that may fault is left, so a fault finds `pc` where the
instruction began. -/

namespace Sys2Proof.Machine

/-! ### Taking a fault -/

/-- A FLAGS octet with a fault's bit in it stops the core at the next boundary (R231, R233). -/
theorem faultPresent_withFault (f : Octet) (c : Cause) : faultPresent (withFault f c) = true := by
  have hmask : causeMask c &&& faultMask ≠ 0 := by cases c <;> decide
  refine bne_iff_ne.2 fun h => hmask ?_
  rw [withFault, BitVec.and_or_distrib_right] at h
  exact (BitVec.or_eq_zero_iff.1 h).2

/-- Whatever the surroundings do, a write of FLAGS that completes leaves FLAGS with the octet written (R53, R70). -/
theorem flags_of_write {f : Octet} {s t : State} (h : (write flagsAddr f).run s = .ok () t) : t.flags = f := by
  obtain ⟨u, -, h⟩ := write_eq_ok.1 h
  rw [routeWrite_storage flagsAddr_outside] at h
  cases h
  exact Memory.peek_poke_same _ _ _

/-- The sequence leaves `pc` and `run_state` as they were, or takes a fault that leaves `pc` as it was and a fault bit in
FLAGS. -/
structure Micro.HoldsPc {α : Type} (m : Micro α) : Prop where
  completes : ∀ {s t a}, m.run s = .ok a t → t.pc = s.pc ∧ t.runState = s.runState
  faults : ∀ {s t}, m.run s = .error .taken t → t.pc = s.pc ∧ faultPresent t.flags = true

theorem Micro.Peripheral.pc_of_ok {α : Type} {m : Micro α} (h : Micro.Peripheral m) {s t : State} {a : α}
    (e : m.run s = .ok a t) : t.pc = s.pc := by
  rw [← h.withCoreOf_of_ok e]; rfl

theorem Micro.Peripheral.holdsPc {α : Type} {m : Micro α} (h : Micro.Peripheral m) : Micro.HoldsPc m where
  completes e := ⟨h.pc_of_ok e, h.runState_of_ok e⟩
  faults e := absurd e (h.untrapped _ _)

/-- A fault leaves `pc` alone and its bit in FLAGS (R231). -/
theorem takeFault_holdsPc {α : Type} (c : Cause) : Micro.HoldsPc (takeFault c : Micro α) where
  completes e := absurd e (takeFault_ne_ok _ _ _ _)
  faults {s t} e := by
    rcases takeFault_eq_taken.1 e with ⟨f, u, v, hr, hw, rfl⟩ | e | ⟨f, u, -, e⟩
    · have hpc : v.pc = s.pc := ((write_peripheral _ _).pc_of_ok hw).trans ((read_peripheral _).pc_of_ok hr)
      have hflags : v.flags = withFault f c := flags_of_write hw
      exact ⟨hpc, (congrArg faultPresent hflags).trans (faultPresent_withFault f c)⟩
    · exact absurd e (read_untrapped _ _ _)
    · exact absurd e (write_untrapped _ _ _ _)

theorem Micro.HoldsPc.bind {α β : Type} {m : Micro α} {f : α → Micro β} (hm : Micro.HoldsPc m)
    (hf : ∀ a, Micro.HoldsPc (f a)) : Micro.HoldsPc (m >>= f) where
  completes e := by
    obtain ⟨a, u, hu, e⟩ := bind_eq_ok.1 e
    obtain ⟨hpc, hrun⟩ := hm.completes hu
    obtain ⟨hpc', hrun'⟩ := (hf a).completes e
    exact ⟨hpc'.trans hpc, hrun'.trans hrun⟩
  faults e := by
    rcases bind_eq_error.1 e with e | ⟨a, u, hu, e⟩
    · exact hm.faults e
    · obtain ⟨hpc, -⟩ := hm.completes hu
      obtain ⟨hpc', hbit⟩ := (hf a).faults e
      exact ⟨hpc'.trans hpc, hbit⟩

/-! ### The parts before `pc` moves -/

theorem read_holdsPc (a : Word) : Micro.HoldsPc (read a) := (read_peripheral a).holdsPc

theorem write_holdsPc (a : Word) (v : Octet) : Micro.HoldsPc (write a v) := (write_peripheral a v).holdsPc

theorem fetchOf_holdsPc {α : Type} (f : State → α) : Micro.HoldsPc (fetchOf f) where
  completes e := by cases e; exact ⟨rfl, rfl⟩
  faults := nofun

theorem pushOctet_holdsPc (k : StackSpec) (v : Octet) : Micro.HoldsPc (pushOctet k v) :=
  (read_holdsPc _).bind fun _ => by
    split
    · exact takeFault_holdsPc _
    · exact (write_holdsPc _ _).bind fun _ => write_holdsPc _ _

theorem popOctet_holdsPc (k : StackSpec) : Micro.HoldsPc (popOctet k) :=
  (read_holdsPc _).bind fun _ => by
    split
    · exact takeFault_holdsPc _
    · exact (write_holdsPc _ _).bind fun _ => read_holdsPc _

theorem pushWord_holdsPc (k : StackSpec) (v : Word) : Micro.HoldsPc (pushWord k v) :=
  (pushOctet_holdsPc k _).bind fun _ => pushOctet_holdsPc k _

theorem popWord_holdsPc (k : StackSpec) : Micro.HoldsPc (popWord k) :=
  (popOctet_holdsPc k).bind fun _ => (popOctet_holdsPc k).bind fun _ => (Micro.Peripheral.pure _).holdsPc

theorem writeWord_holdsPc (a v : Word) : Micro.HoldsPc (writeWord a v) :=
  (write_holdsPc _ _).bind fun _ => write_holdsPc _ _

/-! ### The instructions -/

/-- Where the operation takes a running core to Faulted, `pc` is where it was and FLAGS holds a fault bit. -/
def FaultsInPlace (f : State → Host.Outcome State Fault Refusal) : Prop :=
  ∀ s t, s.runState = .running → f s = .next t → t.runState = .faulted → t.pc = s.pc ∧ faultPresent t.flags = true

/-- What holds `pc` can stand before a sequence that faults in place. -/
theorem FaultsInPlace.bind {α : Type} {m : Micro α} {f : α → Micro Unit} (hm : Micro.HoldsPc m)
    (hf : ∀ a, FaultsInPlace (finish (f a))) : FaultsInPlace (finish (m >>= f)) := by
  intro s t hrun e hfault
  have go {a u} (hu : m.run s = .ok a u) (e : finish (f a) u = .next t) : t.pc = s.pc ∧ faultPresent t.flags = true := by
    obtain ⟨hpc, hkept⟩ := hm.completes hu
    obtain ⟨hpc', hbit⟩ := hf a u t (hkept.trans hrun) e hfault
    exact ⟨hpc'.trans hpc, hbit⟩
  rcases finish_eq_next.1 e with e | e
  · obtain ⟨a, u, hu, e⟩ := bind_eq_ok.1 e
    exact go hu (finish_ok e)
  · rcases bind_eq_error.1 e with e | ⟨a, u, hu, e⟩
    · exact hm.faults e
    · exact go hu (finish_taken e)

/-- A single move of `pc` does not fault (R11). -/
theorem FaultsInPlace.jump (v : Word) : FaultsInPlace (finish (jump v)) := by
  intro s t hrun e hfault
  cases e
  exact absurd (hrun.symm.trans hfault) nofun

/-- A single advance of `pc` does not fault (R22). -/
theorem FaultsInPlace.advance (n : Word) : FaultsInPlace (finish (advance n)) :=
  fun s t hrun e => FaultsInPlace.jump (s.pc + n) s t hrun e

/-- A fault taken as the last part (R231). -/
theorem FaultsInPlace.fault (c : Cause) : FaultsInPlace (finish (takeFault c)) := by
  intro s t _ e _
  rcases finish_eq_next.1 e with e | e
  · exact absurd e (takeFault_ne_ok _ _ _ _)
  · exact (takeFault_holdsPc c).faults e

/-- An operation whose every next state is in one run state other than Faulted. -/
theorem FaultsInPlace.of_runState {f : State → Host.Outcome State Fault Refusal} {r : RunState} (hr : r ≠ .faulted)
    (h : ∀ {s t}, f s = .next t → t.runState = r) : FaultsInPlace f :=
  fun _ _ _ e hfault => absurd ((h e).symm.trans hfault) hr

section
open FaultsInPlace

theorem FaultsInPlace.pop8 {f : Octet → Micro Unit} (hf : ∀ a, FaultsInPlace (finish (f a))) :
    FaultsInPlace (finish (Machine.pop8 >>= f)) := .bind (popOctet_holdsPc _) hf

theorem FaultsInPlace.pop16 {f : Word → Micro Unit} (hf : ∀ a, FaultsInPlace (finish (f a))) :
    FaultsInPlace (finish (Machine.pop16 >>= f)) := .bind (popWord_holdsPc _) hf

theorem FaultsInPlace.push8 (v : Octet) {f : Unit → Micro Unit} (hf : ∀ a, FaultsInPlace (finish (f a))) :
    FaultsInPlace (finish (Machine.push8 v >>= f)) := .bind (pushOctet_holdsPc _ v) hf

theorem FaultsInPlace.push16 (v : Word) {f : Unit → Micro Unit} (hf : ∀ a, FaultsInPlace (finish (f a))) :
    FaultsInPlace (finish (Machine.push16 v >>= f)) := .bind (pushWord_holdsPc _ v) hf

theorem FaultsInPlace.push8_advance (v : Octet) (n : Word) :
    FaultsInPlace (finish (Machine.push8 v >>= fun _ => Machine.advance n)) := push8 v fun _ => advance n

theorem FaultsInPlace.push16_advance (v n : Word) :
    FaultsInPlace (finish (Machine.push16 v >>= fun _ => Machine.advance n)) := push16 v fun _ => advance n

theorem FaultsInPlace.divide8 (f : Octet → Octet → Octet) : FaultsInPlace (finish (Machine.divide8 f)) :=
  pop8 fun _ => pop8 fun _ => by
    split
    · exact fault _
    · exact push8_advance _ _

theorem FaultsInPlace.divide16 (f : Word → Word → Word) : FaultsInPlace (finish (Machine.divide16 f)) :=
  pop16 fun _ => pop16 fun _ => by
    split
    · exact fault _
    · exact push16_advance _ _

theorem FaultsInPlace.jumpIf (taken : Octet → Bool) : FaultsInPlace (finish (Machine.jumpIf taken)) :=
  pop8 fun _ => pop16 fun _ => by
    split
    · exact jump _
    · exact advance _

/-- In every instruction the move of `pc` comes last. -/
theorem FaultsInPlace.exec (i : Instr) : FaultsInPlace (exec i) := by
  cases i
  case halt => exact of_runState (r := .halted) nofun execHalt_runState
  case yield => exact of_runState (r := .waiting) nofun execYield_runState
  case drop => exact pop8 fun _ => advance _
  case drop16 => exact pop16 fun _ => advance _
  case dup => exact pop8 fun _ => push8 _ fun _ => push8_advance _ _
  case dup16 => exact pop16 fun _ => push16 _ fun _ => push16_advance _ _
  case swap => exact pop8 fun _ => pop8 fun _ => push8 _ fun _ => push8_advance _ _
  case swap16 => exact pop16 fun _ => pop16 fun _ => push16 _ fun _ => push16_advance _ _
  case over8 => exact pop8 fun _ => pop8 fun _ => push8 _ fun _ => push8 _ fun _ => push8_advance _ _
  case over16 => exact pop16 fun _ => pop16 fun _ => push16 _ fun _ => push16 _ fun _ => push16_advance _ _
  case tor => exact pop16 fun _ => .bind (pushWord_holdsPc _ _) fun _ => advance _
  case fromr => exact .bind (popWord_holdsPc _) fun _ => push16_advance _ _
  case add | sub | mul | and | or | xor | shl | shr | eq | neq | gt | lt =>
    exact pop8 fun _ => pop8 fun _ => push8_advance _ _
  case add16 | sub16 | mul16 | and16 | or16 | xor16 => exact pop16 fun _ => pop16 fun _ => push16_advance _ _
  case div | mod => exact divide8 _
  case div16 | mod16 => exact divide16 _
  case not => exact pop8 fun _ => push8_advance _ _
  case not16 => exact pop16 fun _ => push16_advance _ _
  case shl16 | shr16 => exact pop8 fun _ => pop16 fun _ => push16_advance _ _
  case eq16 | neq16 | gt16 | lt16 => exact pop16 fun _ => pop16 fun _ => push8_advance _ _
  case jz | jnz => exact jumpIf _
  case call => exact pop16 fun _ => .bind (fetchOf_holdsPc _) fun _ => .bind (pushWord_holdsPc _ _) fun _ => jump _
  case ret => exact .bind (popWord_holdsPc _) fun _ => jump _
  case push => exact push8_advance _ _
  case push16 => exact push16_advance _ _
  case load => exact pop16 fun _ => .bind (read_holdsPc _) fun _ => push8_advance _ _
  case load16 =>
    exact pop16 fun _ => .bind (read_holdsPc _) fun _ => push8 _ fun _ => .bind (read_holdsPc _) fun _ =>
      push8_advance _ _
  case store => exact pop16 fun _ => pop8 fun _ => .bind (write_holdsPc _ _) fun _ => advance _
  case store16 => exact pop16 fun _ => pop16 fun _ => .bind (writeWord_holdsPc _ _) fun _ => advance _

end

/-- Settles O48: every instruction moves `pc` last, and a fault before that leaves its bit in FLAGS. -/
theorem faultsKeepPcAndBit : Obligations.FaultsKeepPcAndBit := fun i => FaultsInPlace.exec i

/-! ### A fault of an undisturbed machine, and the boundary -/

/-- Settles O47: the fault's bit is written to FLAGS, and nothing after the fault is run. -/
theorem faultEntry : Obligations.FaultEntry := by
  refine ⟨rfl, rfl, rfl, rfl, rfl, rfl, fun c s h => ?_⟩
  obtain ⟨t, hrun, hpc, hfaulted, hflags, hkept⟩ := takeFault_trapped (α := Unit) h c
  exact ⟨t, fun _ => bind_error hrun, hfaulted, hpc, hflags, hkept.mono fun _ ha => ha.resolve_right id⟩

/-- A running core without an input takes a turn of the loop (R233). -/
theorem step_running {s : State} (hrun : s.runState = .running) (hin : s.env.inputs = []) :
    step s = runBoundary s := by
  rw [step_core hin, coreMove, hrun]

/-- Settles O50: the boundary's tests in their order, and then the fetched instruction. -/
theorem boundaryChecks : Obligations.BoundaryChecks := by
  intro s hrun hin
  refine ⟨fun hstop => ?_, fun f t hstop hf => ⟨fun hset => ?_, fun hclear i u hfetch => ?_⟩⟩
  · rw [step_running hrun hin, runBoundary, if_pos hstop]
  · have hfault : faultPresent f = true := bne_iff_ne.2 hset
    rw [step_running hrun hin, runBoundary, hstop, if_neg Bool.false_ne_true, settle_ok hf, if_pos hfault]
  · have hfault : faultPresent f = false := bne_eq_false_iff_eq.2 hclear
    rw [step_fetches hrun hin hstop hf hfault, settle_ok hfetch]

end Sys2Proof.Machine
end

section
/-! The registers of a Terminal and of a Switch port, as the core reaches them, the send trigger, and the delivery of a
message. -/

namespace Sys2Proof.Machine

/-! ### A register of a device -/

/-- The address of a register leads to its slot and to it (R54). -/
theorem registerAddr_fields (n r : BitVec 4) :
    inWindow (registerAddr n r) = true ∧ windowSlot (registerAddr n r) = n ∧ windowRegister (registerAddr n r) = r := by
  have := n.isLt
  have := r.isLt
  refine windowAddressFields.1 n r _ ?_
  rw [registerAddr, BitVec.toNat_ofNat, Nat.mod_eq_of_lt (by omega)]

section
variable {s : State} (h : s.undisturbed) {n : BitVec 4} {d : Device} (hd : s.deviceAt n = some d) (r : BitVec 4)
include h hd

/-- A read of a register's address is a read of the register (R52, R54). -/
theorem read_register : (read (registerAddr n r)).run s = (deviceRead n d r).run s := by
  obtain ⟨hw, hn, hr⟩ := registerAddr_fields n r
  rw [read_undisturbed h, route_device hw (by rw [hn, hd]), hn, hr]

/-- A write to a register's address is a write of the register (R53, R54). -/
theorem write_register (v : Octet) : (write (registerAddr n r) v).run s = (deviceWrite n d r v).run s := by
  obtain ⟨hw, hn, hr⟩ := registerAddr_fields n r
  rw [write_undisturbed h, routeWrite_device hw v (by rw [hn, hd]), hn, hr]

end

/-! ### The Terminal -/

/-- A write of a Terminal's register 4 emits the payload that registers 1 to 3 name (R267). -/
theorem terminalWrite_emits {s : State} (h : s.undisturbed) (n : BitVec 4) {t : Terminal} (v : Octet)
    (hfit : (joinOctets t.addrHigh t.addrLow).toNat + t.length.toNat ≤ 65536) :
    (terminalWrite n t 4 v).run s = .ok () (s.setEnv { s.env with
      emitted := s.env.emitted ++
        [.text (s.mem.peekList (joinOctets t.addrHigh t.addrLow).toNat t.length.toNat)] }) :=
  bind_ok (bulkRead_undisturbed h hfit)

/-- Settles O43: each register's address leads to its case of the Terminal's register map. -/
theorem terminalRegisters : Obligations.TerminalRegisters := by
  intro s n t v h hd
  exact ⟨read_register h hd 0, write_register h hd 1 v, write_register h hd 2 v, write_register h hd 3 v,
    fun hfit => (write_register h hd 4 v).trans (terminalWrite_emits h n v hfit)⟩

/-! ### The Switch port -/

/-- A write of a port's read-only register changes at most the port's registers, and not its id (R262, U3). -/
theorem portWrite_readOnly (n : BitVec 4) (p : Port) {r : BitVec 4} (v : Octet)
    (hr : r ∈ ([0, 1, 3, 5, 14] : List (BitVec 4))) (s : State) :
    ∃ q : Port, q.ownId = p.ownId ∧ (portWrite n p r v).run s = .ok () (s.setDevice n (.port q)) := by
  refine ⟨{ Config.portStrayWrite p r v with ownId := p.ownId }, rfl, ?_⟩
  fin_cases hr <;> rfl

/-- Settles O44: each register's address leads to its case of the port's register map. -/
theorem portRegisters : Obligations.PortRegisters := by
  intro s n p v h hd
  have hread := read_register h hd
  have hwrite := fun r => write_register h hd r v
  refine ⟨hread 0, hread 1, hread 3, hread 5, hread 14, hwrite 2, hwrite 4, hwrite 6, hwrite 7, hwrite 8, hwrite 9,
    hwrite 10, hwrite 11, hwrite 12, hwrite 15, fun r hr => ?_⟩
  obtain ⟨q, hid, hq⟩ := portWrite_readOnly n p v hr s
  exact ⟨q, hid, (hwrite r).trans hq⟩

/-- The message that a port gives to the routing function, its payload read from the storage `m` (R263). -/
def Port.outgoing (p : Port) (m : Memory) : Emission :=
  .message p.ownId p.dest p.signalOut (m.peekList (joinOctets p.addrHigh p.addrLow).toNat p.lengthOut.toNat)

section
variable {s : State} (h : s.undisturbed) {p : Port}
  (hfit : (joinOctets p.addrHigh p.addrLow).toNat + p.lengthOut.toNat ≤ 65536)
include h hfit

/-- A send gives the message to the routing function, and then waits for it, or for ever where the port sends to itself
(R263, R292). -/
theorem portSend_run :
    (portSend p).run s =
      (if p.dest = p.ownId then abort (.stuck .selfSendDeadlock) else awaitReply >>= fun _ => pure ()).run
        (s.setEnv { s.env with emitted := s.env.emitted ++ [p.outgoing s.mem] }) := by
  rw [portSend, bind_ok (bulkRead_undisturbed h hfit), bind_ok (emit_run _ _)]
  rfl

/-- A send to another port ends as the script of replies says (R264, log entry 16). -/
theorem portSend_other (hother : p.dest ≠ p.ownId) {r : Reply} {rest : List Reply} (hr : s.env.replies = r :: rest) :
    (portSend p).run s = (giveReply r >>= fun _ => pure ()).run
      (s.setEnv { s.env with replies := rest, emitted := s.env.emitted ++ [p.outgoing s.mem] }) := by
  rw [portSend_run h hfit, if_neg hother, EStateM.run_bind, awaitReply_run, State.setEnv_env]
  simp only [hr]
  rw [EStateM.run_bind]
  rfl

/-- A send to the port's own id never ends (R292, log entry 9). -/
theorem portSend_self (hself : p.dest = p.ownId) :
    ∃ t, (portSend p).run s = .error (.stuck .selfSendDeadlock) t :=
  ⟨_, by rw [portSend_run h hfit, if_pos hself, abort_run]⟩

end

/-- Settles O45: the send trigger is a send, which ends as the destination and the script of replies say. -/
theorem portSends : Obligations.PortSends := by
  intro s n p v x rest h hd hfit
  have htrigger : (write (registerAddr n 13) v).run s = (portSend p).run s := write_register h hd 13 v
  rw [htrigger]
  exact ⟨fun hother hr => (portSend_other h hfit hother hr).trans (bind_ok (giveReply_returns x _)),
    fun hother hr => ⟨_, (portSend_other h hfit hother hr).trans (bind_error (giveReply_never _))⟩,
    portSend_self h hfit⟩

/-! ### The delivery of a message -/

/-- The machine once the message is delivered: the payload in the receive buffer, the port's records, and one more request
waiting (R265). -/
def State.delivered (s : State) (n : BitVec 4) (p : Port) (sender signal : Octet) (payload : List Octet) : State :=
  ((s.setMem (s.mem.pokeList (joinOctets p.bufferHigh p.bufferLow).toNat payload)).setDevice n
    (.port (received p sender signal (BitVec.ofNat 8 payload.length)))).setEnv
      { s.env with irqs := s.env.irqs ++ [joinOctets p.vectorHigh p.vectorLow] }

/-- A delivery changes the registers of the port it is made to, and those of no other device (R265). -/
theorem deviceAt_delivered (s : State) (n : BitVec 4) (p : Port) (sender signal : Octet) (payload : List Octet)
    (k : BitVec 4) :
    (s.delivered n p sender signal payload).deviceAt k =
      if k = n then some (.port (received p sender signal (BitVec.ofNat 8 payload.length))) else s.deviceAt k :=
  State.deviceAt_setDevice s n k _

/-- A delivery to an attached port that fits its length register and the address space is accepted (R265). -/
theorem deliverMessage_undisturbed {s : State} (h : s.undisturbed) {n : BitVec 4} {p : Port}
    (hd : s.deviceAt n = some (.port p)) (sender signal : Octet) {payload : List Octet} (hlen : payload.length ≤ 255)
    (hfit : (joinOctets p.bufferHigh p.bufferLow).toNat + payload.length ≤ 65536) :
    deliverMessage n sender signal payload s = .next (s.delivered n p sender signal payload) := by
  have hrecord (m : Memory) (length : Octet) : (recordMessage n sender signal length).run (s.setMem m) =
      .ok () ((s.setMem m).setDevice n (.port (received p sender signal length))) := by
    simp only [recordMessage_run, State.deviceAt_setMem, hd]
  have hdeeds : (performDeeds (deliveryDeeds n p sender signal payload)).run s =
      .ok () (s.delivered n p sender signal payload) := by
    rw [deliveryDeeds, performDeeds, performDeed, bind_ok (bulkWrite_undisturbed h hfit), performDeeds, performDeed,
      bind_ok (hrecord _ _), performDeeds, performDeed, bind_ok (presentIrq_run _ _)]
    rfl
  have hfits : payloadFits payload = true := (payloadFits_iff payload).2 hlen
  simp only [deliverMessage, hfits, hd, Bool.not_true, Bool.false_eq_true, if_false]
  exact finish_ok hdeeds

/-- Settles O46: the three deeds of a delivery, one after the other. -/
theorem messageDelivery : Obligations.MessageDelivery := by
  intro s n p sender signal payload later hin h hd hlen hfit
  have hstep := (step_input hin).trans
    (deliverMessage_undisturbed (s := s.setEnv { s.env with inputs := later }) h hd sender signal hlen hfit)
  have hlength : (BitVec.ofNat 8 payload.length).toNat = payload.length :=
    (BitVec.toNat_ofNat _ _).trans (Nat.mod_eq_of_lt (Nat.lt_succ_of_le hlen))
  have hslots := deviceAt_delivered (s.setEnv { s.env with inputs := later }) n p sender signal payload
  have hport := (hslots n).trans (if_pos rfl)
  refine ⟨_, hstep, rfl, rfl, rfl, rfl, fun k hk => ?_, fun b hb => ?_, ⟨_, hport, rfl, rfl, hlength, rfl⟩,
    fun k hk => (hslots k).trans (if_neg hk), rfl⟩
  · exact Memory.getElem?_pokeList _ _ hk
  · exact (Memory.peek_pokeList _ _ _ _).trans (if_neg hb)

end Sys2Proof.Machine
end

section
/-! Interrupt requests: which of them a parked core accepts, the resume through its vector slot, and that nothing but this
takes a request away. -/

namespace Sys2Proof.Machine

/-! ### The acceptance of a request -/

/-- The free number chooses among the waiting requests by its remainder (R244, log entry 7). -/
theorem chooseIrq_of_mod {irqs : List Word} {choice k : Nat} (h : k < irqs.length) (hk : choice % irqs.length = k) :
    chooseIrq irqs choice = some (irqs[k], irqs.eraseIdx k) := by
  match irqs with
  | [] => exact absurd h (Nat.not_lt_zero k)
  | [v] =>
    obtain rfl : k = 0 := Nat.lt_one_iff.1 h
    rfl
  | v :: w :: rest =>
    subst hk
    exact congrArg (fun u => some (u, _)) (List.getD_eq_getElem _ _ h)

/-- The resume where no device answers at the vector slot (R246, R247). -/
theorem resume_resumed {s : State} (h : s.undisturbed) {v : Word} (hn : NoDevice s v) (hn' : NoDevice s (v + 1)) :
    ∃ t, (resume v).run s = .ok () t ∧ Resumed s t v s.env.irqs := by
  refine ⟨_, resume_eq_ok.2 ⟨_, _, _, _, _, _, _, read_plain h hn, read_plain h hn',
    read_storage (undisturbed_pc h _) flagsAddr_outside, write_storage (undisturbed_pc h _) flagsAddr_outside _, rfl⟩,
    rfl, rfl, ?_, rfl, rfl, rfl, rfl, fun a ha => ?_⟩
  · exact Memory.peek_poke_same _ _ _
  · exact Memory.peek_poke_other _ _ ha

/-- A step of a parked core that chooses the request `v` resumes through its vector slot (R245, R246). -/
theorem step_accepts {s : State} (hwait : s.runState = .waiting) (hin : s.env.inputs = []) (h : s.undisturbed)
    {v : Word} {others : List Word} (hv : chooseIrq s.env.irqs (Config.irqChoice s.env.drawn) = some (v, others))
    (hn : NoDevice s v) (hn' : NoDevice s (v + 1)) : ∃ t, step s = .next t ∧ Resumed s t v others := by
  obtain ⟨t, hresume, hresumed⟩ := resume_resumed
    (s := s.setEnv { s.env with irqs := others, drawn := s.env.drawn + 1 }) h hn hn'
  refine ⟨t, ?_, hresumed⟩
  rw [step_core hin, coreMove, hwait]
  simp only [parked, hv]
  exact finish_ok hresume

/-- A step of a parked core resumes through the vector slot of the request that the free choice names (R244). -/
theorem step_accepts_chosen {s : State} {k : Nat} (hk : k < s.env.irqs.length) (hwait : s.runState = .waiting)
    (hin : s.env.inputs = []) (h : s.undisturbed) (hchoice : Config.irqChoice s.env.drawn % s.env.irqs.length = k)
    (hn : NoDevice s s.env.irqs[k]) (hn' : NoDevice s (s.env.irqs[k] + 1)) :
    ∃ t, step s = .next t ∧ Resumed s t s.env.irqs[k] (s.env.irqs.eraseIdx k) :=
  step_accepts hwait hin h (chooseIrq_of_mod hk hchoice) hn hn'

/-- A parked core without a request does not move (R129, log entry 12). -/
theorem step_parked_idle {s : State} (hwait : s.runState = .waiting) (hin : s.env.inputs = [])
    (hirqs : s.env.irqs = []) : step s = .next s := by
  rw [step_core hin, coreMove, hwait]
  simp only [parked, hirqs, chooseIrq_nil]

/-- Settles O52: a single request is the one chosen. -/
theorem resumeThroughVectorSlot : Obligations.ResumeThroughVectorSlot := by
  intro s v hwait hin h hirqs hn hn'
  exact step_accepts hwait hin h (by rw [hirqs]; rfl) hn hn'

/-- Settles O53: the request accepted is the one that the free choice names, and it is taken out of the list. -/
theorem anyRequestMayBeAccepted : Obligations.AnyRequestMayBeAccepted := by
  refine ⟨fun s hwait hin h hirqs hall => ?_, fun s k hk => step_accepts_chosen hk,
    fun irqs k hk => chooseIrq_of_mod hk (Nat.mod_eq_of_lt hk), fun s => step_parked_idle⟩
  have hk := Nat.mod_lt (Config.irqChoice s.env.drawn) (List.length_pos_of_ne_nil hirqs)
  obtain ⟨hn, hn'⟩ := hall _ (List.getElem_mem hk)
  obtain ⟨t, hstep, hresumed⟩ := step_accepts_chosen hk hwait hin h rfl hn hn'
  have hothers := hresumed
  obtain ⟨-, -, -, hothers, -⟩ := hothers
  refine ⟨t, _, hstep, ?_, hothers.symm ▸ hresumed⟩
  rw [hothers]
  exact List.getElem_cons_eraseIdx_perm hk

/-! ### Requests keep waiting -/

/-- The core, the devices and the other agents take no waiting request away, and do not reorder them (R244). -/
theorem irqs_closed (irqs : List Word) : Closed fun t => irqs <+: t.env.irqs where
  poke _ _ _ _ h := h
  device _ _ _ _ _ _ h := h
  env _ _ hirqs h := h.trans hirqs
  pc _ _ h := h
  run _ _ h := h

theorem exec_irqs {i : Instr} {s t : State} (e : exec i s = .next t) : s.env.irqs <+: t.env.irqs :=
  (irqs_closed s.env.irqs).stable.exec ⟨[], List.append_nil _⟩ e

/-- Only the acceptance of a request, in Waiting, takes one away (R245). -/
theorem step_irqs {s t : State} (hwait : s.runState ≠ .waiting) (e : step s = .next t) :
    s.env.irqs <+: t.env.irqs :=
  (irqs_closed s.env.irqs).step ⟨[], List.append_nil _⟩ (fun h _ => absurd h hwait) (fun _ h => h) (fun _ _ h => h)
    (fun _ _ _ _ h => h) e

/-- In Idle, Halted and Faulted the core does not move (R232, log entry 12). -/
theorem step_at_rest {s : State} (hrest : s.runState = .idle ∨ s.runState = .halted ∨ s.runState = .faulted)
    (hin : s.env.inputs = []) : step s = .next s := by
  rw [step_core hin, coreMove]
  rcases hrest with h | h | h <;> rw [h]

/-- Settles O54: that the requests stay in front is a closed property, which only an acceptance breaks. -/
theorem requestsWaitForYield : Obligations.RequestsWaitForYield := by
  refine ⟨fun s t hwait e => ?_, fun i s t e => ?_, fun s => step_at_rest⟩
  · obtain ⟨more, h⟩ := step_irqs hwait e
    exact ⟨more, h.symm⟩
  · obtain ⟨more, h⟩ := exec_irqs e
    exact ⟨more, h.symm⟩

end Sys2Proof.Machine
end

section
/-! The state after reset and the host's operations: what each makes of the machine where it is accepted, where it is
refused, and what a Stop does to a running and to a parked core. -/

namespace Sys2Proof.Machine

/-! ### Reset -/

/-- Settles O55: storage is the empty list, and each slot is a copy of the empty one. -/
theorem resetValues : Obligations.ResetValues := by
  have hslots (n : BitVec 4) : State.reset.deviceAt n = none := Vector.getElem_replicate n.isLt
  exact ⟨rfl, rfl, rfl, rfl, Memory.peek_nil, hslots, rfl, rfl, rfl⟩

/-! ### Load -/

/-- The machine with the image at IMAGE_BASE and the entry vector pointing to it (R282). -/
def State.loaded (s : State) (image : List Octet) : State :=
  s.setMem ((s.mem.pokeList imageBase.toNat image).pokeList entryHighAddr.toNat
    [highOctet entryValue, lowOctet entryValue])

section
variable {s : State} {image : List Octet}

theorem hostLoad_not_idle (hrun : s.runState ≠ .idle) : hostLoad image s = .refused .hostOutsideAllowedState :=
  if_pos hrun

theorem hostLoad_too_long (hidle : s.runState = .idle) (hlong : 64512 < image.length) :
    hostLoad image s = .refused .imageTooLong := by
  have hfits : imageFits image = false := by rw [← Bool.not_eq_true, imageFits_iff]; omega
  rw [hostLoad, if_neg (not_not_intro hidle), hfits]
  rfl

/-- A Load that is accepted is two transfers, the image's and the entry vector's (R282). -/
theorem hostLoad_idle (hidle : s.runState = .idle) (h : s.undisturbed) (hlen : image.length ≤ 64512) :
    hostLoad image s = .next (s.loaded image) := by
  have hfits : imageFits image = true := (imageFits_iff image).2 hlen
  rw [hostLoad, if_neg (not_not_intro hidle), hfits]
  exact finish_ok ((bind_ok (placeOctets_undisturbed h _ _)).trans (placeOctets_undisturbed (undisturbed_mem h _) _ _))

/-- The entry vector holds ENTRY_VALUE, big-endian, whatever the image (R282). -/
theorem entryVector_loaded : (s.loaded image).mem.peek 0x0000 = 0x04 ∧ (s.loaded image).mem.peek 0x0001 = 0x00 :=
  ⟨Memory.peek_pokeList _ _ _ _, Memory.peek_pokeList _ _ _ _⟩

/-- Above the entry vector storage reads as the image's transfer leaves it. -/
theorem peek_loaded {a : Nat} (ha : 2 ≤ a) :
    (s.loaded image).mem.peek a = (s.mem.pokeList 0x0400 image).peek a := by
  have houtside : ¬(entryHighAddr.toNat ≤ a ∧ a < entryHighAddr.toNat + 2) := by
    rintro ⟨-, hlt⟩
    exact absurd hlt (Nat.not_lt.2 ha)
  exact (Memory.peek_pokeList _ _ _ _).trans (if_neg houtside)

end

/-- Settles O56: of the two transfers of a Load, the entry vector's is the later one and reaches no octet of the image. -/
theorem hostLoads : Obligations.HostLoads := by
  intro s image later hin
  refine ⟨fun hidle h hlen => ?_, fun hrun => (step_input hin).trans (hostLoad_not_idle hrun),
    fun hidle hlong => (step_input hin).trans (hostLoad_too_long hidle hlong)⟩
  have hload : step s = .next ((s.setEnv { s.env with inputs := later }).loaded image) :=
    (step_input hin).trans (hostLoad_idle hidle h hlen)
  obtain ⟨hhigh, hlow⟩ := entryVector_loaded (s := s.setEnv { s.env with inputs := later }) (image := image)
  refine ⟨_, hload, fun k hk => ?_, hhigh, hlow, fun a ha ha' hout => ?_, rfl, hidle, rfl, rfl, rfl, rfl⟩
  · rw [peek_loaded (by omega)]
    exact Memory.getElem?_pokeList _ _ hk
  · rw [peek_loaded (by omega)]
    exact (Memory.peek_pokeList _ _ _ _).trans (if_neg hout)

/-! ### Run -/

theorem hostRun_not_idle {s : State} (hrun : s.runState ≠ .idle) : hostRun s = .refused .hostOutsideAllowedState :=
  if_pos hrun

/-- A Run that is accepted reads the entry vector, which no device answers for (R284). -/
theorem hostRun_idle {s : State} (hidle : s.runState = .idle) (h : s.undisturbed) :
    hostRun s = .next ((s.setPc (joinOctets (s.mem.peek 0x0000) (s.mem.peek 0x0001))).setRunState .running) := by
  have hvector : (readWord entryHighAddr).run s = .ok (joinOctets (s.mem.peek 0x0000) (s.mem.peek 0x0001)) s :=
    readWord_eq_ok.2 ⟨_, s, _, read_storage h (by decide), read_storage h (by decide), rfl⟩
  rw [hostRun, if_neg (not_not_intro hidle)]
  exact finish_ok ((bind_ok hvector).trans ((bind_ok (jump_run _ _)).trans (enter_run _ _)))

/-- Settles O57: Run is the read of the entry vector, and then `pc` and `run_state`. -/
theorem hostRuns : Obligations.HostRuns :=
  fun _ _ hin => ⟨fun hidle h => (step_input hin).trans (hostRun_idle hidle h),
    fun hrun => (step_input hin).trans (hostRun_not_idle hrun)⟩

/-! ### Attach -/

section
variable {s : State} {n : BitVec 4} {kind : DeviceKind}

theorem hostAttach_not_idle (hrun : s.runState ≠ .idle) :
    hostAttach n kind s = .refused .hostOutsideAllowedState := if_pos hrun

theorem hostAttach_occupied (hidle : s.runState = .idle) (hfull : s.deviceAt n ≠ none) :
    hostAttach n kind s = .refused .slotOccupied := by
  rw [hostAttach, if_neg (not_not_intro hidle), if_pos hfull]

theorem hostAttach_idle (hidle : s.runState = .idle) (hempty : s.deviceAt n = none) :
    hostAttach n kind s = .next (s.setDevice n (attached kind)) := by
  rw [hostAttach, if_neg (not_not_intro hidle), if_neg (not_not_intro hempty)]

end

@[simp] theorem attached_kind (kind : DeviceKind) : (attached kind).kind = kind := by cases kind <;> rfl

/-- The slot holds a device of the kind, a port with its id. -/
def State.HoldsKind (s : State) (n : BitVec 4) (kind : DeviceKind) : Prop :=
  ∃ d, s.deviceAt n = some d ∧ d.kind = kind

/-- A device put into a slot leaves the kind that a slot holds, where it is another slot or the kind is the same. -/
theorem State.HoldsKind.setDevice {s : State} {n k : BitVec 4} {kind : DeviceKind} {e : Device}
    (h : s.HoldsKind n kind) (he : n = k → e.kind = kind) : (s.setDevice k e).HoldsKind n kind := by
  by_cases hnk : n = k
  · exact ⟨e, (State.deviceAt_setDevice s k n e).trans (if_pos hnk), he hnk⟩
  · obtain ⟨d, hd, hkind⟩ := h
    exact ⟨d, (State.deviceAt_setDevice s k n e).trans ((if_neg hnk).trans hd), hkind⟩

/-- The core, the devices and the other agents write registers of a device and do not put another in its place (R35,
R262). -/
theorem holdsKind_closed (n : BitVec 4) (kind : DeviceKind) : Closed fun s => s.HoldsKind n kind where
  poke _ _ _ _ h := h
  device s k d e hd he h := by
    refine h.setDevice ?_
    rintro rfl
    obtain ⟨d', hd', hkind⟩ := h
    rw [hd] at hd'
    cases hd'
    exact he.trans hkind
  env _ _ _ h := h
  pc _ _ h := h
  run _ _ h := h

/-- Every step keeps the kind of device that a slot holds: Attach finds its own slot empty (R283). -/
theorem step_holdsKind {s t : State} {n : BitVec 4} {kind : DeviceKind} (h : s.HoldsKind n kind)
    (e : step s = .next t) : t.HoldsKind n kind := by
  refine (holdsKind_closed n kind).step h (fun _ _ => h) (fun _ hu => hu) (fun _ _ hu => hu) ?_ e
  intro u k newKind hempty hu
  refine hu.setDevice ?_
  rintro rfl
  obtain ⟨d, hd, -⟩ := hu
  rw [hempty] at hd
  cases hd

/-- Settles O58: the kind that a slot holds is a closed property, and Attach fills one empty slot. -/
theorem hostAttaches : Obligations.HostAttaches := by
  refine ⟨fun s t n d e hd => step_holdsKind ⟨d, hd, rfl⟩ e, fun s n kind later hin => ⟨fun hidle hempty => ?_,
    fun hrun => (step_input hin).trans (hostAttach_not_idle hrun),
    fun hidle hfull => (step_input hin).trans (hostAttach_occupied hidle hfull)⟩⟩
  have hslots (k : BitVec 4) := State.deviceAt_setDevice (s.setEnv { s.env with inputs := later }) n k (attached kind)
  exact ⟨_, attached kind, (step_input hin).trans (hostAttach_idle hidle hempty), (hslots n).trans (if_pos rfl),
    attached_kind kind, fun k hk => (hslots k).trans (if_neg hk), rfl, hidle, rfl, rfl, rfl, rfl⟩

/-! ### Stop -/

/-- The machine once the core has resumed through the vector slot `v`, where no device answers (R246). -/
def State.resumedAt (s : State) (v : Word) : State :=
  ((s.setPc (joinOctets (plainRead s.mem v) (plainRead s.mem (v + 1)))).setMem
    (s.mem.poke flagsAddr.toNat (resumeFlags s.flags))).setRunState .running

theorem resume_noDevice {s : State} (h : s.undisturbed) {v : Word} (hn : NoDevice s v) (hn' : NoDevice s (v + 1)) :
    (resume v).run s = .ok () (s.resumedAt v) :=
  resume_eq_ok.2 ⟨_, _, _, _, _, _, _, read_plain h hn, read_plain h hn',
    read_storage (undisturbed_pc h _) flagsAddr_outside, write_storage (undisturbed_pc h _) flagsAddr_outside _, rfl⟩

/-- A resume writes FLAGS, which is no octet of a stack (R247). -/
theorem stack_resumedAt (s : State) (v : Word) {k : StackSpec} (hk : k.isStack) :
    (s.resumedAt v).stack k = s.stack k := by
  have hkept : Kept s (s.resumedAt v) fun a => a = flagsAddr.toNat :=
    ⟨rfl, rfl, rfl, rfl, fun _ ha => Memory.peek_poke_other _ _ ha⟩
  refine hkept.stack_eq fun a ha => ?_
  rintro rfl
  exact not_stackTouched_flagsAddr hk 0 256 ha

/-- A step of a parked core for which one request waits takes it and resumes (R245, R246). -/
theorem step_resumes {s : State} (hwait : s.runState = .waiting) (hin : s.env.inputs = []) (h : s.undisturbed)
    {v : Word} (hirqs : s.env.irqs = [v]) (hn : NoDevice s v) (hn' : NoDevice s (v + 1)) :
    step s = .next ((s.setEnv { s.env with irqs := [], drawn := s.env.drawn + 1 }).resumedAt v) := by
  have hchosen (choice : Nat) : chooseIrq s.env.irqs choice = some (v, []) := by rw [hirqs]; rfl
  have hresume := resume_noDevice (s := s.setEnv { s.env with irqs := [], drawn := s.env.drawn + 1 }) h hn hn'
  rw [step_core hin, coreMove, hwait]
  simp only [parked, hchosen]
  exact finish_ok hresume

/-- A running core with a stop request halts at the boundary (R233, R285). -/
theorem step_halts {s : State} (hrun : s.runState = .running) (hin : s.env.inputs = []) (hstop : s.stopReq = true) :
    step s = .next (s.setRunState .halted) := (boundaryChecks s hrun hin).1 hstop

/-- Settles O59: a resume leaves the stop request and the script of inputs, so the boundary after it halts. -/
theorem hostStops : Obligations.HostStops := by
  refine ⟨fun _ _ hin => step_input hin, fun _ => step_halts, fun _ => step_parked_idle, ?_⟩
  intro s v hwait hstop hin h hirqs hn hn'
  exact ⟨_, step_resumes hwait hin h hirqs hn hn', rfl, step_halts rfl hin hstop, rfl,
    stack_resumedAt _ v dataStack_isStack, stack_resumedAt _ v returnStack_isStack⟩

end Sys2Proof.Machine
end
